-- ==== Sys2Proof/Word.lean ====
section
/-! DEFINITION. The word types of SLC (spec/00_scope.md R20, R22): plain bit vectors of the widths
the spec fixes. Byte order, sign reading and every other helper that a test could show wrong stand in
Sys2Proof/Decode.lean and Sys2Proof/Machine/. -/

namespace Sys2Proof

/-- A byte, 8 bits, bit 0 the least significant (R20). -/
abbrev Byte := BitVec 8

/-- A byte string: the first byte of the list is `b[0]`, the first on the wire (R20). Its length is
the length `n`, `m`, `k` or `plen` that the ports carry beside it (R105). -/
abbrev Bytes := List Byte

/-- An op-code, 8 bits (R113). -/
abbrev OpCode := BitVec 8

/-- A SteamLink node identifier: a 32-bit field, of which 4096 values are valid (R116, R140). -/
abbrev Slid := BitVec 32

/-- A sequence number `pkg_num`, 16 bits (R101). -/
abbrev PkgNum := BitVec 16

/-- A clock value, the `now` operand and the `deadline` field, 32 bits in an open unit (R337). -/
abbrev Clock := BitVec 32

end Sys2Proof
end

