-- ==== Sys2Proof/Config.lean ====
section
/-! DEFINITION. What an implementation of SLC fixes (spec/00_scope.md section 3): the parameters, the
straps and the op-code table as one record of plain data, and the constants that stand for the values
the spec leaves open. Every constant declared `opaque` has no body: no proof can learn its value. -/

namespace Sys2Proof

/-- Descriptor column `direction` (R171). -/
inductive Direction where
  | nodeToStore
  | storeToNode
  deriving DecidableEq, Repr, Inhabited

/-- Descriptor column `header_kind` (R171): an 8-byte DataHeader or a 7-byte ControlHeader. -/
inductive HeaderKind where
  | data
  | control
  deriving DecidableEq, Repr, Inhabited

/-- Descriptor column `class` (R171). -/
inductive OpClass where
  | app
  | admin
  | ack
  | bridge
  deriving DecidableEq, Repr, Inhabited

/-- One row of the op-code table: the seven columns of R171. -/
structure Descriptor where
  direction : Direction
  headerKind : HeaderKind
  reliabilityRequired : Bool
  replyOp : Option OpCode
  opClass : OpClass
  explen : Option Nat
  vercheck : Bool
  deriving DecidableEq, Repr, Inhabited

/-- The strap BRIDGE_MODE (R39): 0 unbridged, 1 storeside, 2 nodeside; the reserved value 3 has no
constructor, so no configuration with it can be written. -/
inductive BridgeMode where
  | unbridged
  | storeside
  | nodeside
  deriving DecidableEq, Repr, Inhabited

/-- The parameters of R8 to R13 and the straps of R14: constant inputs of SLC, fixed while it runs. -/
structure Params where
  /-- RETRY_MAX (R8). -/
  retryMax : Nat
  /-- ACK_TIMEOUT (R9). -/
  ackTimeout : Nat
  /-- N_OUT (R10). -/
  nOut : Nat
  /-- MAX_FRAME (R11). -/
  maxFrame : Nat
  /-- NODE_CONFIG_VERSION (R12). -/
  nodeConfigVersion : Byte
  /-- OPTAB, indexed by `op - 0x30` (R13, R48). -/
  optab : List Descriptor
  /-- BRIDGE_MODE (R14, R39). -/
  bridgeMode : BridgeMode
  /-- STORE_SLID (R14, R40). -/
  storeSlid : Slid
  deriving DecidableEq, Repr, Inhabited

/-- The parameters and straps as the implementation fixed them. The spec gives no value for any of
them (R8 to R14: left OPEN), so this constant has no body. DESIGN CHOICE, log entry 2. -/
opaque Config.strapped : Params

/-- FREE VALUE. The bit `io_ok` that the radio driver answers to the n-th TX event (R18, U17).
Log entry 3. -/
opaque Config.ioOk : Nat → Bool

/-- FREE VALUE. What OWN_SLID holds after a RESET command (R55, R350: unspecified), at the n-th free
draw. Log entry 4. -/
opaque Config.unspecifiedSlid : Nat → Slid

end Sys2Proof
end

