-- ==== Sys2Proof/Syntax.lean ====
section
/-! DEFINITION. The instructions of SLC: one constructor per row of spec/opcode_table.json. SLC has no
instruction set; what plays the part of an instruction is a frame (sixteen wire ops, by byte 0) or a
command (eight, by command code) (spec/00_scope.md after R3, spec/30_encoding.md R120). -/

namespace Sys2Proof

/-- DataHeader, 8 bytes (R101). -/
structure DataHeader where
  op : OpCode
  slid : Slid
  pkgNum : PkgNum
  rssi : Byte
  deriving DecidableEq, Repr

/-- ControlHeader, 7 bytes (R102). -/
structure CtrlHeader where
  op : OpCode
  slid : Slid
  pkgNum : PkgNum
  deriving DecidableEq, Repr

/-- An instruction. A `wire…` constructor is the arrival, on leg L, of a frame with that op, with its
header fields and everything that stands after the header; the other eight are the commands of R120.
No field is restricted: a header keeps all 32 bits of `slid` (R150), a payload may have any length. -/
inductive Instr where
  /-- DN, 0x30, control kind (R180). -/
  | wireDN (slid : Slid) (pkg : PkgNum) (payload : Bytes)
  /-- DS, 0x31, data kind (R181). -/
  | wireDS (slid : Slid) (pkg : PkgNum) (rssi : Byte) (payload : Bytes)
  /-- BN, 0x32, control kind (R182); `body` is what stands after the header: `to_slid` and the inner
  frame in wire form (R108). -/
  | wireBN (slid : Slid) (pkg : PkgNum) (body : Bytes)
  /-- BS, 0x33, data kind (R183); `body` as for BN. -/
  | wireBS (slid : Slid) (pkg : PkgNum) (rssi : Byte) (body : Bytes)
  /-- X34, 0x34, control kind (R184). -/
  | wireX34 (slid : Slid) (pkg : PkgNum) (payload : Bytes)
  /-- X35, 0x35, data kind (R185). -/
  | wireX35 (slid : Slid) (pkg : PkgNum) (rssi : Byte) (payload : Bytes)
  /-- X36, 0x36, control kind (R186). -/
  | wireX36 (slid : Slid) (pkg : PkgNum) (payload : Bytes)
  /-- X37, 0x37, data kind (R187). -/
  | wireX37 (slid : Slid) (pkg : PkgNum) (rssi : Byte) (payload : Bytes)
  /-- SC, 0x38, control kind (R188). -/
  | wireSC (slid : Slid) (pkg : PkgNum) (payload : Bytes)
  /-- OF, 0x39, data kind (R189). -/
  | wireOF (slid : Slid) (pkg : PkgNum) (rssi : Byte) (payload : Bytes)
  /-- X3A, 0x3A, control kind (R190). -/
  | wireX3A (slid : Slid) (pkg : PkgNum) (payload : Bytes)
  /-- X3B, 0x3B, data kind (R191). -/
  | wireX3B (slid : Slid) (pkg : PkgNum) (rssi : Byte) (payload : Bytes)
  /-- AS, 0x3C, control kind (R192); one payload byte, the AckCode, when it is well sized (R106). -/
  | wireAS (slid : Slid) (pkg : PkgNum) (payload : Bytes)
  /-- X3D, 0x3D, data kind (R193). -/
  | wireX3D (slid : Slid) (pkg : PkgNum) (rssi : Byte) (payload : Bytes)
  /-- AN, 0x3E, control kind (R194). -/
  | wireAN (slid : Slid) (pkg : PkgNum) (payload : Bytes)
  /-- X3F, 0x3F, data kind (R195). -/
  | wireX3F (slid : Slid) (pkg : PkgNum) (rssi : Byte) (payload : Bytes)
  /-- RESET() (R350). -/
  | reset
  /-- CFG_LOAD(rec) (R352): `none`, or the stored NodeConfig image. -/
  | cfgLoad (record : Option Bytes)
  /-- RX(b, n) (R210): a received frame. -/
  | rx (frame : Bytes)
  /-- SEND(op, slid, payload, plen, rssi, now) (R240). -/
  | send (op : OpCode) (slid : Slid) (payload : Bytes) (rssi : Byte) (now : Clock)
  /-- TICK(now) (R250). -/
  | tick (now : Clock)
  /-- CANCEL(h) (R260). -/
  | cancel (h : Nat)
  /-- FWD(raw, m, to) (R285): a port-form bridge frame and its destination. -/
  | fwd (raw : Bytes) (dest : Slid)
  /-- CANCEL_ALL() (R261). -/
  | cancelAll
  deriving DecidableEq, Repr

end Sys2Proof
end

