-- ==== Sys2Proof/WellFormed.lean ====
section
/-! DEFINITION. Well-formedness: which configurations a model accepts (spec/00_scope.md R8 to R14,
spec/41_optab_wireops.md R172, spec/93_implementation_defined.md U9, U10), and which instructions lie
in the operand domain of their command (R11, R210, R285, U19). -/

namespace Sys2Proof

/-- The sixteen rows of a table with their index `op - 0x30`, each put to a check. -/
def Params.everyRow (t : List Descriptor) (check : Nat → Descriptor → Bool) : Bool :=
  (List.range 16).all fun i =>
    match t[i]? with
    | some d => check i d
    | none => false

/-- OPTAB has exactly 16 rows (R48). -/
def Params.optabSized (t : List Descriptor) : Bool := t.length == 16

/-- R172 condition 1: header kind Data exactly when bit 0 of the op is 1. -/
def Params.optabKinds (t : List Descriptor) : Bool :=
  Params.everyRow t fun i d => (d.headerKind == .data) == (i % 2 == 1)

/-- The class of the op `r`, when `r` is an op of the table. -/
def Params.classOf (t : List Descriptor) (r : OpCode) : Option OpClass :=
  if 0x30 ≤ r.toNat ∧ r.toNat ≤ 0x3F then (t[r.toNat - 0x30]?).map (·.opClass) else none

/-- R172 condition 2: reliable exactly when there is a reply op, and a reply op is of class Ack. -/
def Params.optabReplies (t : List Descriptor) : Bool :=
  Params.everyRow t fun _ d =>
    match d.replyOp with
    | none => !d.reliabilityRequired
    | some r => d.reliabilityRequired && Params.classOf t r == some .ack

/-- R172 condition 3: an ack op is not reliable and has one payload byte. -/
def Params.optabAcks (t : List Descriptor) : Bool :=
  Params.everyRow t fun _ d =>
    d.opClass != .ack || (!d.reliabilityRequired && d.explen == some 1)

/-- R172 condition 4: exactly one bridge op per direction, neither reliable nor size- or
version-checked; the store-bound one (BS) is of data kind and the node-bound one (BN) of control
kind. -/
def Params.optabBridges (t : List Descriptor) : Bool :=
  (t.countP fun d => d.opClass == .bridge && d.direction == .nodeToStore) == 1 &&
  (t.countP fun d => d.opClass == .bridge && d.direction == .storeToNode) == 1 &&
  Params.everyRow t fun _ d =>
    d.opClass != .bridge ||
      (!d.reliabilityRequired && d.explen == none && !d.vercheck &&
        (d.headerKind == .data) == (d.direction == .nodeToStore))

/-- R172 condition 5: a version-checked op has an expected length of at least 1. -/
def Params.optabVersions (t : List Descriptor) : Bool :=
  Params.everyRow t fun _ d =>
    !d.vercheck ||
      match d.explen with
      | some n => 1 ≤ n
      | none => false

/-- R172 condition 6: the row of 0x31 (DS) travels from node to store and is of class App. -/
def Params.optabDS (t : List Descriptor) : Bool :=
  match t[1]? with
  | some d => d.direction == .nodeToStore && d.opClass == .app
  | none => false

/-- Well-formedness of OPTAB: the six conditions of R172, over sixteen rows. -/
def Params.optabWf (t : List Descriptor) : Bool :=
  Params.optabSized t && Params.optabKinds t && Params.optabReplies t && Params.optabAcks t &&
    Params.optabBridges t && Params.optabVersions t && Params.optabDS t

/-- The ranges of the numeric parameters: `1 ≤ ACK_TIMEOUT < 2^31` (R9), `N_OUT ≥ 1` (R10),
`MAX_FRAME ≥ 19` (R11). -/
def Params.rangesWf (p : Params) : Bool :=
  decide (1 ≤ p.ackTimeout) && decide (p.ackTimeout < 2 ^ 31) && decide (1 ≤ p.nOut) &&
    decide (19 ≤ p.maxFrame)

/-- A configuration a model accepts. The duty that STORE_SLID be valid (R14, R357) is not part of it:
R275 says what SLC does when it is not met (spec/90_conflicts.md C9), and so does the model. -/
def Params.wf (p : Params) : Bool := p.rangesWf && Params.optabWf p.optab

/-- The length of the frame an instruction hands to SLC on its RX or FWD port, and 0 for an
instruction that hands none. -/
def Instr.portLength : Instr → Nat
  | .wireDN _ _ pl => 7 + pl.length
  | .wireDS _ _ _ pl => 8 + pl.length
  | .wireBN _ _ pl => 7 + pl.length
  | .wireBS _ _ _ pl => 8 + pl.length
  | .wireX34 _ _ pl => 7 + pl.length
  | .wireX35 _ _ _ pl => 8 + pl.length
  | .wireX36 _ _ pl => 7 + pl.length
  | .wireX37 _ _ _ pl => 8 + pl.length
  | .wireSC _ _ pl => 7 + pl.length
  | .wireOF _ _ _ pl => 8 + pl.length
  | .wireX3A _ _ pl => 7 + pl.length
  | .wireX3B _ _ _ pl => 8 + pl.length
  | .wireAS _ _ pl => 7 + pl.length
  | .wireX3D _ _ _ pl => 8 + pl.length
  | .wireAN _ _ pl => 7 + pl.length
  | .wireX3F _ _ _ pl => 8 + pl.length
  | .reset => 0
  | .cfgLoad _ => 0
  | .rx b => b.length
  | .send _ _ _ _ _ => 0
  | .tick _ => 0
  | .cancel _ => 0
  | .fwd raw _ => raw.length
  | .cancelAll => 0

/-- An instruction in the operand domain of its command: its frame is no longer than MAX_FRAME
(R11, R210, R285). -/
def Instr.wellFormed (p : Params) (i : Instr) : Bool := decide (i.portLength ≤ p.maxFrame)

end Sys2Proof
end

