-- ==== Sys2Proof/Decode.lean ====
section
/-! DEFINITION. Byte order, the header codec HDR (spec/40_addr_codec.md R145 to R149), and the decoder
and encoder of the instruction port. A message on the port is a byte string: a frame, when its first
byte is one of the sixteen op-codes, or else a command code (R120) and the command's operands. The
layout of the operands behind a command code is the model's own: the spec says commands have no wire
encoding (DESIGN CHOICE, log entry 6). -/

namespace Sys2Proof

/-! ### Byte order (R21, R70) -/

/-- `LE16` of two bytes, the first at the lower offset (R21). -/
def fromLe16 (b0 b1 : Byte) : PkgNum := BitVec.ofNat 16 (b0.toNat + 256 * b1.toNat)

/-- `LE32` of four bytes, the first at the lowest offset (R21). -/
def fromLe32 (b0 b1 b2 b3 : Byte) : BitVec 32 :=
  BitVec.ofNat 32 (b0.toNat + 2 ^ 8 * b1.toNat + 2 ^ 16 * b2.toNat + 2 ^ 24 * b3.toNat)

/-- `le16(v)` (R21); `BitVec.ofNat 8` takes its argument modulo 256. -/
def le16 (v : PkgNum) : Bytes := [BitVec.ofNat 8 v.toNat, BitVec.ofNat 8 (v.toNat / 256)]

/-- `le32(v)` (R21). -/
def le32 (v : BitVec 32) : Bytes :=
  [BitVec.ofNat 8 v.toNat, BitVec.ofNat 8 (v.toNat / 2 ^ 8), BitVec.ofNat 8 (v.toNat / 2 ^ 16),
    BitVec.ofNat 8 (v.toNat / 2 ^ 24)]

/-- A natural number as little-endian bytes of any number: the operand of CANCEL on the port. -/
def fromLeNat : Bytes → Nat
  | [] => 0
  | b :: bs => b.toNat + 256 * fromLeNat bs

/-- The fewest little-endian bytes of `n`, by recursion on a bound that `n` itself always meets. -/
def leNatUpTo : Nat → Nat → Bytes
  | 0, _ => []
  | k + 1, n => if n = 0 then [] else BitVec.ofNat 8 n :: leNatUpTo k (n / 256)

/-- The fewest little-endian bytes of `n`. -/
def leNat (n : Nat) : Bytes := leNatUpTo n n

/-! ### HDR: the two header shapes -/

/-- DEC_DATA (R145); `none` is CodecError.SizeError, raised exactly below 8 bytes. -/
def decData : Bytes → Option (DataHeader × Bytes)
  | op :: s0 :: s1 :: s2 :: s3 :: p0 :: p1 :: r :: payload =>
    some (⟨op, fromLe32 s0 s1 s2 s3, fromLe16 p0 p1, r⟩, payload)
  | _ => none

/-- DEC_CTRL (R146); `none` is CodecError.SizeError, raised exactly below 7 bytes. -/
def decCtrl : Bytes → Option (CtrlHeader × Bytes)
  | op :: s0 :: s1 :: s2 :: s3 :: p0 :: p1 :: payload =>
    some (⟨op, fromLe32 s0 s1 s2 s3, fromLe16 p0 p1⟩, payload)
  | _ => none

/-- ENC_DATA (R147). -/
def encData (h : DataHeader) : Bytes := [h.op] ++ le32 h.slid ++ le16 h.pkgNum ++ [h.rssi]

/-- ENC_CTRL (R148). -/
def encCtrl (h : CtrlHeader) : Bytes := [h.op] ++ le32 h.slid ++ le16 h.pkgNum

/-- A control-kind frame: ControlHeader, then the rest (R100, R102). -/
def ctrlFrame (op : OpCode) (slid : Slid) (pkg : PkgNum) (rest : Bytes) : Bytes :=
  encCtrl ⟨op, slid, pkg⟩ ++ rest

/-- A data-kind frame: DataHeader, then the rest (R100, R101). -/
def dataFrame (op : OpCode) (slid : Slid) (pkg : PkgNum) (rssi : Byte) (rest : Bytes) : Bytes :=
  encData ⟨op, slid, pkg, rssi⟩ ++ rest

/-! ### The decoder of the instruction port -/

/-- Why a message names no instruction. -/
inductive DecodeError where
  /-- The message has no byte. -/
  | emptyMessage
  /-- Its first byte is neither a command code (R120) nor one of the sixteen op-codes (R113). -/
  | unknownCode (code : Byte)
  /-- The operands of its command are too short or too long. -/
  | badOperands (code : Byte)
  /-- It is a frame shorter than the header of its kind; such a frame reaches SLC by RX. -/
  | shortHeader (op : OpCode)
  deriving DecidableEq, Repr

/-- A control-kind wire op from its frame. -/
def wireCtrl (mk : Slid → PkgNum → Bytes → Instr) (op : OpCode) (b : Bytes) :
    Except DecodeError Instr :=
  match decCtrl b with
  | some (h, rest) => .ok (mk h.slid h.pkgNum rest)
  | none => .error (.shortHeader op)

/-- A data-kind wire op from its frame. -/
def wireData (mk : Slid → PkgNum → Byte → Bytes → Instr) (op : OpCode) (b : Bytes) :
    Except DecodeError Instr :=
  match decData b with
  | some (h, rest) => .ok (mk h.slid h.pkgNum h.rssi rest)
  | none => .error (.shortHeader op)

/-- A command without operands. -/
def bareCommand (i : Instr) (code : Byte) (args : Bytes) : Except DecodeError Instr :=
  match args with
  | [] => .ok i
  | _ :: _ => .error (.badOperands code)

/-- Operands of CFG_LOAD: 0 for `rec = none`, or 1 and the record. -/
def decodeCfgLoad (args : Bytes) : Except DecodeError Instr :=
  match args with
  | f :: record =>
    if f = 1 then .ok (.cfgLoad (some record))
    else if f = 0 ∧ record = [] then .ok (.cfgLoad none)
    else .error (.badOperands 1)
  | [] => .error (.badOperands 1)

/-- Operands of SEND: op, slid, rssi, now, then the payload. -/
def decodeSend (args : Bytes) : Except DecodeError Instr :=
  match args with
  | op :: s0 :: s1 :: s2 :: s3 :: rssi :: n0 :: n1 :: n2 :: n3 :: payload =>
    .ok (.send op (fromLe32 s0 s1 s2 s3) payload rssi (fromLe32 n0 n1 n2 n3))
  | _ => .error (.badOperands 3)

/-- Operand of TICK: now. -/
def decodeTick (args : Bytes) : Except DecodeError Instr :=
  match args with
  | [n0, n1, n2, n3] => .ok (.tick (fromLe32 n0 n1 n2 n3))
  | _ => .error (.badOperands 4)

/-- Operands of FWD: to, then the port-form frame. -/
def decodeFwd (args : Bytes) : Except DecodeError Instr :=
  match args with
  | t0 :: t1 :: t2 :: t3 :: raw => .ok (.fwd raw (fromLe32 t0 t1 t2 t3))
  | _ => .error (.badOperands 6)

/-- A message whose first byte is not a command code: a frame, told by its op-code (R113, and the
`match` and `format` columns of spec/opcode_table.json). -/
def decodeFrame (op : OpCode) (b : Bytes) : Except DecodeError Instr :=
  if op = 0x30 then wireCtrl .wireDN op b
  else if op = 0x31 then wireData .wireDS op b
  else if op = 0x32 then wireCtrl .wireBN op b
  else if op = 0x33 then wireData .wireBS op b
  else if op = 0x34 then wireCtrl .wireX34 op b
  else if op = 0x35 then wireData .wireX35 op b
  else if op = 0x36 then wireCtrl .wireX36 op b
  else if op = 0x37 then wireData .wireX37 op b
  else if op = 0x38 then wireCtrl .wireSC op b
  else if op = 0x39 then wireData .wireOF op b
  else if op = 0x3A then wireCtrl .wireX3A op b
  else if op = 0x3B then wireData .wireX3B op b
  else if op = 0x3C then wireCtrl .wireAS op b
  else if op = 0x3D then wireData .wireX3D op b
  else if op = 0x3E then wireCtrl .wireAN op b
  else if op = 0x3F then wireData .wireX3F op b
  else .error (.unknownCode op)

/-- The decoder, total on byte strings (command codes: R120). -/
def decode (m : Bytes) : Except DecodeError Instr :=
  match m with
  | [] => .error .emptyMessage
  | c :: args =>
    if c = 0 then bareCommand .reset c args
    else if c = 1 then decodeCfgLoad args
    else if c = 2 then .ok (.rx args)
    else if c = 3 then decodeSend args
    else if c = 4 then decodeTick args
    else if c = 5 then .ok (.cancel (fromLeNat args))
    else if c = 6 then decodeFwd args
    else if c = 7 then bareCommand .cancelAll c args
    else decodeFrame c m

/-! ### The encoder -/

/-- The value that opcode_table.json matches on: byte 0 of the frame, or the command code. -/
def Instr.code : Instr → Byte
  | .wireDN _ _ _ => 0x30
  | .wireDS _ _ _ _ => 0x31
  | .wireBN _ _ _ => 0x32
  | .wireBS _ _ _ _ => 0x33
  | .wireX34 _ _ _ => 0x34
  | .wireX35 _ _ _ _ => 0x35
  | .wireX36 _ _ _ => 0x36
  | .wireX37 _ _ _ _ => 0x37
  | .wireSC _ _ _ => 0x38
  | .wireOF _ _ _ _ => 0x39
  | .wireX3A _ _ _ => 0x3A
  | .wireX3B _ _ _ _ => 0x3B
  | .wireAS _ _ _ => 0x3C
  | .wireX3D _ _ _ _ => 0x3D
  | .wireAN _ _ _ => 0x3E
  | .wireX3F _ _ _ _ => 0x3F
  | .reset => 0
  | .cfgLoad _ => 1
  | .rx _ => 2
  | .send _ _ _ _ _ => 3
  | .tick _ => 4
  | .cancel _ => 5
  | .fwd _ _ => 6
  | .cancelAll => 7

/-- The message of an instruction: its frame (R180 to R195) or its command code and operands. -/
def encode : Instr → Bytes
  | .wireDN slid pkg payload => ctrlFrame 0x30 slid pkg payload
  | .wireDS slid pkg rssi payload => dataFrame 0x31 slid pkg rssi payload
  | .wireBN slid pkg body => ctrlFrame 0x32 slid pkg body
  | .wireBS slid pkg rssi body => dataFrame 0x33 slid pkg rssi body
  | .wireX34 slid pkg payload => ctrlFrame 0x34 slid pkg payload
  | .wireX35 slid pkg rssi payload => dataFrame 0x35 slid pkg rssi payload
  | .wireX36 slid pkg payload => ctrlFrame 0x36 slid pkg payload
  | .wireX37 slid pkg rssi payload => dataFrame 0x37 slid pkg rssi payload
  | .wireSC slid pkg payload => ctrlFrame 0x38 slid pkg payload
  | .wireOF slid pkg rssi payload => dataFrame 0x39 slid pkg rssi payload
  | .wireX3A slid pkg payload => ctrlFrame 0x3A slid pkg payload
  | .wireX3B slid pkg rssi payload => dataFrame 0x3B slid pkg rssi payload
  | .wireAS slid pkg payload => ctrlFrame 0x3C slid pkg payload
  | .wireX3D slid pkg rssi payload => dataFrame 0x3D slid pkg rssi payload
  | .wireAN slid pkg payload => ctrlFrame 0x3E slid pkg payload
  | .wireX3F slid pkg rssi payload => dataFrame 0x3F slid pkg rssi payload
  | .reset => [0]
  | .cfgLoad none => [1, 0]
  | .cfgLoad (some record) => [1, 1] ++ record
  | .rx frame => [2] ++ frame
  | .send op slid payload rssi now => [3, op] ++ le32 slid ++ [rssi] ++ le32 now ++ payload
  | .tick now => [4] ++ le32 now
  | .cancel h => [5] ++ leNat h
  | .fwd raw dest => [6] ++ le32 dest ++ raw
  | .cancelAll => [7]

/-! ### A row of the opcode table as a message -/

/-- `n` bytes of a number, least significant first. -/
def numberBytes : Nat → Nat → Bytes
  | 0, _ => []
  | n + 1, w => BitVec.ofNat 8 w :: numberBytes n (w / 256)

/-- The length in bytes of the instruction with code `c` whose operands are all zero and whose
variable part is the shortest its row of opcode_table.json admits: SC has 60 payload bytes, AS and AN
have one, BN and BS hold `to_slid` and an inner header of 7 bytes. -/
def fixedLength (c : Byte) : Nat :=
  if c = 0x32 then 18
  else if c = 0x33 then 19
  else if c = 0x38 then 67
  else if c = 0x3C then 8
  else if c = 0x3E then 8
  else if 0x30 ≤ c.toNat ∧ c.toNat ≤ 0x3F then (if c.toNat % 2 = 1 then 8 else 7)
  else if c = 1 then 2
  else if c = 3 then 11
  else if c = 4 then 5
  else if c = 6 then 5
  else 1

/-- The message whose first `nbits` bits are `w` and whose further bits are zero. -/
def tableMessage (nbits w : Nat) : Bytes :=
  match numberBytes (nbits / 8) w with
  | [] => []
  | c :: rest => (c :: rest) ++ List.replicate (fixedLength c - (rest.length + 1)) 0

/-- The instruction the decoder reads from an opcode-table word. -/
def decodeTableWord (nbits w : Nat) : Option Instr :=
  match decode (tableMessage nbits w) with
  | .ok i => some i
  | .error _ => none

end Sys2Proof
end

