-- ==== Sys2Proof/Machine/Optab.lean ====
section
/-! DEFINITION. The default content of the op-code table (spec/41_optab_wireops.md R173) and the
configuration of a machine after reset. -/

namespace Sys2Proof.Machine

/-- A placeholder row of R173 (X34 to X3F) and OF: class Admin, not reliable, no check. -/
def adminRow (k : HeaderKind) (dir : Direction) : Descriptor :=
  { direction := dir, headerKind := k, reliabilityRequired := false, replyOp := none,
    opClass := .admin, explen := none, vercheck := false }

/-- A bridge row of R173: not reliable, no check. -/
def bridgeRow (k : HeaderKind) (dir : Direction) : Descriptor :=
  { direction := dir, headerKind := k, reliabilityRequired := false, replyOp := none,
    opClass := .bridge, explen := none, vercheck := false }

/-- An ack row of R173: control kind, one payload byte. -/
def ackRow (dir : Direction) : Descriptor :=
  { direction := dir, headerKind := .control, reliabilityRequired := false, replyOp := none,
    opClass := .ack, explen := some 1, vercheck := false }

/-- A reliable application row of R173. -/
def appRow (k : HeaderKind) (dir : Direction) (reply : OpCode) : Descriptor :=
  { direction := dir, headerKind := k, reliabilityRequired := true, replyOp := some reply,
    opClass := .app, explen := none, vercheck := false }

/-- The SC row of R173: reliable, 60 payload bytes, version-checked. -/
def scRow : Descriptor :=
  { direction := .storeToNode, headerKind := .control, reliabilityRequired := true,
    replyOp := some 0x3C, opClass := .admin, explen := some 60, vercheck := true }

/-- The default OPTAB (R173), in the order of the ops 0x30 to 0x3F. -/
def defaultOptab : List Descriptor :=
  [ appRow .control .storeToNode 0x3C,   -- 0x30 DN
    appRow .data .nodeToStore 0x3E,      -- 0x31 DS
    bridgeRow .control .storeToNode,     -- 0x32 BN
    bridgeRow .data .nodeToStore,        -- 0x33 BS
    adminRow .control .storeToNode,      -- 0x34 X34
    adminRow .data .nodeToStore,         -- 0x35 X35
    adminRow .control .storeToNode,      -- 0x36 X36
    adminRow .data .nodeToStore,         -- 0x37 X37
    scRow,                               -- 0x38 SC
    adminRow .data .nodeToStore,         -- 0x39 OF
    adminRow .control .storeToNode,      -- 0x3A X3A
    adminRow .data .nodeToStore,         -- 0x3B X3B
    ackRow .nodeToStore,                 -- 0x3C AS
    adminRow .data .nodeToStore,         -- 0x3D X3D
    ackRow .storeToNode,                 -- 0x3E AN
    adminRow .data .nodeToStore ]        -- 0x3F X3F

/-- The BRIDGE_MODE a 2-bit strap value selects (R39); `none` for the reserved value 3, a
configuration that is refused (U9). -/
def bridgeModeOfStrap (v : BitVec 2) : Option BridgeMode :=
  if v = 0 then some .unbridged
  else if v = 1 then some .storeside
  else if v = 2 then some .nodeside
  else none

/-- The 2-bit strap value of a mode (R39). -/
def bridgeModeCode : BridgeMode → BitVec 2
  | .unbridged => 0
  | .storeside => 1
  | .nodeside => 2

/-- The configuration the vectors of spec/95_test_vectors.md assume, in the given mode. -/
def vectorParams (mode : BridgeMode) : Params :=
  { retryMax := 2, ackTimeout := 100, nOut := 2, maxFrame := 80, nodeConfigVersion := 1,
    optab := defaultOptab, bridgeMode := mode, storeSlid := 0x10FF }

/-- The configuration of the machine after reset: the strapped one when it is well formed; a
configuration that is not is refused (U9, U10), and a legal one stands in its place. Since the strapped
one has no body, this is any well-formed configuration whatever. Log entry 2. -/
def resetParams : Params :=
  if Config.strapped.wf then Config.strapped else vectorParams .unbridged

end Sys2Proof.Machine
end

