-- ==== Sys2Proof/Machine/State.lean ====
section
/-! DEFINITION. The whole state of SLC (spec/10_state.md R30) as plain data, the model's own fields
(constant inputs, pending port messages, emitted events, the draw counter), and the state after
reset (R55). -/

namespace Sys2Proof.Machine

/-- The register RUN (R33). The encoding value 3 is never written and has no constructor. -/
inductive RunState where
  | unconfigured
  | running
  | fatal
  deriving DecidableEq, Repr

/-- AckCode (R110). -/
inductive AckCode where
  | success
  | duplicate
  | unexpected
  | versionErr
  | sizeErr
  deriving DecidableEq, Repr

/-- RESULT.status (R37), in the order of its codes 0 to 26. -/
inductive Status where
  | none
  | rxDelivered
  | rxRecognized
  | rxRelayed
  | rxAckMatched
  | rxAckUnmatched
  | rxDuplicate
  | rxSizeErr
  | rxVersionErr
  | errSize
  | errAddr
  | errUnknownOp
  | bridgeInert
  | bridgeRefused
  | sent
  | sentReliable
  | outFull
  | refusedOp
  | tooLong
  | ticked
  | cancelled
  | noEntry
  | cfgOk
  | cfgFatal
  | notRunning
  | refusedState
  | fwdSent
  deriving DecidableEq, Repr

/-- The thirteen exception kinds (R310, R311), in the order of their codes 1 to 13. -/
inductive ExcKind where
  | addressOutOfRange
  | codecSizeError
  | opUnknown
  | ackDuplicate
  | ackUnexpected
  | ackVersionMismatch
  | ackSizeMismatch
  | retriesExhausted
  | configVersionMismatch
  | configNotInitialized
  | ioError
  | frameTooLong
  | bridgeRefused
  deriving DecidableEq, Repr

/-- The five kinds that go through `raise` (R320: codes 1, 2, 3, 12, 13). -/
inductive Raised where
  | outOfRange
  | sizeError
  | unknownOp
  | frameTooLong
  | bridgeRefused
  deriving DecidableEq, Repr

/-- The levels of the logging collaborator (R321). -/
inductive LogLevel where
  | info
  | warn
  | err
  | fatal
  deriving DecidableEq, Repr

/-- The outcome a DONE event reports, with the ack code byte where there is one (R231, R252). -/
inductive DoneOutcome where
  | ackReceived (code : Byte)
  | retriesExhausted
  deriving DecidableEq, Repr

/-- An output event (R17). The length each event carries is the length of its byte string. -/
inductive Event where
  /-- TX(bytes, len), to the radio driver. -/
  | tx (bytes : Bytes)
  /-- DELIVER(payload, len), to the receive callback. -/
  | deliver (payload : Bytes)
  /-- BRIDGE_OUT(raw, len, to_slid), to the bridge callback. -/
  | bridgeOut (raw : Bytes) (dest : Slid)
  /-- DONE(h, outcome, code), to the caller of a reliable send. -/
  | done (h : Nat) (outcome : DoneOutcome)
  /-- LOG(level, what), to the logging collaborator. -/
  | log (level : LogLevel) (what : ExcKind)
  deriving DecidableEq, Repr

/-- The register RESULT (R36). -/
structure Result where
  status : Status := .none
  ack : Option AckCode := none
  exc : Option ExcKind := none
  op : OpCode := 0
  slid : Slid := 0
  pkgNum : PkgNum := 0
  h : Nat := 0
  nResent : Nat := 0
  nFailed : Nat := 0
  ioErr : Bool := false
  deriving DecidableEq, Repr

/-- The fields of an OUT entry in state Sent (R45); `frame` carries its length `len`. -/
structure OutEntry where
  op : OpCode
  slid : Slid
  pkgNum : PkgNum
  replyOp : OpCode
  frame : Bytes
  retries : Nat
  deadline : Clock
  deriving DecidableEq, Repr

/-- One entry of OUT (R44 to R46): its state, and its other fields, which have no value while the
state is Free (R56). -/
inductive OutSlot where
  | free
  | sent (e : OutEntry)
  deriving DecidableEq, Repr

/-- The table SEQ (R42, R43), sparse: the pairs (index, last) of the entries with `valid = 1`, the
indices strictly rising. An entry with `valid = 0` is not listed and has no `last` (R56). -/
abbrev SeqTable := List (Nat × PkgNum)

/-- The state. The first six fields are the spec's (R30); the last four are the model's own. -/
structure State where
  /-- RUN (R33). -/
  run : RunState
  /-- OWN_SLID (R34). -/
  ownSlid : Slid
  /-- TXSEQ (R35). -/
  txSeq : PkgNum
  /-- RESULT (R36 to R38). -/
  result : Result
  /-- SEQ (R42, R43). -/
  seq : SeqTable
  /-- OUT (R44 to R47), indexed by the handle `h`. -/
  out : List OutSlot
  /-- The constant inputs: parameters, straps and OPTAB (R14, R39 to R41, R48). Log entry 2. -/
  params : Params
  /-- The messages the environment has issued and SLC has not yet taken, the next one first (R15,
  R81). Log entry 5. -/
  port : List Bytes
  /-- Every output event emitted so far, the first one first (R17, R82). Log entry 7. -/
  events : List Event
  /-- The number of free values drawn so far. Log entry 3. -/
  draws : Nat
  deriving DecidableEq, Repr

/-- SLC has no fault that stops the machine: every exception of R310 ends one command and leaves a
next state (R320), so no constructor is needed. -/
inductive Fault
  deriving DecidableEq, Repr

/-- Why the model has no next state. -/
inductive Refusal where
  /-- Raised by `exec` for an instruction without a meaning. No arm does so now. Safe. -/
  | notModelled (mnemonic : String)
  /-- Raised by RX, by a wire op and by FWD on a frame longer than MAX_FRAME, which is outside the
  operand domain (R11, U19: refuse). Safe: the spec gives no behaviour there. -/
  | frameOverMaxFrame
  /-- Raised by `step` on a port message that encodes no instruction; no environment issues one
  (log entry 6). Safe. -/
  | undecodable (why : DecodeError)
  deriving DecidableEq, Repr

/-- The machine right after reset (R55). OWN_SLID is unspecified there; the model names the value 0
(DESIGN CHOICE, unsafe, log entry 4). -/
def State.reset : State :=
  { run := .unconfigured
    ownSlid := 0
    txSeq := 0
    result := {}
    seq := []
    out := List.replicate resetParams.nOut .free
    params := resetParams
    port := []
    events := []
    draws := 0 }

end Sys2Proof.Machine
end

