-- ==== Sys2Proof/Machine/Flags.lean ====
section
/-! DEFINITION. The comparisons SLC makes and what it reports in RESULT and LOG. SLC has no condition
codes (spec/10_state.md R36); what stands in their place is the wrap-aware difference (R23), the
AckCode, the status and the exception code. -/

namespace Sys2Proof.Machine

/-- `sdiff16(a, b)`: the difference modulo 2^16 read as a two's-complement integer (R23). -/
def sdiff16 (a b : PkgNum) : Int := (a - b).toInt

/-- `sdiff32(a, b)` (R23). -/
def sdiff32 (a b : Clock) : Int := (a - b).toInt

/-- The numbers of RUN (R33). -/
def runCode : RunState → BitVec 2
  | .unconfigured => 0
  | .running => 1
  | .fatal => 2

/-- The byte of an AckCode on the wire (R110). -/
def ackByte : AckCode → Byte
  | .success => 0
  | .duplicate => 1
  | .unexpected => 2
  | .versionErr => 3
  | .sizeErr => 4

/-- The code of a status (R37). -/
def statusCode : Status → Nat
  | .none => 0
  | .rxDelivered => 1
  | .rxRecognized => 2
  | .rxRelayed => 3
  | .rxAckMatched => 4
  | .rxAckUnmatched => 5
  | .rxDuplicate => 6
  | .rxSizeErr => 7
  | .rxVersionErr => 8
  | .errSize => 9
  | .errAddr => 10
  | .errUnknownOp => 11
  | .bridgeInert => 12
  | .bridgeRefused => 13
  | .sent => 14
  | .sentReliable => 15
  | .outFull => 16
  | .refusedOp => 17
  | .tooLong => 18
  | .ticked => 19
  | .cancelled => 20
  | .noEntry => 21
  | .cfgOk => 22
  | .cfgFatal => 23
  | .notRunning => 24
  | .refusedState => 25
  | .fwdSent => 26

/-- The code of an exception kind (R311). -/
def excCode : ExcKind → Nat
  | .addressOutOfRange => 1
  | .codecSizeError => 2
  | .opUnknown => 3
  | .ackDuplicate => 4
  | .ackUnexpected => 5
  | .ackVersionMismatch => 6
  | .ackSizeMismatch => 7
  | .retriesExhausted => 8
  | .configVersionMismatch => 9
  | .configNotInitialized => 10
  | .ioError => 11
  | .frameTooLong => 12
  | .bridgeRefused => 13

/-- RESULT.exc as a number: the code of the exception, or 0 (R36). -/
def resultExcCode (r : Result) : Nat :=
  match r.exc with
  | some k => excCode k
  | none => 0

/-- The exception kind of a raised exception. -/
def raisedKind : Raised → ExcKind
  | .outOfRange => .addressOutOfRange
  | .sizeError => .codecSizeError
  | .unknownOp => .opUnknown
  | .frameTooLong => .frameTooLong
  | .bridgeRefused => .bridgeRefused

/-- The status a raised exception writes (R311). -/
def raisedStatus : Raised → Status
  | .outOfRange => .errAddr
  | .sizeError => .errSize
  | .unknownOp => .errUnknownOp
  | .frameTooLong => .tooLong
  | .bridgeRefused => .bridgeRefused

/-- The status of a frame of class App or Admin whose AckCode is not SUCCESS (R211 step 10). RX
computes no other AckCode for such a frame. -/
def softStatus : AckCode → Status
  | .sizeErr => .rxSizeErr
  | .versionErr => .rxVersionErr
  | _ => .rxDuplicate

/-- The exception kind an AckCode stands for (R311: the AckError kinds are the AckCodes seen from the
receiver's side). -/
def softKind : AckCode → ExcKind
  | .sizeErr => .ackSizeMismatch
  | .versionErr => .ackVersionMismatch
  | .unexpected => .ackUnexpected
  | _ => .ackDuplicate

end Sys2Proof.Machine
end

