-- ==== Sys2Proof/Machine/Operands.lean ====
section
/-! DEFINITION. The pure operations of SLC: ADDR (spec/40_addr_codec.md R140), OPT (R170), the
kind-directed codec (R149), the SEQ index (R75), the routing (spec/43_bridge.md R270) and the frame
rewriting of BRG (R273 to R279). None reads or writes State. -/

namespace Sys2Proof.Machine

/-- `valid(s)` (R140): the range [0x100, 0x10FF], unsigned. -/
def validSlid (s : Slid) : Bool := decide (0x100 ≤ s.toNat) && decide (s.toNat ≤ 0x10FF)

/-- The SEQ index of a valid SLID (R75). -/
def seqIndex (s : Slid) : Nat := s.toNat - 0x100

/-- OPLOOKUP (R170); `none` is OpError.Unknown. -/
def opLookup (p : Params) (op : OpCode) : Option Descriptor :=
  if 0x30 ≤ op.toNat ∧ op.toNat ≤ 0x3F then p.optab[op.toNat - 0x30]? else none

/-- HLEN (R103). -/
def hlen : HeaderKind → Nat
  | .data => 8
  | .control => 7

/-- A decoded header of either kind; `rssi` is 0 where the kind has none. -/
structure Header where
  op : OpCode
  slid : Slid
  pkgNum : PkgNum
  rssi : Byte
  deriving DecidableEq, Repr

/-- DECODE (R149): header and payload, or `none` for CodecError.SizeError. -/
def decodeKind : HeaderKind → Bytes → Option (Header × Bytes)
  | .data, b => (decData b).map fun x => (⟨x.1.op, x.1.slid, x.1.pkgNum, x.1.rssi⟩, x.2)
  | .control, b => (decCtrl b).map fun x => (⟨x.1.op, x.1.slid, x.1.pkgNum, 0⟩, x.2)

/-- ENCODE (R149): `rssi` is ignored for the control kind. -/
def encodeKind (k : HeaderKind) (op : OpCode) (slid : Slid) (pkg : PkgNum) (rssi : Byte) : Bytes :=
  match k with
  | .data => encData ⟨op, slid, pkg, rssi⟩
  | .control => encCtrl ⟨op, slid, pkg⟩

/-- ROUTE (R270). -/
inductive Route where
  | localLeg
  | relay
  deriving DecidableEq, Repr

/-- ROUTE(d, hdr) (R270): by BRIDGE_MODE and the descriptor's direction, and nothing else. -/
def route (p : Params) (d : Descriptor) : Route :=
  match p.bridgeMode with
  | .unbridged => .localLeg
  | .nodeside => if d.direction = .nodeToStore then .relay else .localLeg
  | .storeside => if d.direction = .storeToNode then .relay else .localLeg

/-- The op of class Bridge with the given direction: BS for NodeToStore, BN for StoreToNode (R172
condition 4). -/
def bridgeOp (p : Params) (dir : Direction) : OpCode :=
  BitVec.ofNat 8
    (0x30 + p.optab.findIdx fun d => decide (d.opClass = .bridge ∧ d.direction = dir))

/-- RELAY_CHECK(n) (R275): `none` when the frame can be relayed. -/
def relayCheck (p : Params) (n : Nat) : Option Raised :=
  match p.bridgeMode with
  | .unbridged => none
  | .nodeside =>
    if validSlid p.storeSlid = false then some .outOfRange
    else if p.maxFrame < n + 12 then some .frameTooLong
    else none
  | .storeside => if p.maxFrame < n + 11 then some .frameTooLong else none

/-- What BRG_RELAY hands to BRIDGE_OUT for a plain frame: the port form and `to_slid` (R273, R274,
R109). An unbridged SLC hands over nothing (R272). -/
def relayOutput (p : Params) (own : Slid) (d : Descriptor) (hdr : Header) (b : Bytes) :
    Option (Bytes × Slid) :=
  match p.bridgeMode with
  | .unbridged => none
  | .nodeside =>
    let r := if d.headerKind = .data then hdr.rssi else 0
    some (encData ⟨bridgeOp p .nodeToStore, own, hdr.pkgNum, r⟩ ++ b, p.storeSlid)
  | .storeside => some (encCtrl ⟨bridgeOp p .storeToNode, own, hdr.pkgNum⟩ ++ b, hdr.slid)

/-- ATTACH(raw, m, H, to) (R277). -/
def attach (raw : Bytes) (hl : Nat) (dest : Slid) : Bytes := raw.take hl ++ le32 dest ++ raw.drop hl

/-- CONSUME(b, n, H) (R277); `none` when `b` is too short to hold a header and `to_slid`. -/
def consume (b : Bytes) (hl : Nat) : Option (Bytes × Slid) :=
  match b.drop hl with
  | t0 :: t1 :: t2 :: t3 :: inner => some (b.take hl ++ inner, fromLe32 t0 t1 t2 t3)
  | _ => none

/-- INNER_CHECK(x, k) (R279): `none` when the inner frame passes. -/
def innerCheck (p : Params) (x : Bytes) : Option Raised :=
  match x with
  | [] => some .sizeError
  | op :: _ =>
    match opLookup p op with
    | none => some .unknownOp
    | some di =>
      match decodeKind di.headerKind x with
      | none => some .sizeError
      | some (ih, _) =>
        if validSlid ih.slid = false then some .outOfRange
        else if di.opClass = .bridge then some .bridgeRefused
        else none

/-- REPLY(d, hdr, code) (R226); `none` only under a table that breaks R172 condition 2. -/
def replyFrame (p : Params) (d : Descriptor) (hdr : Header) (code : AckCode) : Option Bytes :=
  match d.replyOp with
  | none => none
  | some r =>
    match opLookup p r with
    | none => none
    | some dr => some (encodeKind dr.headerKind r hdr.slid hdr.pkgNum 0 ++ [ackByte code])

end Sys2Proof.Machine
end

