-- ==== Sys2Proof/Machine/Ops.lean ====
section
/-! DEFINITION. The shared operations over State: reading and writing SEQ and OUT, emitting an output
event, writing RESULT, raising an exception (spec/60_exceptions.md R320), and the run-state gate
(spec/70_reset_and_hazards.md R356). -/

namespace Sys2Proof.Machine

/-! ### SEQ (R42, R43, R50) -/

/-- What SEQ[i] holds: `none` for `valid = 0`, `some last` for `valid = 1`. -/
def seqRead : SeqTable → Nat → Option PkgNum
  | [], _ => none
  | (j, v) :: t, i => if i = j then some v else seqRead t i

/-- SEQ[i] <- {valid = 1, last = v}, keeping the indices rising. -/
def seqWrite : SeqTable → Nat → PkgNum → SeqTable
  | [], i, v => [(i, v)]
  | (j, w) :: t, i, v =>
    if i < j then (i, v) :: (j, w) :: t
    else if i = j then (i, v) :: t
    else (j, w) :: seqWrite t i v

/-- The canonical form of SEQ from a lowest admissible index on: indices strictly rising, below 4096. -/
def seqWfFrom : Nat → SeqTable → Bool
  | _, [] => true
  | lo, (j, _) :: t => decide (lo ≤ j) && decide (j < 4096) && seqWfFrom (j + 1) t

/-- The canonical form of SEQ. -/
def seqWf (t : SeqTable) : Bool := seqWfFrom 0 t

/-! ### OUT (R44 to R46, R50) -/

/-- Whether a slot's state is Free. -/
def OutSlot.isFree : OutSlot → Bool
  | .free => true
  | .sent _ => false

/-- The lowest index with state Free (R240 step 6). -/
def firstFree (out : List OutSlot) : Option Nat := out.findIdx? OutSlot.isFree

/-- Whether a slot holds the send that an ack frame names: Sent, with the header's `slid`, `pkg_num`
and, as `reply_op`, its op (R230). -/
def ackMatches (hdr : Header) : OutSlot → Bool
  | .free => false
  | .sent e => decide (e.slid = hdr.slid ∧ e.pkgNum = hdr.pkgNum ∧ e.replyOp = hdr.op)

/-- The lowest index that an ack frame matches (R230). -/
def firstMatch (hdr : Header) (out : List OutSlot) : Option Nat := out.findIdx? (ackMatches hdr)

/-! ### Events and RESULT -/

/-- Whether an event is a TX, which draws one `io_ok` bit (R18). -/
def Event.isTx : Event → Bool
  | .tx _ => true
  | _ => false

/-- `emit` (R24): append the event. A TX draws its `io_ok`; when it is false, RESULT.io_err is set and
nothing else changes (R322). -/
def emit (e : Event) (s : State) : State :=
  { s with
    events := s.events ++ [e]
    draws := if e.isTx then s.draws + 1 else s.draws
    result := { s.result with
      ioErr := s.result.ioErr || (e.isTx && !Config.ioOk s.draws) } }

/-- Emit several events in order. -/
def emitAll : List Event → State → State
  | [], s => s
  | e :: es, s => emitAll es (emit e s)

/-- RESULT <- r at the end of a command: every field as `r` has it, but `io_err`, which tells what the
TX events of this command drew (R36). -/
def setResult (r : Result) (s : State) : State :=
  { s with result := { r with ioErr := s.result.ioErr } }

/-! ### Exceptions (R320, R321) -/

/-- LOG level of a kind (R321). -/
def logLevel : ExcKind → LogLevel
  | .addressOutOfRange => .warn
  | .codecSizeError => .warn
  | .opUnknown => .warn
  | .frameTooLong => .warn
  | .bridgeRefused => .warn
  | .configVersionMismatch => .fatal
  | .configNotInitialized => .fatal
  | .ackDuplicate => .info
  | .ackUnexpected => .info
  | .ackVersionMismatch => .info
  | .ackSizeMismatch => .info
  | .retriesExhausted => .info
  | .ioError => .info

/-- `raise K(info)` (R320), the one way an exception ends a command: RESULT takes the status and code
of K beside what `info` has of op, slid, pkg_num and ack, and LOG tells of it. Every `raise` stands
before the first state write and the first `emit` of its command, so there is nothing to discard;
nothing is saved and nothing returns (R330). -/
def raise (k : Raised) (info : Result) (s : State) : State :=
  emit (.log (logLevel (raisedKind k)) (raisedKind k))
    (setResult { info with status := raisedStatus k, exc := some (raisedKind k) } s)

/-- The LOG of a condition that is not raised (R315 to R319, R321). -/
def logSoft (k : ExcKind) (s : State) : State := emit (.log (logLevel k) k) s

/-! ### The run-state gate (R356) -/

/-- A command that acts only in Running: elsewhere RESULT becomes NOT_RUNNING and nothing else
changes. RESULT is overwritten entirely by every command (R36), so it starts from all fields 0. -/
def whenRunning (act : State → Host.Outcome State Fault Refusal) (s : State) :
    Host.Outcome State Fault Refusal :=
  match s.run with
  | .running => act { s with result := {} }
  | _ => .next { s with result := { status := .notRunning } }

/-- The operand domain of RX and FWD: a frame of at most MAX_FRAME bytes (R11, U19). -/
def withinMaxFrame (b : Bytes) (act : State → State) (s : State) :
    Host.Outcome State Fault Refusal :=
  if s.params.maxFrame < b.length then .refused .frameOverMaxFrame else .next (act s)

end Sys2Proof.Machine
end

