-- ==== Sys2Proof/Machine/Sender.lean ====
section
/-! DEFINITION. The sending side of ACK (spec/42_ackengine.md R240 to R262): SEND, TICK, CANCEL and
CANCEL_ALL. -/

namespace Sys2Proof.Machine

/-! ### SEND -/

/-- The OUT entry a reliable SEND creates (R240 step 10). -/
def newEntry (p : Params) (d : Descriptor) (op : OpCode) (slid : Slid) (pkg : PkgNum) (f : Bytes)
    (now : Clock) : OutEntry :=
  { op := op, slid := slid, pkgNum := pkg, replyOp := d.replyOp.getD 0, frame := f, retries := 0,
    deadline := now + BitVec.ofNat 32 p.ackTimeout }

/-- SEND steps 7 to 10 (R240): number the frame, transmit it, and, for a reliable op, keep it in the
entry `h`. -/
def transmit (d : Descriptor) (op : OpCode) (slid : Slid) (payload : Bytes) (rssi : Byte)
    (now : Clock) (slot : Option Nat) (s : State) : State :=
  let pkg := s.txSeq + 1
  let f := encodeKind d.headerKind op slid pkg rssi ++ payload
  let sentState := emit (.tx f) { s with txSeq := pkg }
  match slot with
  | some h =>
    setResult { status := .sentReliable, h := h, op := op, slid := slid, pkgNum := pkg }
      { sentState with out := s.out.set h (.sent (newEntry s.params d op slid pkg f now)) }
  | none => setResult { status := .sent, op := op, slid := slid, pkgNum := pkg } sentState

/-- SEND steps 2 to 10 (R240). -/
def sendRun (op : OpCode) (slid : Slid) (payload : Bytes) (rssi : Byte) (now : Clock) (s : State) :
    State :=
  match opLookup s.params op with
  | none => raise .unknownOp { op := op } s
  | some d =>
    if d.opClass = .ack ∨ d.opClass = .bridge then setResult { status := .refusedOp, op := op } s
    else if validSlid slid = false then raise .outOfRange { op := op, slid := slid } s
    else if s.params.maxFrame < hlen d.headerKind + payload.length then
      setResult { status := .tooLong } s
    else if d.reliabilityRequired then
      match firstFree s.out with
      | none => setResult { status := .outFull } s
      | some h => transmit d op slid payload rssi now (some h) s
    else transmit d op slid payload rssi now none s

/-- SEND(op, slid, payload, plen, rssi, now) (R240). -/
def execSend (op : OpCode) (slid : Slid) (payload : Bytes) (rssi : Byte) (now : Clock) (s : State) :
    Host.Outcome State Fault Refusal :=
  whenRunning (fun r => .next (sendRun op slid payload rssi now r)) s

/-! ### TICK -/

/-- What TICK does with one OUT entry. -/
inductive TickAction where
  | keep
  | resend
  | fail
  deriving DecidableEq, Repr

/-- The action TICK takes on an entry (R250 to R252): a Sent entry whose deadline is reached is
re-sent below RETRY_MAX and failed at it; every other entry is kept. -/
def tickAction (p : Params) (now : Clock) : OutSlot → TickAction
  | .free => .keep
  | .sent e =>
    if 0 ≤ sdiff32 now e.deadline then (if e.retries < p.retryMax then .resend else .fail) else .keep

/-- The entry after TICK (R251, R252). -/
def tickSlot (p : Params) (now : Clock) (slot : OutSlot) : OutSlot :=
  match slot, tickAction p now slot with
  | .sent e, .resend =>
    .sent { e with retries := e.retries + 1, deadline := now + BitVec.ofNat 32 p.ackTimeout }
  | .sent _, .fail => .free
  | slot, _ => slot

/-- The events TICK emits for the entry with handle `h` (R251, R252). -/
def tickEvents (p : Params) (now : Clock) (h : Nat) (slot : OutSlot) : List Event :=
  match slot, tickAction p now slot with
  | .sent e, .resend => [.tx e.frame]
  | .sent _, .fail =>
    [.done h .retriesExhausted, .log (logLevel .retriesExhausted) .retriesExhausted]
  | _, _ => []

/-- The events of the scan, in ascending handle order from `h` on (R250 step 3). -/
def tickScan (p : Params) (now : Clock) : Nat → List OutSlot → List Event
  | _, [] => []
  | h, slot :: rest => tickEvents p now h slot ++ tickScan p now (h + 1) rest

/-- How many entries TICK takes an action on. -/
def tickCount (p : Params) (now : Clock) (a : TickAction) (out : List OutSlot) : Nat :=
  out.countP fun slot => decide (tickAction p now slot = a)

/-- TICK steps 2 to 4 (R250). -/
def tickRun (now : Clock) (s : State) : State :=
  setResult
    { status := .ticked, nResent := tickCount s.params now .resend s.out,
      nFailed := tickCount s.params now .fail s.out }
    (emitAll (tickScan s.params now 0 s.out) { s with out := s.out.map (tickSlot s.params now) })

/-- TICK(now) (R250). -/
def execTick (now : Clock) (s : State) : Host.Outcome State Fault Refusal :=
  whenRunning (fun r => .next (tickRun now r)) s

/-! ### CANCEL and CANCEL_ALL -/

/-- CANCEL steps 2 and 3 (R260). -/
def cancelRun (h : Nat) (s : State) : State :=
  match s.out[h]? with
  | some (.sent _) => setResult { status := .cancelled, h := h } { s with out := s.out.set h .free }
  | some .free => setResult { status := .noEntry, h := h } s
  | none => setResult { status := .noEntry, h := h } s

/-- CANCEL(h) (R260). -/
def execCancel (h : Nat) (s : State) : Host.Outcome State Fault Refusal :=
  whenRunning (fun r => .next (cancelRun h r)) s

/-- CANCEL_ALL (R261): every entry Free; `n_failed` is the number of entries that were Sent. -/
def cancelAllRun (s : State) : State :=
  setResult { status := .cancelled, nFailed := s.out.countP fun slot => !slot.isFree }
    { s with out := s.out.map fun _ => .free }

/-- CANCEL_ALL() (R261). -/
def execCancelAll (s : State) : Host.Outcome State Fault Refusal :=
  whenRunning (fun r => .next (cancelAllRun r)) s

end Sys2Proof.Machine
end

