-- ==== Sys2Proof/Machine/System.lean ====
section
/-! DEFINITION. RESET and CFG_LOAD (spec/70_reset_and_hazards.md R350 to R356). -/

namespace Sys2Proof.Machine

/-- RESET() (R350), in every run state, without an event. OWN_SLID becomes unspecified: a free value
is drawn (log entry 4). The `last` of an entry that is not valid and the fields of a Free entry are
not held at all. -/
def execReset (s : State) : Host.Outcome State Fault Refusal :=
  .next { s with
    run := .unconfigured
    ownSlid := Config.unspecifiedSlid s.draws
    draws := s.draws + 1
    txSeq := 0
    seq := []
    out := List.replicate s.params.nOut .free
    result := {} }

/-- A CFG_LOAD that finds the record unusable (R352 steps 2 to 4, R323, R324): RUN becomes Fatal and
OWN_SLID is not written. -/
def cfgFatal (k : ExcKind) (slid : Slid) (s : State) : State :=
  { s with
    run := .fatal
    result := { status := .cfgFatal, exc := some k, slid := slid }
    events := s.events ++ [.log .fatal k] }

/-- CFG_LOAD steps 3 to 5 (R352, R353), on a record that holds its first five bytes. -/
def cfgRecord (version s0 s1 s2 s3 : Byte) (s : State) : State :=
  let slid := fromLe32 s0 s1 s2 s3
  if version ≠ s.params.nodeConfigVersion then cfgFatal .configVersionMismatch 0 s
  else if validSlid slid = false then cfgFatal .addressOutOfRange slid s
  else { s with ownSlid := slid, run := .running, result := { status := .cfgOk, slid := slid } }

/-- CFG_LOAD steps 2 to 5 (R352): a record that is absent or shorter than five bytes counts as not
present (R324). -/
def cfgLoadRun (record : Option Bytes) (s : State) : State :=
  match record with
  | some (version :: s0 :: s1 :: s2 :: s3 :: _) => cfgRecord version s0 s1 s2 s3 s
  | _ => cfgFatal .configNotInitialized 0 s

/-- CFG_LOAD(rec) (R352): it acts only in Unconfigured. -/
def execCfgLoad (record : Option Bytes) (s : State) : Host.Outcome State Fault Refusal :=
  match s.run with
  | .unconfigured => .next (cfgLoadRun record s)
  | _ => .next { s with result := { status := .refusedState } }

end Sys2Proof.Machine
end

