-- ==== Sys2Proof/Machine/Bridge.lean ====
section
/-! DEFINITION. BRG, the bridge router and packet rewriter (spec/43_bridge.md): relaying a plain frame,
bridge frames arriving on RX, and the command FWD. -/

namespace Sys2Proof.Machine

/-- The op, slid and pkg_num of a decoded header as RESULT reports them. -/
def headerInfo (hdr : Header) : Result :=
  { op := hdr.op, slid := hdr.slid, pkgNum := hdr.pkgNum }

/-- BRG_RELAY (R273, R274): RELAY_CHECK, then BRIDGE_OUT; `info` is what RESULT reports so far. ROUTE
never answers Relay at an unbridged SLC, so its branch is not reached (R272). -/
def brgRelay (d : Descriptor) (hdr : Header) (b : Bytes) (info : Result) (s : State) : State :=
  match relayCheck s.params b.length with
  | some k => raise k (headerInfo hdr) s
  | none =>
    match relayOutput s.params s.ownSlid d hdr b with
    | none => setResult { info with status := .bridgeInert } s
    | some (raw, dest) => setResult { info with status := .rxRelayed } (emit (.bridgeOut raw dest) s)

/-- CONSUME_AND_RELAY (R278): a wire-form bridge frame becomes the port form on BRIDGE_OUT. -/
def consumeAndRelay (d : Descriptor) (hdr : Header) (b : Bytes) (s : State) : State :=
  if b.length < hlen d.headerKind + 4 + 7 then raise .sizeError (headerInfo hdr) s
  else
    match consume b (hlen d.headerKind) with
    | none => raise .sizeError (headerInfo hdr) s
    | some (raw, dest) =>
      if validSlid dest = false then raise .outOfRange (headerInfo hdr) s
      else
        match innerCheck s.params (raw.drop (hlen d.headerKind)) with
        | some .unknownOp =>
          raise .unknownOp { headerInfo hdr with ack := some .unexpected } s
        | some k => raise k (headerInfo hdr) s
        | none =>
          setResult { headerInfo hdr with status := .rxRelayed } (emit (.bridgeOut raw dest) s)

/-- BRG_RX (R276): only a node-bound bridge frame at a storeside SLC goes further. -/
def brgRx (d : Descriptor) (hdr : Header) (b : Bytes) (s : State) : State :=
  match s.params.bridgeMode with
  | .unbridged => setResult { headerInfo hdr with status := .bridgeInert } s
  | .nodeside => setResult { headerInfo hdr with status := .bridgeRefused } s
  | .storeside =>
    if d.direction = .storeToNode then consumeAndRelay d hdr b s
    else setResult { headerInfo hdr with status := .bridgeRefused } s

/-- The direction of the bridge frames FWD accepts (R285 step 5). -/
def fwdDirection : BridgeMode → Option Direction
  | .unbridged => none
  | .nodeside => some .storeToNode
  | .storeside => some .nodeToStore

/-- FWD step 9 (R286, R287): unwrap at a nodeside SLC, attach `to_slid` at a storeside one. -/
def fwdTransmit (raw inner : Bytes) (hl : Nat) (dest : Slid) (hdr : Header) (s : State) : State :=
  match s.params.bridgeMode with
  | .nodeside => setResult { headerInfo hdr with status := .fwdSent } (emit (.tx inner) s)
  | _ =>
    if s.params.maxFrame < raw.length + 4 then raise .frameTooLong (headerInfo hdr) s
    else
      setResult { headerInfo hdr with status := .fwdSent } (emit (.tx (attach raw hl dest)) s)

/-- FWD steps 3 to 9 (R285). -/
def fwdRun (raw : Bytes) (dest : Slid) (s : State) : State :=
  match raw with
  | [] => raise .sizeError {} s
  | op :: _ =>
    match opLookup s.params op with
    | none => raise .unknownOp { op := op } s
    | some d =>
      if d.opClass ≠ .bridge ∨ fwdDirection s.params.bridgeMode ≠ some d.direction then
        setResult { status := .bridgeRefused, op := op } s
      else if raw.length < hlen d.headerKind + 7 then raise .sizeError { op := op } s
      else
        match decodeKind d.headerKind raw with
        | none => raise .sizeError { op := op } s
        | some (hdr, inner) =>
          if validSlid hdr.slid = false then raise .outOfRange (headerInfo hdr) s
          else if validSlid dest = false then raise .outOfRange (headerInfo hdr) s
          else
            match innerCheck s.params inner with
            | some k => raise k (headerInfo hdr) s
            | none => fwdTransmit raw inner (hlen d.headerKind) dest hdr s

/-- FWD step 2, then the operand domain, then the steps of `fwdRun` (R285). An unbridged SLC refuses
every FWD, whatever its frame (R272). -/
def fwdGate (raw : Bytes) (dest : Slid) (s : State) : Host.Outcome State Fault Refusal :=
  match s.params.bridgeMode with
  | .unbridged => .next (setResult { status := .bridgeInert } s)
  | _ => withinMaxFrame raw (fwdRun raw dest) s

/-- FWD(raw, m, to) (R285). -/
def execFwd (raw : Bytes) (dest : Slid) (s : State) : Host.Outcome State Fault Refusal :=
  whenRunning (fwdGate raw dest) s

end Sys2Proof.Machine
end

