-- ==== Sys2Proof/Machine/Receive.lean ====
section
/-! DEFINITION. The receive pipeline (spec/42_ackengine.md R210 to R233): the sequence check, the size
and version checks, the reply, ack frames, and the command RX. -/

namespace Sys2Proof.Machine

/-- Whether the sequence check finds the frame new (R220, R221). -/
def seqNew (t : SeqTable) (slid : Slid) (pkg : PkgNum) : Bool :=
  match seqRead t (seqIndex slid) with
  | none => true
  | some last => decide (0 < sdiff16 pkg last)

/-- What SEQCHECK leaves in SEQ (R220): the entry advances exactly when the frame is new. -/
def seqAdvance (t : SeqTable) (slid : Slid) (pkg : PkgNum) : SeqTable :=
  if seqNew t slid pkg then seqWrite t (seqIndex slid) pkg else t

/-- The size check (R222): the descriptor gives an expected length and the payload has another. -/
def sizeWrong (d : Descriptor) (payload : Bytes) : Bool :=
  match d.explen with
  | none => false
  | some n => decide (payload.length ≠ n)

/-- The version check (R223): the first payload byte is not NODE_CONFIG_VERSION. It follows the size
check, so the byte is there (R172 condition 5). -/
def versionWrong (p : Params) (d : Descriptor) (payload : Bytes) : Bool :=
  d.vercheck && decide (payload.head? ≠ some p.nodeConfigVersion)

/-- The AckCode of RX step 8: sequence (R220), then size (R222), then version (R223); the first that
fails. -/
def rxCode (p : Params) (t : SeqTable) (d : Descriptor) (hdr : Header) (payload : Bytes) : AckCode :=
  if seqNew t hdr.slid hdr.pkgNum = false then .duplicate
  else if sizeWrong d payload then .sizeErr
  else if versionWrong p d payload then .versionErr
  else .success

/-- RX step 9 (R225): the reply frame of a reliable op, whatever the code. -/
def emitReply (d : Descriptor) (hdr : Header) (code : AckCode) (s : State) : State :=
  if d.reliabilityRequired then
    match replyFrame s.params d hdr code with
    | some f => emit (.tx f) s
    | none => s
  else s

/-- RX step 10 (R211, R227, R283): drop, relay, deliver or recognize. -/
def rxFinish (d : Descriptor) (hdr : Header) (payload b : Bytes) (code : AckCode) (s : State) : State :=
  let info := { headerInfo hdr with ack := some code }
  if code ≠ .success then
    setResult { info with status := softStatus code } (logSoft (softKind code) s)
  else if route s.params d = .relay then brgRelay d hdr b info s
  else if d.opClass = .app then
    setResult { info with status := .rxDelivered } (emit (.deliver payload) s)
  else setResult { info with status := .rxRecognized } s

/-- RX steps 7a to 10, for a frame of class App or Admin (R211). -/
def rxPlain (d : Descriptor) (hdr : Header) (payload b : Bytes) (s : State) : State :=
  match (if route s.params d = .relay then relayCheck s.params b.length else none) with
  | some k => raise k (headerInfo hdr) s
  | none =>
    let code := rxCode s.params s.seq d hdr payload
    rxFinish d hdr payload b code
      (emitReply d hdr code { s with seq := seqAdvance s.seq hdr.slid hdr.pkgNum })

/-- ACK_RX (R230): a well-sized ack closes the send it matches; one that matches none is relayed or
dropped. -/
def ackRx (d : Descriptor) (hdr : Header) (payload b : Bytes) (s : State) : State :=
  match payload with
  | [code] =>
    match firstMatch hdr s.out with
    | some h =>
      setResult { headerInfo hdr with status := .rxAckMatched, h := h }
        (emit (.done h (.ackReceived code)) { s with out := s.out.set h .free })
    | none =>
      if route s.params d = .relay then brgRelay d hdr b (headerInfo hdr) s
      else
        setResult { headerInfo hdr with status := .rxAckUnmatched, ack := some .unexpected }
          (logSoft .ackUnexpected s)
  | _ =>
    setResult { headerInfo hdr with status := .rxSizeErr, ack := some .sizeErr }
      (logSoft .ackSizeMismatch s)

/-- RX step 7 (R216): dispatch on the descriptor's class and on nothing else. -/
def rxDispatch (d : Descriptor) (hdr : Header) (payload b : Bytes) (s : State) : State :=
  match d.opClass with
  | .bridge => brgRx d hdr b s
  | .ack => ackRx d hdr payload b s
  | .app => rxPlain d hdr payload b s
  | .admin => rxPlain d hdr payload b s

/-- RX steps 2 to 10 (R211): empty frame (R212), unknown op (R213), short header (R214), header `slid`
(R215), then the dispatch. -/
def rxRun (b : Bytes) (s : State) : State :=
  match b with
  | [] => raise .sizeError {} s
  | op :: _ =>
    match opLookup s.params op with
    | none => raise .unknownOp { op := op, ack := some .unexpected } s
    | some d =>
      match decodeKind d.headerKind b with
      | none => raise .sizeError { op := op } s
      | some (hdr, payload) =>
        if validSlid hdr.slid = false then raise .outOfRange (headerInfo hdr) s
        else rxDispatch d hdr payload b s

/-- The arrival of a frame on leg L: the run-state gate, the operand domain, the pipeline (R210). -/
def receive (b : Bytes) (s : State) : Host.Outcome State Fault Refusal :=
  whenRunning (withinMaxFrame b (rxRun b)) s

/-- RX(b, n) (R210). -/
def execRx (b : Bytes) (s : State) : Host.Outcome State Fault Refusal := receive b s

end Sys2Proof.Machine
end

