-- ==== Sys2Proof/Machine/WireOps.lean ====
section
/-! DEFINITION. The sixteen wire ops (spec/41_optab_wireops.md R180 to R195): what SLC does when a
frame with that op arrives on leg L. Each is the receive pipeline on the frame of its operands; what
tells them apart is the op's descriptor in OPTAB and nothing else (R113, R216). -/

namespace Sys2Proof.Machine

/-- DN, 0x30 (R180): data to a node: acknowledged by AS, then delivered or relayed. -/
def execDN (slid : Slid) (pkg : PkgNum) (payload : Bytes) (s : State) :
    Host.Outcome State Fault Refusal :=
  receive (ctrlFrame 0x30 slid pkg payload) s

/-- DS, 0x31 (R181): data to the store: acknowledged by AN, then delivered or relayed. -/
def execDS (slid : Slid) (pkg : PkgNum) (rssi : Byte) (payload : Bytes) (s : State) :
    Host.Outcome State Fault Refusal :=
  receive (dataFrame 0x31 slid pkg rssi payload) s

/-- BN, 0x32 (R182): a bridge frame toward a node, in wire form. -/
def execBN (slid : Slid) (pkg : PkgNum) (body : Bytes) (s : State) :
    Host.Outcome State Fault Refusal :=
  receive (ctrlFrame 0x32 slid pkg body) s

/-- BS, 0x33 (R183): a bridge frame toward the store, in wire form. -/
def execBS (slid : Slid) (pkg : PkgNum) (rssi : Byte) (body : Bytes) (s : State) :
    Host.Outcome State Fault Refusal :=
  receive (dataFrame 0x33 slid pkg rssi body) s

/-- X34, 0x34 (R184): recognized or relayed, never answered. -/
def execX34 (slid : Slid) (pkg : PkgNum) (payload : Bytes) (s : State) :
    Host.Outcome State Fault Refusal :=
  receive (ctrlFrame 0x34 slid pkg payload) s

/-- X35, 0x35 (R185): recognized or relayed, never answered. -/
def execX35 (slid : Slid) (pkg : PkgNum) (rssi : Byte) (payload : Bytes) (s : State) :
    Host.Outcome State Fault Refusal :=
  receive (dataFrame 0x35 slid pkg rssi payload) s

/-- X36, 0x36 (R186): exactly as X34. -/
def execX36 (slid : Slid) (pkg : PkgNum) (payload : Bytes) (s : State) :
    Host.Outcome State Fault Refusal :=
  receive (ctrlFrame 0x36 slid pkg payload) s

/-- X37, 0x37 (R187): exactly as X35. -/
def execX37 (slid : Slid) (pkg : PkgNum) (rssi : Byte) (payload : Bytes) (s : State) :
    Host.Outcome State Fault Refusal :=
  receive (dataFrame 0x37 slid pkg rssi payload) s

/-- SC, 0x38 (R188): an administrative configuration command: size- and version-checked, acknowledged by AS, not applied. -/
def execSC (slid : Slid) (pkg : PkgNum) (payload : Bytes) (s : State) :
    Host.Outcome State Fault Refusal :=
  receive (ctrlFrame 0x38 slid pkg payload) s

/-- OF, 0x39 (R189): exactly as X35; the offline time is not read. -/
def execOF (slid : Slid) (pkg : PkgNum) (rssi : Byte) (payload : Bytes) (s : State) :
    Host.Outcome State Fault Refusal :=
  receive (dataFrame 0x39 slid pkg rssi payload) s

/-- X3A, 0x3A (R190): exactly as X34. -/
def execX3A (slid : Slid) (pkg : PkgNum) (payload : Bytes) (s : State) :
    Host.Outcome State Fault Refusal :=
  receive (ctrlFrame 0x3A slid pkg payload) s

/-- X3B, 0x3B (R191): exactly as X35. -/
def execX3B (slid : Slid) (pkg : PkgNum) (rssi : Byte) (payload : Bytes) (s : State) :
    Host.Outcome State Fault Refusal :=
  receive (dataFrame 0x3B slid pkg rssi payload) s

/-- AS, 0x3C (R192): a node acknowledges: closes the matching send. -/
def execAS (slid : Slid) (pkg : PkgNum) (payload : Bytes) (s : State) :
    Host.Outcome State Fault Refusal :=
  receive (ctrlFrame 0x3C slid pkg payload) s

/-- X3D, 0x3D (R193): exactly as X35. -/
def execX3D (slid : Slid) (pkg : PkgNum) (rssi : Byte) (payload : Bytes) (s : State) :
    Host.Outcome State Fault Refusal :=
  receive (dataFrame 0x3D slid pkg rssi payload) s

/-- AN, 0x3E (R194): the store acknowledges: closes the matching send. -/
def execAN (slid : Slid) (pkg : PkgNum) (payload : Bytes) (s : State) :
    Host.Outcome State Fault Refusal :=
  receive (ctrlFrame 0x3E slid pkg payload) s

/-- X3F, 0x3F (R195): exactly as X35. -/
def execX3F (slid : Slid) (pkg : PkgNum) (rssi : Byte) (payload : Bytes) (s : State) :
    Host.Outcome State Fault Refusal :=
  receive (dataFrame 0x3F slid pkg rssi payload) s

end Sys2Proof.Machine
end

