-- ==== Sys2Proof/Machine/Dispatch.lean ====
section
/-! DEFINITION. One arm per instruction. -/

namespace Sys2Proof.Machine

def exec (i : Instr) (s : State) : Host.Outcome State Fault Refusal :=
  match i with
  -- the sixteen wire ops (spec/41_optab_wireops.md)
  | .wireDN slid pkg payload => Sys2Proof.Machine.execDN slid pkg payload s
  | .wireDS slid pkg rssi payload => Sys2Proof.Machine.execDS slid pkg rssi payload s
  | .wireBN slid pkg body => Sys2Proof.Machine.execBN slid pkg body s
  | .wireBS slid pkg rssi body => Sys2Proof.Machine.execBS slid pkg rssi body s
  | .wireX34 slid pkg payload => Sys2Proof.Machine.execX34 slid pkg payload s
  | .wireX35 slid pkg rssi payload => Sys2Proof.Machine.execX35 slid pkg rssi payload s
  | .wireX36 slid pkg payload => Sys2Proof.Machine.execX36 slid pkg payload s
  | .wireX37 slid pkg rssi payload => Sys2Proof.Machine.execX37 slid pkg rssi payload s
  | .wireSC slid pkg payload => Sys2Proof.Machine.execSC slid pkg payload s
  | .wireOF slid pkg rssi payload => Sys2Proof.Machine.execOF slid pkg rssi payload s
  | .wireX3A slid pkg payload => Sys2Proof.Machine.execX3A slid pkg payload s
  | .wireX3B slid pkg rssi payload => Sys2Proof.Machine.execX3B slid pkg rssi payload s
  | .wireAS slid pkg payload => Sys2Proof.Machine.execAS slid pkg payload s
  | .wireX3D slid pkg rssi payload => Sys2Proof.Machine.execX3D slid pkg rssi payload s
  | .wireAN slid pkg payload => Sys2Proof.Machine.execAN slid pkg payload s
  | .wireX3F slid pkg rssi payload => Sys2Proof.Machine.execX3F slid pkg rssi payload s
  -- the eight commands (spec/30_encoding.md R120)
  | .reset => Sys2Proof.Machine.execReset s
  | .cfgLoad record => Sys2Proof.Machine.execCfgLoad record s
  | .rx frame => Sys2Proof.Machine.execRx frame s
  | .send op slid payload rssi now => Sys2Proof.Machine.execSend op slid payload rssi now s
  | .tick now => Sys2Proof.Machine.execTick now s
  | .cancel h => Sys2Proof.Machine.execCancel h s
  | .fwd raw dest => Sys2Proof.Machine.execFwd raw dest s
  | .cancelAll => Sys2Proof.Machine.execCancelAll s

end Sys2Proof.Machine
end

