-- ==== Sys2Proof/Machine/Fetch.lean ====
section
/-! DEFINITION. Taking the next message from the port and running it (spec/00_scope.md R15, R16;
spec/20_memory.md R81). -/

namespace Sys2Proof.Machine

/-- What SLC does with the messages on its port: with none it does nothing (R15: between commands SLC
does nothing), and otherwise it takes the first and runs the instruction it encodes. -/
def takeNext (s : State) : Host.Outcome State Fault Refusal :=
  match s.port with
  | [] => .next s
  | m :: rest =>
    match decode m with
    | .ok i => exec i { s with port := rest }
    | .error e => .refused (.undecodable e)

/-- A message put in front of the port. -/
def putFirst (m : Bytes) (s : State) : State := { s with port := m :: s.port }

end Sys2Proof.Machine
end

