-- ==== Sys2Proof/Machine/Step.lean ====
section
/-! DEFINITION. The step of the machine: one message of the port, taken and run to completion
(spec/00_scope.md R15). -/

namespace Sys2Proof.Machine

/-- One step. -/
def step (s : State) : Host.Outcome State Fault Refusal := takeNext s

/-- `s` with the message of an opcode-table word issued on the port, so that the next step runs it. -/
def State.withFetchWord (s : State) (nbits w : Nat) : State := putFirst (tableMessage nbits w) s

end Sys2Proof.Machine
end

