-- ==== Sys2Proof/Safety.lean ====
section
/-! DEFINITION. What claims about SLC speak of: the invariant of its state (spec/10_state.md R34, R42,
R47, spec/70_reset_and_hazards.md R350, R356), the events LOG aside (R19), a run of several commands,
and the refusals of R332. -/

namespace Sys2Proof.Machine

/-! ### The invariant -/

/-- What holds of an OUT entry in state Sent (R47): its SLID is valid, its reply op is an op of the
table and the one its descriptor names, it was re-sent at most RETRY_MAX times, and its frame is the
encoding of its op, slid and pkg_num with some payload behind, no longer than MAX_FRAME (R45). -/
structure OutEntry.Ok (p : Params) (e : OutEntry) : Prop where
  slid_valid : validSlid e.slid = true
  reply_low : 0x30 ≤ e.replyOp.toNat
  reply_high : e.replyOp.toNat ≤ 0x3F
  retries_le : e.retries ≤ p.retryMax
  length_le : e.frame.length ≤ p.maxFrame
  frame_encodes : ∃ d rssi payload, opLookup p e.op = some d ∧ d.replyOp = some e.replyOp ∧
    e.frame = encodeKind d.headerKind e.op e.slid e.pkgNum rssi ++ payload

/-- The invariant of the state: a legal configuration; SEQ in its canonical form (R42); N_OUT entries
in OUT (R44), the Sent ones as R47 says; a valid OWN_SLID while Running (R34); and nothing recorded
while not Running, since only RESET and CFG_LOAD act there (R350, R356). -/
structure State.Inv (s : State) : Prop where
  params_wf : s.params.wf = true
  seq_wf : seqWf s.seq = true
  out_length : s.out.length = s.params.nOut
  out_ok : ∀ e, OutSlot.sent e ∈ s.out → e.Ok s.params
  own_valid : s.run = .running → validSlid s.ownSlid = true
  idle_clear : s.run ≠ .running → s.seq = [] ∧ (∀ slot ∈ s.out, slot = .free) ∧ s.txSeq = 0

/-! ### Events, LOG aside -/

/-- A LOG event; R19: it never changes state or any other output. -/
def Event.isLog : Event → Bool
  | .log _ _ => true
  | _ => false

/-- The events of a list but for LOG, in order. -/
def visible (es : List Event) : List Event := es.filter fun e => !e.isLog

/-- The outcome is the next state `t`, but for LOG events behind `t`'s events (R19: a model may leave
LOG out). -/
def NextButLog (o : Host.Outcome State Fault Refusal) (t : State) : Prop :=
  ∃ logs : List Event, (∀ e ∈ logs, e.isLog = true) ∧
    o = .next { t with events := t.events ++ logs }

/-! ### Words for claims -/

/-- The frame's number is new for its SLID: nothing is recorded for the SLID, or the signed 16-bit
difference to what is recorded is positive (R220, R221). -/
def IsNew (s : State) (slid : Slid) (pkg : PkgNum) : Prop :=
  ∀ last, seqRead s.seq (seqIndex slid) = some last → 0 < (pkg - last).toInt

/-- A slot holds the send that an ack frame with this op, slid and pkg_num names (R230). -/
def Awaits (slot : OutSlot) (op : OpCode) (slid : Slid) (pkg : PkgNum) : Prop :=
  ∃ e, slot = .sent e ∧ e.slid = slid ∧ e.pkgNum = pkg ∧ e.replyOp = op

/-- The instruction is the arrival of a frame, one of the sixteen wire ops, and not a command. -/
def wireArrival (i : Instr) : Bool := decide (0x30 ≤ i.code.toNat)

/-- Several commands, one after the other, up to the first that has no next state. -/
def runAll : List Instr → State → Host.Outcome State Fault Refusal
  | [], s => .next s
  | i :: is, s =>
    match exec i s with
    | .next t => runAll is t
    | .fault f => .fault f
    | .refused r => .refused r

/-- How many of the clock values, given to TICK in turn, find a deadline reached: the first deadline is
`deadline`, and each value that reaches the current one sets the next, counted from that value (R250,
R251). Values before the deadline count for nothing (R254). -/
def timesReached (timeout : Nat) : Clock → List Clock → Nat
  | _, [] => 0
  | deadline, now :: rest =>
    if 0 ≤ sdiff32 now deadline then timesReached timeout (now + BitVec.ofNat 32 timeout) rest + 1
    else timesReached timeout deadline rest

/-- The statuses of R332 that, like an exception, come with no effect. -/
def noEffectStatus : Status → Bool
  | .notRunning => true
  | .refusedState => true
  | .refusedOp => true
  | .outFull => true
  | .tooLong => true
  | .noEntry => true
  | .bridgeInert => true
  | .bridgeRefused => true
  | .errSize => true
  | .errAddr => true
  | .errUnknownOp => true
  | _ => false

/-- A state with what the `io_ok` draws left in it taken out (R18, R322). -/
def State.withoutDraws (s : State) : State :=
  { s with draws := 0, result := { s.result with ioErr := false } }

end Sys2Proof.Machine
end

