-- ==== Sys2Proof/Certificates/Slice0/Obligations.lean ====
section
/-! DEFINITION. The statements about SLC, for the provers. A statement that gives the next state as
`{ s with … }` says by that form that everything not listed is unchanged. `draws`, and `Config.ioOk`
applied to it, are the model's form of the spec's free bit `io_ok` (R18; log entry 3): each TX draws one,
and no statement rests on its value. -/

open Sys2Proof Sys2Proof.Machine

/-! ### Decoding and encoding -/

/-- DECODE AND ENCODE AGREE, for every instruction and every operand value. The frames are the spec's
(R101, R102); the operands behind a command code are the model's (log entry 6). -/
def Obligations.DecodeInvertsEncode : Prop :=
  ∀ i : Instr, decode (encode i) = .ok i

/-- R123: the header codec round trip, for both kinds, in both directions. -/
def Obligations.HeaderCodecRoundTrip : Prop :=
  (∀ (h : DataHeader) (p : Bytes), decData (encData h ++ p) = some (h, p)) ∧
  (∀ (h : CtrlHeader) (p : Bytes), decCtrl (encCtrl h ++ p) = some (h, p)) ∧
  (∀ b : Bytes, 8 ≤ b.length → ∃ h p, decData b = some (h, p) ∧ encData h = b.take 8) ∧
  (∀ b : Bytes, 7 ≤ b.length → ∃ h p, decCtrl b = some (h, p) ∧ encCtrl h = b.take 7)

/-- R145, R146: each field is read from its byte offsets, the lowest offset the least significant; the
rest is the payload; a frame shorter than its header is refused and no other. -/
def Obligations.HeaderFieldOffsets : Prop :=
  (∀ (b0 b1 b2 b3 b4 b5 b6 b7 : Byte) (p : Bytes), ∃ h,
    decData (b0 :: b1 :: b2 :: b3 :: b4 :: b5 :: b6 :: b7 :: p) = some (h, p) ∧ h.op = b0 ∧
    h.slid.toNat = b1.toNat + 2 ^ 8 * b2.toNat + 2 ^ 16 * b3.toNat + 2 ^ 24 * b4.toNat ∧
    h.pkgNum.toNat = b5.toNat + 256 * b6.toNat ∧ h.rssi = b7) ∧
  (∀ (b0 b1 b2 b3 b4 b5 b6 : Byte) (p : Bytes), ∃ h,
    decCtrl (b0 :: b1 :: b2 :: b3 :: b4 :: b5 :: b6 :: p) = some (h, p) ∧ h.op = b0 ∧
    h.slid.toNat = b1.toNat + 2 ^ 8 * b2.toNat + 2 ^ 16 * b3.toNat + 2 ^ 24 * b4.toNat ∧
    h.pkgNum.toNat = b5.toNat + 256 * b6.toNat) ∧
  (∀ b : Bytes, decData b = none ↔ b.length < 8) ∧
  (∀ b : Bytes, decCtrl b = none ↔ b.length < 7)

/-- A few words decode to the instructions they stand for. The five frames are written out from the spec's
encodings: the source's own example S1 and the examples of R146, R180, R189 and R194. The three command
messages `00`, `07` and `02 40 00 01` are in the model's own layout (DESIGN CHOICE, log entry 6: commands
have no wire encoding), of which R120 gives the code numbers alone. -/
def Obligations.SampleWordsDecode : Prop :=
  decode [0x31, 0x00, 0x01, 0x00, 0x00, 0x05, 0x00, 0x64] = .ok (.wireDS 0x100 5 100 []) ∧
  decode [0x30, 0xFF, 0x10, 0x00, 0x00, 0xCD, 0xAB, 0x55] = .ok (.wireDN 0x10FF 0xABCD [0x55]) ∧
  decode [0x30, 0x01, 0x01, 0x00, 0x00, 0x09, 0x00, 0x55] = .ok (.wireDN 0x101 9 [0x55]) ∧
  decode [0x39, 0x01, 0x01, 0x00, 0x00, 0x04, 0x00, 0x00, 0x3C, 0x00] =
    .ok (.wireOF 0x101 4 0 [0x3C, 0x00]) ∧
  decode [0x3E, 0x01, 0x01, 0x00, 0x00, 0x02, 0x00, 0x01] = .ok (.wireAN 0x101 2 [0x01]) ∧
  decode [0x00] = .ok .reset ∧ decode [0x07] = .ok .cancelAll ∧
  decode [0x02, 0x40, 0x00, 0x01] = .ok (.rx [0x40, 0x00, 0x01])

/-- A STEP RUNS THE DECODED INSTRUCTION: step takes the first message of the port and is exec of the
instruction it encodes; with no message it does nothing; a message that encodes none is refused. That
commands wait on a port is the model's choice (log entry 5), and so is the refusal of a message that
encodes no instruction (log entry 6). -/
def Obligations.StepRunsDecodedInstruction : Prop :=
  (∀ (s : State) (m : Bytes) (rest : List Bytes) (i : Instr),
    s.port = m :: rest → decode m = .ok i → step s = exec i { s with port := rest }) ∧
  (∀ s : State, s.port = [] → step s = .next s) ∧
  (∀ (s : State) (m : Bytes) (rest : List Bytes) (e : DecodeError),
    s.port = m :: rest → decode m = .error e → step s = .refused (.undecodable e))

/-! ### ADDR and OPT -/

/-- R140, R141, R75: the valid SLIDs are those of [0x100, 0x10FF]; `slid - 0x100` numbers them
0 to 4095, one each. -/
def Obligations.ValidSlidsAreIndexed : Prop :=
  (∀ s : Slid, validSlid s = true ↔ 0x100 ≤ s.toNat ∧ s.toNat ≤ 0x10FF) ∧
  (∀ s : Slid, validSlid s = true → seqIndex s = s.toNat - 0x100 ∧ seqIndex s < 4096) ∧
  (∀ n : Nat, n < 4096 → ∃ s : Slid, validSlid s = true ∧ seqIndex s = n ∧
    ∀ s' : Slid, validSlid s' = true → seqIndex s' = n → s' = s)

/-- R170: OPLOOKUP answers the row `op - 0x30` exactly for the ops 0x30 to 0x3F, under every
well-formed table. -/
def Obligations.OplookupExactRange : Prop :=
  ∀ (p : Params) (op : OpCode), p.wf = true →
    (opLookup p op = none ↔ op.toNat < 0x30 ∨ 0x3F < op.toNat) ∧
    (0x30 ≤ op.toNat → op.toNat ≤ 0x3F → opLookup p op = p.optab[op.toNat - 0x30]?)

/-- R173: the sixteen rows of the default table, and that they meet R172. -/
def Obligations.DefaultTableRows : Prop :=
  Params.optabWf defaultOptab = true ∧
  ∀ p : Params, p.optab = defaultOptab →
    opLookup p 0x30 = some ⟨.storeToNode, .control, true, some 0x3C, .app, none, false⟩ ∧
    opLookup p 0x31 = some ⟨.nodeToStore, .data, true, some 0x3E, .app, none, false⟩ ∧
    opLookup p 0x32 = some ⟨.storeToNode, .control, false, none, .bridge, none, false⟩ ∧
    opLookup p 0x33 = some ⟨.nodeToStore, .data, false, none, .bridge, none, false⟩ ∧
    opLookup p 0x38 = some ⟨.storeToNode, .control, true, some 0x3C, .admin, some 60, true⟩ ∧
    opLookup p 0x3C = some ⟨.nodeToStore, .control, false, none, .ack, some 1, false⟩ ∧
    opLookup p 0x3E = some ⟨.storeToNode, .control, false, none, .ack, some 1, false⟩ ∧
    (∀ op ∈ ([0x34, 0x36, 0x3A] : List OpCode),
      opLookup p op = some ⟨.storeToNode, .control, false, none, .admin, none, false⟩) ∧
    (∀ op ∈ ([0x35, 0x37, 0x39, 0x3B, 0x3D, 0x3F] : List OpCode),
      opLookup p op = some ⟨.nodeToStore, .data, false, none, .admin, none, false⟩)

/-- R33, R37, R39, R110, R311: the numbers of the run states, the statuses, the bridge modes, the
AckCodes and the exception kinds tell them apart and fill their ranges; the strap value 3 selects no
mode. -/
def Obligations.CodesTellKindsApart : Prop :=
  (∀ a b : Status, statusCode a = statusCode b → a = b) ∧ (∀ a : Status, statusCode a ≤ 26) ∧
  (∀ n : Nat, n ≤ 26 → ∃ a : Status, statusCode a = n) ∧
  (∀ a b : ExcKind, excCode a = excCode b → a = b) ∧
  (∀ a : ExcKind, 1 ≤ excCode a ∧ excCode a ≤ 13) ∧
  (∀ a b : AckCode, ackByte a = ackByte b → a = b) ∧ (∀ a : AckCode, (ackByte a).toNat ≤ 4) ∧
  (∀ a b : RunState, runCode a = runCode b → a = b) ∧ (∀ a : RunState, runCode a ≠ 3) ∧
  (∀ m : BridgeMode, bridgeModeOfStrap (bridgeModeCode m) = some m) ∧
  bridgeModeOfStrap 0 = some .unbridged ∧ bridgeModeOfStrap 1 = some .storeside ∧
  bridgeModeOfStrap 2 = some .nodeside ∧ bridgeModeOfStrap 3 = none

/-! ### SEQ and the sequence comparison -/

/-- R42, R43: a SEQ entry reads as last written, and a write changes no other entry. -/
def Obligations.SeqReadAfterWrite : Prop :=
  ∀ (t : SeqTable) (i j : Nat) (v : PkgNum),
    seqRead (seqWrite t i v) j = if j = i then some v else seqRead t j

/-- Two SEQ tables in canonical form whose entries read alike are one table, so that equality of states
is equality of what the spec gives them. The sparse form is the model's choice (log entry 11). -/
def Obligations.SeqTablesExtensional : Prop :=
  ∀ t u : SeqTable, seqWf t = true → seqWf u = true → (∀ i, seqRead t i = seqRead u i) → t = u

/-- R229, of the sequence check: when a number is recorded for the SLID, a frame is new when its number
is 1 to 32767 ahead of it, and a duplicate when it is 0 to 32768 behind. -/
def Obligations.HalfRangeWindow : Prop :=
  ∀ (t : SeqTable) (slid : Slid) (last : PkgNum), seqRead t (seqIndex slid) = some last →
    (∀ k : Nat, 1 ≤ k → k ≤ 32767 → seqNew t slid (last + BitVec.ofNat 16 k) = true) ∧
    (∀ k : Nat, k ≤ 32768 → seqNew t slid (last - BitVec.ofNat 16 k) = false)

/-- R220, R221, R224, R282, for every well-formed table: a frame of class App or Admin that is handled
here, or that is relayed and can be (R275), is answered by a next state in which SEQ has advanced to its
number exactly when the number is new, whatever the size and version checks find; a duplicate leaves SEQ
and is reported as one. -/
def Obligations.SequenceCheckOnArrival : Prop :=
  ∀ (s : State) (op : OpCode) (rest : Bytes) (d : Descriptor) (hdr : Header) (payload : Bytes),
    s.run = .running → s.params.wf = true → (op :: rest).length ≤ s.params.maxFrame →
    opLookup s.params op = some d → (d.opClass = .app ∨ d.opClass = .admin) →
    decodeKind d.headerKind (op :: rest) = some (hdr, payload) → validSlid hdr.slid = true →
    (route s.params d = .localLeg ∨ relayCheck s.params (op :: rest).length = none) →
    ∃ t, exec (.rx (op :: rest)) s = .next t ∧
      (IsNew s hdr.slid hdr.pkgNum →
        t.seq = seqWrite s.seq (seqIndex hdr.slid) hdr.pkgNum ∧
        t.result.ack ≠ some .duplicate) ∧
      (¬ IsNew s hdr.slid hdr.pkgNum →
        t.seq = s.seq ∧ t.result.ack = some .duplicate ∧ t.result.status = .rxDuplicate) ∧
      t.run = s.run ∧ t.ownSlid = s.ownSlid ∧ t.txSeq = s.txSeq ∧ t.out = s.out ∧
      t.params = s.params ∧ t.port = s.port

/-- R225, R226, R282, for every well-formed table, for a frame that is handled here and for one that is
relayed and can be: the reply of a reliable op carries the AckCode the frame earned, before anything else
is emitted; an op that is not reliable is not answered. -/
def Obligations.ReliableOpsAreAnswered : Prop :=
  ∀ (s : State) (op : OpCode) (rest : Bytes) (d : Descriptor) (hdr : Header) (payload : Bytes),
    s.run = .running → s.params.wf = true → (op :: rest).length ≤ s.params.maxFrame →
    opLookup s.params op = some d → (d.opClass = .app ∨ d.opClass = .admin) →
    decodeKind d.headerKind (op :: rest) = some (hdr, payload) → validSlid hdr.slid = true →
    (route s.params d = .localLeg ∨ relayCheck s.params (op :: rest).length = none) →
    ∃ t code, exec (.rx (op :: rest)) s = .next t ∧ t.result.ack = some code ∧
      (∀ r, d.replyOp = some r → ∃ dr more,
        opLookup s.params r = some dr ∧
        t.events = s.events ++
          [.tx (encodeKind dr.headerKind r hdr.slid hdr.pkgNum 0 ++ [ackByte code])] ++ more ∧
        (∀ e ∈ more, e.isTx = false)) ∧
      (d.replyOp = none → ∃ more, t.events = s.events ++ more ∧ ∀ e ∈ more, e.isTx = false)

/-- R174, R176, R273, R274, R282, for every well-formed table: a new frame that passes the size and
version checks, and RELAY_CHECK where the route is Relay, completes. Behind the reply, if there is one,
the last event of the command is: handled here and of class App, the DELIVER of its payload; handled
here and of class Admin, none; relayed, the BRIDGE_OUT of the whole frame behind a header with the bridge
op of its direction, OWN_SLID, the frame's number and, toward the store, its rssi or 0. -/
def Obligations.AcceptedFrameByClass : Prop :=
  ∀ (s : State) (op : OpCode) (rest : Bytes) (d : Descriptor) (hdr : Header) (payload : Bytes),
    s.run = .running → s.params.wf = true → (op :: rest).length ≤ s.params.maxFrame →
    opLookup s.params op = some d → (d.opClass = .app ∨ d.opClass = .admin) →
    decodeKind d.headerKind (op :: rest) = some (hdr, payload) → validSlid hdr.slid = true →
    (route s.params d = .localLeg ∨ relayCheck s.params (op :: rest).length = none) →
    IsNew s hdr.slid hdr.pkgNum →
    (∀ n, d.explen = some n → payload.length = n) →
    (d.vercheck = true → payload.head? = some s.params.nodeConfigVersion) →
    ∃ t reply, exec (.rx (op :: rest)) s = .next t ∧
      (∀ e ∈ reply, ∃ f, e = Event.tx f) ∧ reply.length ≤ 1 ∧
      (d.reliabilityRequired = true ↔ reply ≠ []) ∧
      (route s.params d = .localLeg → d.opClass = .app →
        t.events = s.events ++ reply ++ [.deliver payload] ∧ t.result.status = .rxDelivered) ∧
      (route s.params d = .localLeg → d.opClass = .admin →
        t.events = s.events ++ reply ∧ t.result.status = .rxRecognized) ∧
      (route s.params d = .relay → ∃ bop bd raw dest,
        opLookup s.params bop = some bd ∧ bd.opClass = .bridge ∧ bd.direction = d.direction ∧
        t.events = s.events ++ reply ++ [.bridgeOut raw dest] ∧ t.result.status = .rxRelayed ∧
        (d.direction = .nodeToStore → dest = s.params.storeSlid ∧
          raw = [bop] ++ le32 s.ownSlid ++ le16 hdr.pkgNum ++
            [if d.headerKind = .data then hdr.rssi else 0] ++ (op :: rest)) ∧
        (d.direction = .storeToNode → dest = hdr.slid ∧
          raw = [bop] ++ le32 s.ownSlid ++ le16 hdr.pkgNum ++ (op :: rest))) ∧
      t.result.ack = some .success ∧ t.result.exc = none ∧ t.result.op = hdr.op ∧
      t.result.slid = hdr.slid ∧ t.result.pkgNum = hdr.pkgNum ∧
      t.seq = seqWrite s.seq (seqIndex hdr.slid) hdr.pkgNum ∧
      t.run = s.run ∧ t.ownSlid = s.ownSlid ∧ t.txSeq = s.txSeq ∧ t.out = s.out ∧
      t.params = s.params ∧ t.port = s.port

/-- R228, R224, R282, the duplicate law, for every table: once a frame of class App or Admin was taken as
new, delivered, recognized, relayed or dropped for its size or version, its next arrival is a DUPLICATE
that emits no DELIVER and no BRIDGE_OUT, nothing but a reply and LOG, and leaves SEQ as it was. Between
the two arrivals any commands may run but RESET, as long as the entry of the frame's SLID still holds the
frame's number; none at all is the immediate repeat. -/
def Obligations.SecondArrivalIsDuplicate : Prop :=
  ∀ (b : Bytes) (s t t' : State) (d : Descriptor) (between : List Instr),
    opLookup s.params (b.headD 0) = some d → (d.opClass = .app ∨ d.opClass = .admin) →
    exec (.rx b) s = .next t →
    t.result.status ∈ [Status.rxDelivered, .rxRecognized, .rxRelayed, .rxSizeErr, .rxVersionErr] →
    runAll between t = .next t' → Instr.reset ∉ between →
    seqRead t'.seq (seqIndex t.result.slid) = seqRead t.seq (seqIndex t.result.slid) →
    ∃ u more, exec (.rx b) t' = .next u ∧ u.result.status = .rxDuplicate ∧
      u.result.ack = some .duplicate ∧ u.seq = t'.seq ∧ u.events = t'.events ++ more ∧
      ∀ e ∈ more, e.isTx = true ∨ e.isLog = true

/-! ### RX -/

/-- A wire op is the RX of its frame: the meaning of a wire op and of RX on its bytes are one. That a wire
op is an instruction of its own is the model's construct (DEDUCED, log entry 1): the spec executes RX
alone, whose dispatch R113 and R216 describe. -/
def Obligations.WireOpIsRxOfItsFrame : Prop :=
  ∀ (i : Instr) (s : State), wireArrival i = true → exec i s = exec (.rx (encode i)) s

/-- R212, R213, R215: an empty frame, a frame with an op outside the table, and a frame whose header
slid is out of range are dropped: RESULT and one LOG tell of it, and nothing else changes. -/
def Obligations.RxDropsMalformedFrames : Prop :=
  (∀ s : State, s.run = .running →
    exec (.rx []) s = .next { s with
      result := { status := .errSize, exc := some .codecSizeError }
      events := s.events ++ [.log .warn .codecSizeError] }) ∧
  (∀ (s : State) (op : OpCode) (rest : Bytes), s.run = .running →
    (op :: rest).length ≤ s.params.maxFrame → (op.toNat < 0x30 ∨ 0x3F < op.toNat) →
    exec (.rx (op :: rest)) s = .next { s with
      result := { status := .errUnknownOp, exc := some .opUnknown, ack := some .unexpected, op := op }
      events := s.events ++ [.log .warn .opUnknown] }) ∧
  (∀ (s : State) (op : OpCode) (rest : Bytes) (d : Descriptor) (hdr : Header) (payload : Bytes),
    s.run = .running → (op :: rest).length ≤ s.params.maxFrame → opLookup s.params op = some d →
    decodeKind d.headerKind (op :: rest) = some (hdr, payload) →
    (hdr.slid.toNat < 0x100 ∨ 0x10FF < hdr.slid.toNat) →
    exec (.rx (op :: rest)) s = .next { s with
      result := { status := .errAddr, exc := some .addressOutOfRange, op := hdr.op, slid := hdr.slid,
                  pkgNum := hdr.pkgNum }
      events := s.events ++ [.log .warn .addressOutOfRange] })

/-- R214: a frame shorter than the header of its kind, fewer than 8 bytes for an odd op and fewer than
7 for an even one, is dropped. That RESULT.op is the op byte is the model's reading (log entry 8). -/
def Obligations.RxDropsShortHeaders : Prop :=
  ∀ (s : State) (op : OpCode) (rest : Bytes), s.run = .running → s.params.wf = true →
    (op :: rest).length ≤ s.params.maxFrame → 0x30 ≤ op.toNat → op.toNat ≤ 0x3F →
    (op :: rest).length < (if op.toNat % 2 = 1 then 8 else 7) →
    exec (.rx (op :: rest)) s = .next { s with
      result := { status := .errSize, exc := some .codecSizeError, op := op }
      events := s.events ++ [.log .warn .codecSizeError] }

/-- R11, U19: a frame longer than MAX_FRAME is outside the operand domain of RX, of the wire ops and,
at a bridge, of FWD, and is refused by name (log entry 9). -/
def Obligations.OverlongFramesRefused : Prop :=
  (∀ (s : State) (b : Bytes), s.run = .running → s.params.maxFrame < b.length →
    exec (.rx b) s = .refused .frameOverMaxFrame) ∧
  (∀ (s : State) (i : Instr), s.run = .running → wireArrival i = true →
    i.wellFormed s.params = false → exec i s = .refused .frameOverMaxFrame) ∧
  (∀ (s : State) (raw : Bytes) (dest : Slid), s.run = .running →
    s.params.bridgeMode ≠ .unbridged → s.params.maxFrame < raw.length →
    exec (.fwd raw dest) s = .refused .frameOverMaxFrame)

/-- R210: the events of one arrival, LOG aside, are at most one TX, then at most one of BRIDGE_OUT and
DELIVER; or one DONE. -/
def Obligations.ArrivalEventShape : Prop :=
  ∀ (b : Bytes) (s t : State), exec (.rx b) s = .next t →
    ∃ more, t.events = s.events ++ more ∧
      ((∃ first last, visible more = first ++ last ∧ first.length ≤ 1 ∧ last.length ≤ 1 ∧
          (∀ e ∈ first, ∃ f, e = .tx f) ∧
          (∀ e ∈ last, (∃ p, e = .deliver p) ∨ ∃ raw dest, e = .bridgeOut raw dest)) ∨
        ∃ h code, visible more = [.done h (.ackReceived code)])

/-! ### The wire ops, under the default table -/

/-- R180: DN. A new frame is answered by AS with SUCCESS and delivered, or, at a storeside SLC,
wrapped in BN and handed to BRIDGE_OUT (R274); a duplicate is answered by AS with DUPLICATE and
dropped. -/
def Obligations.DataToNodeArrival : Prop :=
  ∀ (s : State) (slid : Slid) (pkg : PkgNum) (payload : Bytes),
    s.run = .running → s.params.optab = defaultOptab → 7 + payload.length ≤ s.params.maxFrame →
    validSlid slid = true →
    (s.params.bridgeMode = .storeside → 7 + payload.length + 11 ≤ s.params.maxFrame) →
    (IsNew s slid pkg → s.params.bridgeMode ≠ .storeside →
      exec (.wireDN slid pkg payload) s = .next { s with
        seq := seqWrite s.seq (seqIndex slid) pkg
        draws := s.draws + 1
        events := s.events ++ [.tx ([0x3C] ++ le32 slid ++ le16 pkg ++ [0]), .deliver payload]
        result := { status := .rxDelivered, ack := some .success, op := 0x30, slid := slid,
                    pkgNum := pkg, ioErr := !Config.ioOk s.draws } }) ∧
    (IsNew s slid pkg → s.params.bridgeMode = .storeside →
      exec (.wireDN slid pkg payload) s = .next { s with
        seq := seqWrite s.seq (seqIndex slid) pkg
        draws := s.draws + 1
        events := s.events ++ [.tx ([0x3C] ++ le32 slid ++ le16 pkg ++ [0]),
          .bridgeOut ([0x32] ++ le32 s.ownSlid ++ le16 pkg ++
            ([0x30] ++ le32 slid ++ le16 pkg ++ payload)) slid]
        result := { status := .rxRelayed, ack := some .success, op := 0x30, slid := slid,
                    pkgNum := pkg, ioErr := !Config.ioOk s.draws } }) ∧
    (¬ IsNew s slid pkg →
      NextButLog (exec (.wireDN slid pkg payload) s) { s with
        draws := s.draws + 1
        events := s.events ++ [.tx ([0x3C] ++ le32 slid ++ le16 pkg ++ [1])]
        result := { status := .rxDuplicate, ack := some .duplicate, op := 0x30, slid := slid,
                    pkgNum := pkg, ioErr := !Config.ioOk s.draws } })

/-- R181: DS. A new frame is answered by AN with SUCCESS and delivered, or, at a nodeside SLC, wrapped
in BS and handed to BRIDGE_OUT with STORE_SLID (R273); a duplicate is answered by AN with DUPLICATE
and dropped. -/
def Obligations.DataToStoreArrival : Prop :=
  ∀ (s : State) (slid : Slid) (pkg : PkgNum) (rssi : Byte) (payload : Bytes),
    s.run = .running → s.params.optab = defaultOptab → 8 + payload.length ≤ s.params.maxFrame →
    validSlid slid = true →
    (s.params.bridgeMode = .nodeside →
      validSlid s.params.storeSlid = true ∧ 8 + payload.length + 12 ≤ s.params.maxFrame) →
    (IsNew s slid pkg → s.params.bridgeMode ≠ .nodeside →
      exec (.wireDS slid pkg rssi payload) s = .next { s with
        seq := seqWrite s.seq (seqIndex slid) pkg
        draws := s.draws + 1
        events := s.events ++ [.tx ([0x3E] ++ le32 slid ++ le16 pkg ++ [0]), .deliver payload]
        result := { status := .rxDelivered, ack := some .success, op := 0x31, slid := slid,
                    pkgNum := pkg, ioErr := !Config.ioOk s.draws } }) ∧
    (IsNew s slid pkg → s.params.bridgeMode = .nodeside →
      exec (.wireDS slid pkg rssi payload) s = .next { s with
        seq := seqWrite s.seq (seqIndex slid) pkg
        draws := s.draws + 1
        events := s.events ++ [.tx ([0x3E] ++ le32 slid ++ le16 pkg ++ [0]),
          .bridgeOut ([0x33] ++ le32 s.ownSlid ++ le16 pkg ++ [rssi] ++
            ([0x31] ++ le32 slid ++ le16 pkg ++ [rssi] ++ payload)) s.params.storeSlid]
        result := { status := .rxRelayed, ack := some .success, op := 0x31, slid := slid,
                    pkgNum := pkg, ioErr := !Config.ioOk s.draws } }) ∧
    (¬ IsNew s slid pkg →
      NextButLog (exec (.wireDS slid pkg rssi payload) s) { s with
        draws := s.draws + 1
        events := s.events ++ [.tx ([0x3E] ++ le32 slid ++ le16 pkg ++ [1])]
        result := { status := .rxDuplicate, ack := some .duplicate, op := 0x31, slid := slid,
                    pkgNum := pkg, ioErr := !Config.ioOk s.draws } })

/-- R184, R186, R190: X34, X36 and X3A. A new frame advances SEQ and is recognized, or, at a storeside
SLC, relayed; a duplicate is dropped; none is answered. -/
def Obligations.PlaceholderControlArrival : Prop :=
  ∀ w ∈ ([(Instr.wireX34, 0x34), (Instr.wireX36, 0x36), (Instr.wireX3A, 0x3A)] :
      List ((Slid → PkgNum → Bytes → Instr) × OpCode)),
    ∀ (s : State) (slid : Slid) (pkg : PkgNum) (payload : Bytes),
    s.run = .running → s.params.optab = defaultOptab → 7 + payload.length ≤ s.params.maxFrame →
    validSlid slid = true →
    (s.params.bridgeMode = .storeside → 7 + payload.length + 11 ≤ s.params.maxFrame) →
    (IsNew s slid pkg → s.params.bridgeMode ≠ .storeside →
      exec (w.1 slid pkg payload) s = .next { s with
        seq := seqWrite s.seq (seqIndex slid) pkg
        result := { status := .rxRecognized, ack := some .success, op := w.2, slid := slid,
                    pkgNum := pkg } }) ∧
    (IsNew s slid pkg → s.params.bridgeMode = .storeside →
      exec (w.1 slid pkg payload) s = .next { s with
        seq := seqWrite s.seq (seqIndex slid) pkg
        events := s.events ++ [.bridgeOut ([0x32] ++ le32 s.ownSlid ++ le16 pkg ++
            ([w.2] ++ le32 slid ++ le16 pkg ++ payload)) slid]
        result := { status := .rxRelayed, ack := some .success, op := w.2, slid := slid,
                    pkgNum := pkg } }) ∧
    (¬ IsNew s slid pkg →
      NextButLog (exec (w.1 slid pkg payload) s) { s with
        result := { status := .rxDuplicate, ack := some .duplicate, op := w.2, slid := slid,
                    pkgNum := pkg } })

/-- R185, R187, R189, R191, R193, R195: X35, X37, OF, X3B, X3D and X3F, the data-kind ops of class
Admin, likewise, relayed at a nodeside SLC. -/
def Obligations.PlaceholderDataArrival : Prop :=
  ∀ w ∈ ([(Instr.wireX35, 0x35), (Instr.wireX37, 0x37), (Instr.wireOF, 0x39),
      (Instr.wireX3B, 0x3B), (Instr.wireX3D, 0x3D), (Instr.wireX3F, 0x3F)] :
      List ((Slid → PkgNum → Byte → Bytes → Instr) × OpCode)),
    ∀ (s : State) (slid : Slid) (pkg : PkgNum) (rssi : Byte) (payload : Bytes),
    s.run = .running → s.params.optab = defaultOptab → 8 + payload.length ≤ s.params.maxFrame →
    validSlid slid = true →
    (s.params.bridgeMode = .nodeside →
      validSlid s.params.storeSlid = true ∧ 8 + payload.length + 12 ≤ s.params.maxFrame) →
    (IsNew s slid pkg → s.params.bridgeMode ≠ .nodeside →
      exec (w.1 slid pkg rssi payload) s = .next { s with
        seq := seqWrite s.seq (seqIndex slid) pkg
        result := { status := .rxRecognized, ack := some .success, op := w.2, slid := slid,
                    pkgNum := pkg } }) ∧
    (IsNew s slid pkg → s.params.bridgeMode = .nodeside →
      exec (w.1 slid pkg rssi payload) s = .next { s with
        seq := seqWrite s.seq (seqIndex slid) pkg
        events := s.events ++ [.bridgeOut ([0x33] ++ le32 s.ownSlid ++ le16 pkg ++ [rssi] ++
            ([w.2] ++ le32 slid ++ le16 pkg ++ [rssi] ++ payload)) s.params.storeSlid]
        result := { status := .rxRelayed, ack := some .success, op := w.2, slid := slid,
                    pkgNum := pkg } }) ∧
    (¬ IsNew s slid pkg →
      NextButLog (exec (w.1 slid pkg rssi payload) s) { s with
        result := { status := .rxDuplicate, ack := some .duplicate, op := w.2, slid := slid,
                    pkgNum := pkg } })

/-- R188: SC. The sequence check comes first, then the length 60, then the version byte; each outcome
is answered by AS with its code; only a frame that passes all is recognized or, at a storeside SLC,
relayed, and the record it carries is not applied. -/
def Obligations.ConfigCommandArrival : Prop :=
  ∀ (s : State) (slid : Slid) (pkg : PkgNum) (payload : Bytes),
    s.run = .running → s.params.optab = defaultOptab → 7 + payload.length ≤ s.params.maxFrame →
    validSlid slid = true →
    (s.params.bridgeMode = .storeside → 7 + payload.length + 11 ≤ s.params.maxFrame) →
    (IsNew s slid pkg → payload.length = 60 →
      payload.head? = some s.params.nodeConfigVersion → s.params.bridgeMode ≠ .storeside →
      exec (.wireSC slid pkg payload) s = .next { s with
        seq := seqWrite s.seq (seqIndex slid) pkg
        draws := s.draws + 1
        events := s.events ++ [.tx ([0x3C] ++ le32 slid ++ le16 pkg ++ [0])]
        result := { status := .rxRecognized, ack := some .success, op := 0x38, slid := slid,
                    pkgNum := pkg, ioErr := !Config.ioOk s.draws } }) ∧
    (IsNew s slid pkg → payload.length = 60 →
      payload.head? = some s.params.nodeConfigVersion → s.params.bridgeMode = .storeside →
      exec (.wireSC slid pkg payload) s = .next { s with
        seq := seqWrite s.seq (seqIndex slid) pkg
        draws := s.draws + 1
        events := s.events ++ [.tx ([0x3C] ++ le32 slid ++ le16 pkg ++ [0]),
          .bridgeOut ([0x32] ++ le32 s.ownSlid ++ le16 pkg ++
            ([0x38] ++ le32 slid ++ le16 pkg ++ payload)) slid]
        result := { status := .rxRelayed, ack := some .success, op := 0x38, slid := slid,
                    pkgNum := pkg, ioErr := !Config.ioOk s.draws } }) ∧
    (IsNew s slid pkg → payload.length ≠ 60 →
      NextButLog (exec (.wireSC slid pkg payload) s) { s with
        seq := seqWrite s.seq (seqIndex slid) pkg
        draws := s.draws + 1
        events := s.events ++ [.tx ([0x3C] ++ le32 slid ++ le16 pkg ++ [4])]
        result := { status := .rxSizeErr, ack := some .sizeErr, op := 0x38, slid := slid,
                    pkgNum := pkg, ioErr := !Config.ioOk s.draws } }) ∧
    (IsNew s slid pkg → payload.length = 60 →
      payload.head? ≠ some s.params.nodeConfigVersion →
      NextButLog (exec (.wireSC slid pkg payload) s) { s with
        seq := seqWrite s.seq (seqIndex slid) pkg
        draws := s.draws + 1
        events := s.events ++ [.tx ([0x3C] ++ le32 slid ++ le16 pkg ++ [3])]
        result := { status := .rxVersionErr, ack := some .versionErr, op := 0x38, slid := slid,
                    pkgNum := pkg, ioErr := !Config.ioOk s.draws } }) ∧
    (¬ IsNew s slid pkg →
      NextButLog (exec (.wireSC slid pkg payload) s) { s with
        draws := s.draws + 1
        events := s.events ++ [.tx ([0x3C] ++ le32 slid ++ le16 pkg ++ [1])]
        result := { status := .rxDuplicate, ack := some .duplicate, op := 0x38, slid := slid,
                    pkgNum := pkg, ioErr := !Config.ioOk s.draws } })

/-- R183, R276: BS on RX. The whole effect the spec gives its arrival, in each of the three modes, is
what RESULT reports: an unbridged SLC is inert, and a bridge refuses a second hop. Nothing else
changes. -/
def Obligations.BridgeFrameToStoreArrival : Prop :=
  ∀ (s : State) (slid : Slid) (pkg : PkgNum) (rssi : Byte) (body : Bytes),
    s.run = .running → s.params.optab = defaultOptab → 8 + body.length ≤ s.params.maxFrame →
    validSlid slid = true →
    exec (.wireBS slid pkg rssi body) s = .next { s with
      result := { status := if s.params.bridgeMode = .unbridged then .bridgeInert else .bridgeRefused,
                  op := 0x33, slid := slid, pkgNum := pkg } }

/-- R182, R276: BN on RX is turned away but at a storeside SLC: an unbridged SLC is inert, a nodeside
one refuses it. Nothing but RESULT changes. -/
def Obligations.BridgeFrameToNodeTurnedAway : Prop :=
  ∀ (s : State) (slid : Slid) (pkg : PkgNum) (body : Bytes),
    s.run = .running → s.params.optab = defaultOptab → 7 + body.length ≤ s.params.maxFrame →
    validSlid slid = true → s.params.bridgeMode ≠ .storeside →
    exec (.wireBN slid pkg body) s = .next { s with
      result := { status := if s.params.bridgeMode = .unbridged then .bridgeInert else .bridgeRefused,
                  op := 0x32, slid := slid, pkgNum := pkg } }

/-- R278: BN at a storeside SLC. With a valid `to_slid` and an inner frame that passes INNER_CHECK,
the port form and `to_slid` go to BRIDGE_OUT and nothing but RESULT is written. -/
def Obligations.BridgeFrameToNodeRelayed : Prop :=
  ∀ (s : State) (slid : Slid) (pkg : PkgNum) (dest : Slid) (inner : Bytes),
    s.run = .running → s.params.optab = defaultOptab → s.params.bridgeMode = .storeside →
    11 + inner.length ≤ s.params.maxFrame → validSlid slid = true → validSlid dest = true →
    innerCheck s.params inner = none →
    exec (.wireBN slid pkg (le32 dest ++ inner)) s = .next { s with
      events := s.events ++ [.bridgeOut ([0x32] ++ le32 slid ++ le16 pkg ++ inner) dest]
      result := { status := .rxRelayed, op := 0x32, slid := slid, pkgNum := pkg } }

/-- R278, R279, R281: BN at a storeside SLC is dropped whole when it is too short for a header,
`to_slid` and an inner header, when `to_slid` is not valid, or when the inner frame fails INNER_CHECK;
a nested bridge frame is refused. That RESULT then reports the outer header's op, slid and pkg_num is the
model's reading (DEDUCED, log entry 8), and so is the ack UNEXPECTED for an unknown inner op (DEDUCED, log
entry 14). -/
def Obligations.BridgeFrameToNodeDropped : Prop :=
  ∀ (s : State) (slid : Slid) (pkg : PkgNum),
    s.run = .running → s.params.optab = defaultOptab → s.params.bridgeMode = .storeside →
    validSlid slid = true →
    (∀ body : Bytes, 7 + body.length < 18 → 7 + body.length ≤ s.params.maxFrame →
      exec (.wireBN slid pkg body) s = .next { s with
        events := s.events ++ [.log .warn .codecSizeError]
        result := { status := .errSize, exc := some .codecSizeError, op := 0x32, slid := slid,
                    pkgNum := pkg } }) ∧
    (∀ (dest : Slid) (inner : Bytes), 7 ≤ inner.length → 11 + inner.length ≤ s.params.maxFrame →
      validSlid dest = false →
      exec (.wireBN slid pkg (le32 dest ++ inner)) s = .next { s with
        events := s.events ++ [.log .warn .addressOutOfRange]
        result := { status := .errAddr, exc := some .addressOutOfRange, op := 0x32, slid := slid,
                    pkgNum := pkg } }) ∧
    (∀ (dest : Slid) (inner : Bytes) (k : Raised), 7 ≤ inner.length →
      11 + inner.length ≤ s.params.maxFrame → validSlid dest = true →
      innerCheck s.params inner = some k →
      exec (.wireBN slid pkg (le32 dest ++ inner)) s = .next { s with
        events := s.events ++ [.log .warn (raisedKind k)]
        result := { status := raisedStatus k, exc := some (raisedKind k), op := 0x32, slid := slid,
                    pkgNum := pkg,
                    ack := if k = .unknownOp then some .unexpected else none } })

/-- R279: what INNER_CHECK finds, for every well-formed table, in its order: empty, unknown op, short
header, invalid slid, bridge frame. -/
def Obligations.InnerCheckOrder : Prop :=
  ∀ p : Params, p.wf = true →
    innerCheck p [] = some .sizeError ∧
    (∀ (op : OpCode) (rest : Bytes), opLookup p op = none →
      innerCheck p (op :: rest) = some .unknownOp) ∧
    (∀ (op : OpCode) (rest : Bytes) (d : Descriptor), opLookup p op = some d →
      (op :: rest).length < hlen d.headerKind → innerCheck p (op :: rest) = some .sizeError) ∧
    (∀ (op : OpCode) (rest : Bytes) (d : Descriptor) (hdr : Header) (payload : Bytes),
      opLookup p op = some d → decodeKind d.headerKind (op :: rest) = some (hdr, payload) →
      innerCheck p (op :: rest) =
        if validSlid hdr.slid = false then some .outOfRange
        else if d.opClass = .bridge then some .bridgeRefused
        else none)

/-- R192, R194: AS and AN that answer an outstanding send: the lowest matching entry is freed, DONE
hands the code byte to the caller unchanged, whatever its value, and no frame is emitted. That RESULT
also reports the header's op, slid and pkg_num is read from the preamble of spec/41_optab_wireops.md
section 3, where the pseudocode of R230 lists status, h and ack alone (DEDUCED, log entry 12). -/
def Obligations.AckClosesMatchingSend : Prop :=
  ∀ w ∈ ([(Instr.wireAS, 0x3C), (Instr.wireAN, 0x3E)] :
      List ((Slid → PkgNum → Bytes → Instr) × OpCode)),
    ∀ (s : State) (slid : Slid) (pkg : PkgNum) (code : Byte) (h : Nat) (slot : OutSlot),
    s.run = .running → s.params.optab = defaultOptab → 8 ≤ s.params.maxFrame →
    validSlid slid = true → s.out[h]? = some slot → Awaits slot w.2 slid pkg →
    (∀ j slot', j < h → s.out[j]? = some slot' → ¬ Awaits slot' w.2 slid pkg) →
    exec (w.1 slid pkg [code]) s = .next { s with
      out := s.out.set h .free
      events := s.events ++ [.done h (.ackReceived code)]
      result := { status := .rxAckMatched, h := h, op := w.2, slid := slid, pkgNum := pkg } }

/-- R192, R194, R232: AS and AN that answer no outstanding send are reported UNEXPECTED and dropped,
but at the relay of their direction, nodeside for AS and storeside for AN, they are passed on; one
whose payload is not one byte is dropped as SIZE_ERR whatever is outstanding. SEQ is not written. That
RESULT also reports the header's op, slid and pkg_num is read from the preamble of
spec/41_optab_wireops.md section 3, where the pseudocode of R230 lists status and ack alone (DEDUCED, log
entry 12). An ack that would be passed on and fails RELAY_CHECK is in InfeasibleRelayDropsWhole. -/
def Obligations.AckWithoutMatchingSend : Prop :=
  ∀ w ∈ ([(Instr.wireAS, 0x3C), (Instr.wireAN, 0x3E)] :
      List ((Slid → PkgNum → Bytes → Instr) × OpCode)),
    ∀ (s : State) (slid : Slid) (pkg : PkgNum),
    s.run = .running → s.params.optab = defaultOptab → validSlid slid = true →
    (∀ payload : Bytes, payload.length ≠ 1 → 7 + payload.length ≤ s.params.maxFrame →
      NextButLog (exec (w.1 slid pkg payload) s) { s with
        result := { status := .rxSizeErr, ack := some .sizeErr, op := w.2, slid := slid,
                    pkgNum := pkg } }) ∧
    (∀ code : Byte, 8 ≤ s.params.maxFrame → (∀ slot ∈ s.out, ¬ Awaits slot w.2 slid pkg) →
      s.params.bridgeMode ≠ (if w.2 = 0x3C then .nodeside else .storeside) →
      NextButLog (exec (w.1 slid pkg [code]) s) { s with
        result := { status := .rxAckUnmatched, ack := some .unexpected, op := w.2, slid := slid,
                    pkgNum := pkg } }) ∧
    (∀ code : Byte, 20 ≤ s.params.maxFrame → (∀ slot ∈ s.out, ¬ Awaits slot w.2 slid pkg) →
      w.2 = 0x3C → s.params.bridgeMode = .nodeside → validSlid s.params.storeSlid = true →
      exec (w.1 slid pkg [code]) s = .next { s with
        events := s.events ++ [.bridgeOut ([0x33] ++ le32 s.ownSlid ++ le16 pkg ++ [0] ++
          ([w.2] ++ le32 slid ++ le16 pkg ++ [code])) s.params.storeSlid]
        result := { status := .rxRelayed, op := w.2, slid := slid, pkgNum := pkg } }) ∧
    (∀ code : Byte, 19 ≤ s.params.maxFrame → (∀ slot ∈ s.out, ¬ Awaits slot w.2 slid pkg) →
      w.2 = 0x3E → s.params.bridgeMode = .storeside →
      exec (w.1 slid pkg [code]) s = .next { s with
        events := s.events ++ [.bridgeOut ([0x32] ++ le32 s.ownSlid ++ le16 pkg ++
          ([w.2] ++ le32 slid ++ le16 pkg ++ [code])) slid]
        result := { status := .rxRelayed, op := w.2, slid := slid, pkgNum := pkg } })

/-! ### BRG -/

/-- R275, R230: RELAY_CHECK is made before ACK changes any state: a plain frame that would have to be
relayed and cannot be, for an invalid STORE_SLID or for its length, is dropped whole; and so is an ack of
one byte that matches no outstanding send. For every table. -/
def Obligations.InfeasibleRelayDropsWhole : Prop :=
  ∀ (s : State) (op : OpCode) (rest : Bytes) (d : Descriptor) (hdr : Header) (payload : Bytes),
    s.run = .running → (op :: rest).length ≤ s.params.maxFrame → opLookup s.params op = some d →
    (d.opClass = .app ∨ d.opClass = .admin ∨
      (d.opClass = .ack ∧ payload.length = 1 ∧
        ∀ slot ∈ s.out, ¬ Awaits slot hdr.op hdr.slid hdr.pkgNum)) →
    decodeKind d.headerKind (op :: rest) = some (hdr, payload) → validSlid hdr.slid = true →
    (s.params.bridgeMode = .nodeside → d.direction = .nodeToStore →
      validSlid s.params.storeSlid = false →
      exec (.rx (op :: rest)) s = .next { s with
        events := s.events ++ [.log .warn .addressOutOfRange]
        result := { status := .errAddr, exc := some .addressOutOfRange, op := hdr.op,
                    slid := hdr.slid, pkgNum := hdr.pkgNum } }) ∧
    (s.params.bridgeMode = .nodeside → d.direction = .nodeToStore →
      validSlid s.params.storeSlid = true → s.params.maxFrame < (op :: rest).length + 12 →
      exec (.rx (op :: rest)) s = .next { s with
        events := s.events ++ [.log .warn .frameTooLong]
        result := { status := .tooLong, exc := some .frameTooLong, op := hdr.op,
                    slid := hdr.slid, pkgNum := hdr.pkgNum } }) ∧
    (s.params.bridgeMode = .storeside → d.direction = .storeToNode →
      s.params.maxFrame < (op :: rest).length + 11 →
      exec (.rx (op :: rest)) s = .next { s with
        events := s.events ++ [.log .warn .frameTooLong]
        result := { status := .tooLong, exc := some .frameTooLong, op := hdr.op,
                    slid := hdr.slid, pkgNum := hdr.pkgNum } })

/-- R277: CONSUME undoes ATTACH, and ATTACH puts `to_slid` behind the header. -/
def Obligations.ConsumeUndoesAttach : Prop :=
  ∀ (raw : Bytes) (hl : Nat) (dest : Slid), hl ≤ raw.length →
    attach raw hl dest = raw.take hl ++ le32 dest ++ raw.drop hl ∧
    (attach raw hl dest).length = raw.length + 4 ∧
    consume (attach raw hl dest) hl = some (raw, dest)

/-- R286: FWD at a nodeside SLC transmits the inner frame of a BN frame exactly as it was. -/
def Obligations.FwdUnwrapsTowardNode : Prop :=
  ∀ (s : State) (slid : Slid) (pkg : PkgNum) (inner : Bytes) (dest : Slid),
    s.run = .running → s.params.optab = defaultOptab → s.params.bridgeMode = .nodeside →
    7 + inner.length ≤ s.params.maxFrame → validSlid slid = true → validSlid dest = true →
    innerCheck s.params inner = none →
    exec (.fwd ([0x32] ++ le32 slid ++ le16 pkg ++ inner) dest) s = .next { s with
      events := s.events ++ [.tx inner]
      draws := s.draws + 1
      result := { status := .fwdSent, op := 0x32, slid := slid, pkgNum := pkg,
                  ioErr := !Config.ioOk s.draws } }

/-- R287: FWD at a storeside SLC puts `to_slid` behind the header of a BS frame and transmits the
whole; a wire form longer than MAX_FRAME is FrameTooLong. -/
def Obligations.FwdWrapsTowardStore : Prop :=
  ∀ (s : State) (slid : Slid) (pkg : PkgNum) (rssi : Byte) (inner : Bytes) (dest : Slid),
    s.run = .running → s.params.optab = defaultOptab → s.params.bridgeMode = .storeside →
    8 + inner.length ≤ s.params.maxFrame → validSlid slid = true → validSlid dest = true →
    innerCheck s.params inner = none →
    (12 + inner.length ≤ s.params.maxFrame →
      exec (.fwd ([0x33] ++ le32 slid ++ le16 pkg ++ [rssi] ++ inner) dest) s = .next { s with
        events := s.events ++
          [.tx ([0x33] ++ le32 slid ++ le16 pkg ++ [rssi] ++ le32 dest ++ inner)]
        draws := s.draws + 1
        result := { status := .fwdSent, op := 0x33, slid := slid, pkgNum := pkg,
                    ioErr := !Config.ioOk s.draws } }) ∧
    (s.params.maxFrame < 12 + inner.length →
      exec (.fwd ([0x33] ++ le32 slid ++ le16 pkg ++ [rssi] ++ inner) dest) s = .next { s with
        events := s.events ++ [.log .warn .frameTooLong]
        result := { status := .tooLong, exc := some .frameTooLong, op := 0x33, slid := slid,
                    pkgNum := pkg } })

/-- R285 steps 2 to 8: what FWD turns away: everything at an unbridged SLC; at a bridge an empty
frame, an unknown op, an op that is not the bridge op its mode forwards, a frame too short, an invalid
relay or destination slid, an inner frame that fails INNER_CHECK. That RESULT.op is the op byte of a
frame too short is the model's reading (log entry 8). -/
def Obligations.FwdTurnsAway : Prop :=
  (∀ (s : State) (raw : Bytes) (dest : Slid), s.run = .running → s.params.bridgeMode = .unbridged →
    exec (.fwd raw dest) s = .next { s with result := { status := .bridgeInert } }) ∧
  (∀ (s : State) (dest : Slid), s.run = .running → s.params.bridgeMode ≠ .unbridged →
    exec (.fwd [] dest) s = .next { s with
      events := s.events ++ [.log .warn .codecSizeError]
      result := { status := .errSize, exc := some .codecSizeError } }) ∧
  (∀ (s : State) (op : OpCode) (rest : Bytes) (dest : Slid), s.run = .running →
    s.params.bridgeMode ≠ .unbridged → (op :: rest).length ≤ s.params.maxFrame →
    (op.toNat < 0x30 ∨ 0x3F < op.toNat) →
    exec (.fwd (op :: rest) dest) s = .next { s with
      events := s.events ++ [.log .warn .opUnknown]
      result := { status := .errUnknownOp, exc := some .opUnknown, op := op } }) ∧
  (∀ (s : State) (op : OpCode) (rest : Bytes) (dest : Slid) (d : Descriptor), s.run = .running →
    s.params.bridgeMode ≠ .unbridged → (op :: rest).length ≤ s.params.maxFrame →
    opLookup s.params op = some d →
    (d.opClass ≠ .bridge ∨ (s.params.bridgeMode = .nodeside ∧ d.direction ≠ .storeToNode) ∨
      (s.params.bridgeMode = .storeside ∧ d.direction ≠ .nodeToStore)) →
    exec (.fwd (op :: rest) dest) s = .next { s with
      result := { status := .bridgeRefused, op := op } }) ∧
  (∀ (s : State) (op : OpCode) (rest : Bytes) (dest : Slid) (d : Descriptor), s.run = .running →
    (op :: rest).length ≤ s.params.maxFrame → opLookup s.params op = some d →
    d.opClass = .bridge →
    (s.params.bridgeMode = .nodeside ∧ d.direction = .storeToNode ∨
      s.params.bridgeMode = .storeside ∧ d.direction = .nodeToStore) →
    ((op :: rest).length < hlen d.headerKind + 7 →
      exec (.fwd (op :: rest) dest) s = .next { s with
        events := s.events ++ [.log .warn .codecSizeError]
        result := { status := .errSize, exc := some .codecSizeError, op := op } }) ∧
    (∀ (hdr : Header) (inner : Bytes), hlen d.headerKind + 7 ≤ (op :: rest).length →
      decodeKind d.headerKind (op :: rest) = some (hdr, inner) →
      ((validSlid hdr.slid = false ∨ validSlid dest = false) →
        exec (.fwd (op :: rest) dest) s = .next { s with
          events := s.events ++ [.log .warn .addressOutOfRange]
          result := { status := .errAddr, exc := some .addressOutOfRange, op := hdr.op,
                      slid := hdr.slid, pkgNum := hdr.pkgNum } }) ∧
      (∀ k : Raised, validSlid hdr.slid = true → validSlid dest = true →
        innerCheck s.params inner = some k →
        exec (.fwd (op :: rest) dest) s = .next { s with
          events := s.events ++ [.log .warn (raisedKind k)]
          result := { status := raisedStatus k, exc := some (raisedKind k), op := hdr.op,
                      slid := hdr.slid, pkgNum := hdr.pkgNum } })))

/-- R288, bridge fidelity. Toward the store: every plain frame `b` that a nodeside SLC relays, its
BRIDGE_OUT given to a storeside SLC's FWD, is transmitted there behind twelve bytes, unchanged. Toward
the nodes: every plain frame that a storeside SLC relays, from its bare form or from its wire form
(R278: the inner frame, behind eleven bytes), its BRIDGE_OUT given to a nodeside SLC's FWD, is
transmitted there exactly as it was. The two SLCs hold the same OPTAB; the far one runs and has room. -/
def Obligations.BridgeFidelity : Prop :=
  ∀ (b raw : Bytes) (dest : Slid) (s t u : State) (before : List Event),
    s.Inv → u.run = .running → u.params.optab = s.params.optab →
    exec (.rx b) s = .next t → t.result.status = .rxRelayed →
    t.events = before ++ [.bridgeOut raw dest] →
    (s.params.bridgeMode = .nodeside → u.params.bridgeMode = .storeside →
      b.length + 12 ≤ u.params.maxFrame →
      ∃ v w, exec (.fwd raw dest) u = .next v ∧ v.result.status = .fwdSent ∧
        v.events = u.events ++ [.tx w] ∧ w.length = b.length + 12 ∧ w.drop 12 = b ∧
        v.seq = u.seq ∧ v.out = u.out ∧ v.txSeq = u.txSeq) ∧
    (s.params.bridgeMode = .storeside → u.params.bridgeMode = .nodeside →
      b.length + 7 ≤ u.params.maxFrame →
      ∃ v w, exec (.fwd raw dest) u = .next v ∧ v.result.status = .fwdSent ∧
        v.events = u.events ++ [.tx w] ∧ v.seq = u.seq ∧ v.out = u.out ∧ v.txSeq = u.txSeq ∧
        ((∀ d, opLookup s.params (b.headD 0) = some d → d.opClass ≠ .bridge) → w = b) ∧
        ((∀ d, opLookup s.params (b.headD 0) = some d → d.opClass = .bridge) → w = b.drop 11))

/-! ### SEND, TICK, CANCEL, CANCEL_ALL -/

/-- R242: a reliable SEND with a free entry transmits the frame under the next number and starts its
timeout in the lowest free entry; with none it is refused and nothing is sent. For every table. -/
def Obligations.SendReliable : Prop :=
  ∀ (s : State) (op : OpCode) (slid : Slid) (payload : Bytes) (rssi : Byte) (now : Clock)
    (d : Descriptor) (r : OpCode),
    s.run = .running → opLookup s.params op = some d → (d.opClass = .app ∨ d.opClass = .admin) →
    d.reliabilityRequired = true → d.replyOp = some r → validSlid slid = true →
    hlen d.headerKind + payload.length ≤ s.params.maxFrame →
    (∀ h : Nat, s.out[h]? = some .free → (∀ j, j < h → s.out[j]? ≠ some .free) →
      exec (.send op slid payload rssi now) s = .next { s with
        txSeq := s.txSeq + 1
        out := s.out.set h (.sent
          { op := op, slid := slid, pkgNum := s.txSeq + 1, replyOp := r,
            frame := encodeKind d.headerKind op slid (s.txSeq + 1) rssi ++ payload, retries := 0,
            deadline := now + BitVec.ofNat 32 s.params.ackTimeout })
        events := s.events ++ [.tx (encodeKind d.headerKind op slid (s.txSeq + 1) rssi ++ payload)]
        draws := s.draws + 1
        result := { status := .sentReliable, h := h, op := op, slid := slid, pkgNum := s.txSeq + 1,
                    ioErr := !Config.ioOk s.draws } }) ∧
    ((∀ slot ∈ s.out, slot ≠ .free) →
      exec (.send op slid payload rssi now) s = .next { s with result := { status := .outFull } })

/-- R243: a SEND of an op that is not reliable transmits the frame under the next number and keeps no
entry. For every table. -/
def Obligations.SendUnreliable : Prop :=
  ∀ (s : State) (op : OpCode) (slid : Slid) (payload : Bytes) (rssi : Byte) (now : Clock)
    (d : Descriptor),
    s.run = .running → opLookup s.params op = some d → (d.opClass = .app ∨ d.opClass = .admin) →
    d.reliabilityRequired = false → validSlid slid = true →
    hlen d.headerKind + payload.length ≤ s.params.maxFrame →
    exec (.send op slid payload rssi now) s = .next { s with
      txSeq := s.txSeq + 1
      events := s.events ++ [.tx (encodeKind d.headerKind op slid (s.txSeq + 1) rssi ++ payload)]
      draws := s.draws + 1
      result := { status := .sent, op := op, slid := slid, pkgNum := s.txSeq + 1,
                  ioErr := !Config.ioOk s.draws } }

/-- R240 steps 2 to 5: the operands SEND refuses, with nothing sent and TXSEQ not advanced: an unknown
op, an op of class Ack or Bridge, an invalid slid, a frame longer than MAX_FRAME. Which of op and slid
RESULT reports with the two exceptions is the model's reading (log entry 8). -/
def Obligations.SendRefusals : Prop :=
  (∀ (s : State) (op : OpCode) (slid : Slid) (payload : Bytes) (rssi : Byte) (now : Clock),
    s.run = .running → (op.toNat < 0x30 ∨ 0x3F < op.toNat) →
    exec (.send op slid payload rssi now) s = .next { s with
      events := s.events ++ [.log .warn .opUnknown]
      result := { status := .errUnknownOp, exc := some .opUnknown, op := op } }) ∧
  (∀ (s : State) (op : OpCode) (slid : Slid) (payload : Bytes) (rssi : Byte) (now : Clock)
      (d : Descriptor), s.run = .running → opLookup s.params op = some d →
    ((d.opClass = .ack ∨ d.opClass = .bridge) →
      exec (.send op slid payload rssi now) s = .next { s with
        result := { status := .refusedOp, op := op } }) ∧
    ((d.opClass = .app ∨ d.opClass = .admin) → validSlid slid = false →
      exec (.send op slid payload rssi now) s = .next { s with
        events := s.events ++ [.log .warn .addressOutOfRange]
        result := { status := .errAddr, exc := some .addressOutOfRange, op := op, slid := slid } }) ∧
    ((d.opClass = .app ∨ d.opClass = .admin) → validSlid slid = true →
      s.params.maxFrame < hlen d.headerKind + payload.length →
      exec (.send op slid payload rssi now) s = .next { s with result := { status := .tooLong } }))

/-- R250, R251, R252, R36, R322: TICK scans OUT in ascending handle order; a Sent entry whose deadline is
reached is re-sent unchanged with one more retry and a new deadline below RETRY_MAX, and reported and
freed at it; every other entry, and everything but OUT and RESULT, stays. RESULT counts both, sets io_err
exactly when a re-send drew io_ok = false, and holds nothing else. -/
def Obligations.TickScansAscending : Prop :=
  ∀ (s : State) (now : Clock), s.run = .running →
    ∃ t resent failed, exec (.tick now) s = .next t ∧
      t.out = s.out.map (fun slot => match slot with
        | .free => .free
        | .sent e =>
          if 0 ≤ (now - e.deadline).toInt then
            (if e.retries < s.params.retryMax then
              .sent { e with retries := e.retries + 1,
                             deadline := now + BitVec.ofNat 32 s.params.ackTimeout }
            else .free)
          else .sent e) ∧
      visible t.events = visible s.events ++ s.out.zipIdx.flatMap (fun x => match x.1 with
        | .free => []
        | .sent e =>
          if 0 ≤ (now - e.deadline).toInt then
            (if e.retries < s.params.retryMax then [Event.tx e.frame]
            else [Event.done x.2 .retriesExhausted])
          else []) ∧
      resent = (s.out.filter fun slot => match slot with
        | .free => false
        | .sent e =>
          decide (0 ≤ (now - e.deadline).toInt ∧ e.retries < s.params.retryMax)).length ∧
      failed = (s.out.filter fun slot => match slot with
        | .free => false
        | .sent e =>
          decide (0 ≤ (now - e.deadline).toInt ∧ ¬ e.retries < s.params.retryMax)).length ∧
      t.result = { status := .ticked, nResent := resent, nFailed := failed,
                   ioErr := (List.range resent).any fun k => !Config.ioOk (s.draws + k) } ∧
      t.draws = s.draws + resent ∧
      t.run = s.run ∧ t.ownSlid = s.ownSlid ∧ t.txSeq = s.txSeq ∧ t.seq = s.seq ∧
      t.params = s.params ∧ t.port = s.port

/-- R254: TICK does nothing to entries whose deadline has not been reached: when none is due, RESULT
alone is written. -/
def Obligations.TickBeforeDeadlines : Prop :=
  ∀ (s : State) (now : Clock), s.run = .running →
    (∀ e, OutSlot.sent e ∈ s.out → (now - e.deadline).toInt < 0) →
    exec (.tick now) s = .next { s with result := { status := .ticked } }

/-- R253, the retry bound, for every table and whatever else is outstanding: a reliable SEND, then any
list of TICKs, of which `reached` find the current deadline of this send reached, the first deadline being
the one SEND set. Up to RETRY_MAX of them the entry stays Sent with that many retries and the frame as it
was, and no failure is reported; from the next one on the entry is free and exactly one DONE reports
RetriesExhausted. The frame is transmitted once by SEND and once for each of the first RETRY_MAX; that
count is stated where no other entry holds the very same bytes, since a TX does not tell whose it is. -/
def Obligations.RetryBound : Prop :=
  ∀ (s : State) (op : OpCode) (slid : Slid) (payload : Bytes) (rssi : Byte) (now : Clock)
    (d : Descriptor) (r : OpCode) (h : Nat) (frame : Bytes) (times : List Clock) (reached : Nat),
    s.run = .running → opLookup s.params op = some d → (d.opClass = .app ∨ d.opClass = .admin) →
    d.reliabilityRequired = true → d.replyOp = some r → validSlid slid = true →
    hlen d.headerKind + payload.length ≤ s.params.maxFrame →
    s.out[h]? = some .free → (∀ j, j < h → s.out[j]? ≠ some .free) →
    frame = encodeKind d.headerKind op slid (s.txSeq + 1) rssi ++ payload →
    reached = timesReached s.params.ackTimeout (now + BitVec.ofNat 32 s.params.ackTimeout) times →
    ∃ u more, runAll (Instr.send op slid payload rssi now :: times.map Instr.tick) s = .next u ∧
      u.events = s.events ++ more ∧
      (reached ≤ s.params.retryMax → ∃ e, u.out[h]? = some (.sent e) ∧ e.op = op ∧ e.slid = slid ∧
        e.pkgNum = s.txSeq + 1 ∧ e.frame = frame ∧ e.retries = reached) ∧
      (s.params.retryMax < reached → u.out[h]? = some .free) ∧
      more.count (.done h .retriesExhausted) = (if s.params.retryMax < reached then 1 else 0) ∧
      ((∀ slot ∈ s.out, ∀ e, slot = .sent e → e.frame ≠ frame) →
        more.count (.tx frame) = 1 + min reached s.params.retryMax)

/-- R260: CANCEL frees an entry in state Sent and emits nothing; any other operand is NO_ENTRY, and a
SLC that is not Running is NOT_RUNNING, and neither changes anything but RESULT. -/
def Obligations.CancelReleasesEntry : Prop :=
  (∀ (s : State) (h : Nat) (e : OutEntry), s.run = .running → s.out[h]? = some (.sent e) →
    exec (.cancel h) s = .next { s with
      out := s.out.set h .free
      result := { status := .cancelled, h := h } }) ∧
  (∀ (s : State) (h : Nat), s.run = .running → (∀ e, s.out[h]? ≠ some (.sent e)) →
    exec (.cancel h) s = .next { s with result := { status := .noEntry, h := h } }) ∧
  (∀ (s : State) (h : Nat), s.run ≠ .running →
    exec (.cancel h) s = .next { s with result := { status := .notRunning } })

/-- R261: CANCEL_ALL frees every entry, emits nothing and counts the entries that were Sent; it has
the effect on OUT of CANCEL(h) for every h in ascending order (R122). Outside Running it does
nothing. -/
def Obligations.CancelAllReleasesEntries : Prop :=
  (∀ s : State, s.run ≠ .running →
    exec .cancelAll s = .next { s with result := { status := .notRunning } }) ∧
  ∀ s : State, s.run = .running →
    exec .cancelAll s = .next { s with
      out := List.replicate s.out.length .free
      result := { status := .cancelled,
                  nFailed := (s.out.filter fun slot => match slot with
                    | .free => false
                    | .sent _ => true).length } } ∧
    ∃ t, runAll ((List.range s.out.length).map Instr.cancel) s = .next t ∧
      t.out = List.replicate s.out.length .free ∧ t.events = s.events

/-! ### RESET, CFG_LOAD and the run-state gate -/

/-- R350: RESET, in every run state: RUN Unconfigured, TXSEQ 0, SEQ all invalid, OUT all Free, RESULT
cleared, no event. OWN_SLID takes a value that nothing constrains. -/
def Obligations.ResetClearsEverything : Prop :=
  ∀ s : State, ∃ anySlid : Slid,
    exec .reset s = .next { s with
      run := .unconfigured
      ownSlid := anySlid
      txSeq := 0
      seq := []
      out := List.replicate s.params.nOut .free
      result := {}
      draws := s.draws + 1 }

/-- R352: CFG_LOAD. Refused outside Unconfigured; no record, or one shorter than five bytes, is
NotInitialized; a wrong version byte is VersionMismatch; a slid out of range is fatal; else the record's
slid becomes OWN_SLID and SLC runs. -/
def Obligations.CfgLoadOutcomes : Prop :=
  (∀ (s : State) (record : Option Bytes), s.run ≠ .unconfigured →
    exec (.cfgLoad record) s = .next { s with result := { status := .refusedState } }) ∧
  (∀ (s : State) (record : Option Bytes), s.run = .unconfigured →
    (∀ b, record = some b → b.length < 5) →
    exec (.cfgLoad record) s = .next { s with
      run := .fatal
      result := { status := .cfgFatal, exc := some .configNotInitialized }
      events := s.events ++ [.log .fatal .configNotInitialized] }) ∧
  (∀ (s : State) (v : Byte) (slid : Slid) (more : Bytes), s.run = .unconfigured →
    v ≠ s.params.nodeConfigVersion →
    exec (.cfgLoad (some ([v] ++ le32 slid ++ more))) s = .next { s with
      run := .fatal
      result := { status := .cfgFatal, exc := some .configVersionMismatch }
      events := s.events ++ [.log .fatal .configVersionMismatch] }) ∧
  (∀ (s : State) (slid : Slid) (more : Bytes), s.run = .unconfigured →
    (slid.toNat < 0x100 ∨ 0x10FF < slid.toNat) →
    exec (.cfgLoad (some ([s.params.nodeConfigVersion] ++ le32 slid ++ more))) s = .next { s with
      run := .fatal
      result := { status := .cfgFatal, exc := some .addressOutOfRange, slid := slid }
      events := s.events ++ [.log .fatal .addressOutOfRange] }) ∧
  (∀ (s : State) (slid : Slid) (more : Bytes), s.run = .unconfigured →
    0x100 ≤ slid.toNat → slid.toNat ≤ 0x10FF →
    exec (.cfgLoad (some ([s.params.nodeConfigVersion] ++ le32 slid ++ more))) s = .next { s with
      run := .running
      ownSlid := slid
      result := { status := .cfgOk, slid := slid } })

/-- R356: the run-state gate. Outside Running every command but RESET and CFG_LOAD, and every arriving
frame, writes NOT_RUNNING and does nothing else; CFG_LOAD acts only in Unconfigured; RESET always
acts. -/
def Obligations.RunStateGate : Prop :=
  (∀ (i : Instr) (s : State), s.run ≠ .running → i ≠ .reset → (∀ r, i ≠ .cfgLoad r) →
    exec i s = .next { s with result := { status := .notRunning } }) ∧
  (∀ (s : State) (r : Option Bytes), s.run ≠ .unconfigured →
    exec (.cfgLoad r) s = .next { s with result := { status := .refusedState } }) ∧
  (∀ (s : State), ∃ t, exec .reset s = .next t ∧ t.run = .unconfigured)

/-- R355, the config gate: once CFG_LOAD has found a wrong version, no list of further commands without
a RESET changes anything but RESULT or emits anything. -/
def Obligations.ConfigGateHolds : Prop :=
  ∀ (s : State) (v : Byte) (slid : Slid) (more : Bytes) (commands : List Instr),
    s.run = .unconfigured → v ≠ s.params.nodeConfigVersion → Instr.reset ∉ commands →
    ∃ t u, exec (.cfgLoad (some ([v] ++ le32 slid ++ more))) s = .next t ∧ t.run = .fatal ∧
      t.result.exc = some .configVersionMismatch ∧
      runAll commands t = .next u ∧ u = { t with result := u.result } ∧
      (commands ≠ [] → u.result.status = .notRunning ∨ u.result.status = .refusedState)

/-! ### The whole machine -/

/-- R332, precision: a command that ends in an exception or in a refusal changes nothing but RESULT,
and RUN under CFG_LOAD, and emits nothing but LOG. -/
def Obligations.PrecisionLaw : Prop :=
  ∀ (i : Instr) (s t : State), exec i s = .next t →
    (t.result.exc ≠ none ∨ noEffectStatus t.result.status = true) →
    t.seq = s.seq ∧ t.out = s.out ∧ t.txSeq = s.txSeq ∧ t.ownSlid = s.ownSlid ∧
      (t.run = s.run ∨ ∃ r, i = .cfgLoad r) ∧ visible t.events = visible s.events

/-- AN INVARIANT THAT EVERY STEP KEEPS (R34, R42, R44, R45, R47, R350, R356). -/
def Obligations.StepKeepsInvariant : Prop :=
  ∀ s t : State, s.Inv → step s = .next t → t.Inv

/-- The state after reset meets the invariant, whatever the configuration. That a legal configuration
stands in place of an illegal one is the model's choice (log entry 2). -/
def Obligations.ResetStateMeetsInvariant : Prop := State.reset.Inv

/-- R33, R34, R35, R41: who writes the registers. RUN: RESET and CFG_LOAD. OWN_SLID: a CFG_LOAD (and
RESET, which leaves it unspecified). TXSEQ: SEND, by one, and RESET. The configuration: nothing. -/
def Obligations.WritersOfRegisters : Prop :=
  ∀ (i : Instr) (s t : State), exec i s = .next t →
    (t.run ≠ s.run → i = .reset ∨ ∃ r, i = .cfgLoad r) ∧
    (t.ownSlid ≠ s.ownSlid → i = .reset ∨ ∃ r, i = .cfgLoad r ∧ t.run = .running) ∧
    (t.txSeq ≠ s.txSeq → i = .reset ∨
      ∃ op slid payload rssi now, i = .send op slid payload rssi now ∧ t.txSeq = s.txSeq + 1) ∧
    t.params = s.params ∧ t.port = s.port

/-- R43: SEQ entries of different SLIDs never affect each other. An arriving frame writes at most the
entry of its own header's slid, with its own number; commands other than RX and RESET write none. -/
def Obligations.SeqEntriesIndependent : Prop :=
  (∀ (b : Bytes) (s t : State), exec (.rx b) s = .next t → t.seq ≠ s.seq →
    ∃ d hdr payload, opLookup s.params (b.headD 0) = some d ∧
      decodeKind d.headerKind b = some (hdr, payload) ∧ validSlid hdr.slid = true ∧
      (d.opClass = .app ∨ d.opClass = .admin) ∧
      seqRead t.seq (seqIndex hdr.slid) = some hdr.pkgNum ∧
      ∀ j, j ≠ seqIndex hdr.slid → seqRead t.seq j = seqRead s.seq j) ∧
  (∀ (i : Instr) (s t : State), exec i s = .next t → wireArrival i = false → i ≠ .reset →
    (∀ b, i ≠ .rx b) → t.seq = s.seq)

/-- R322, R18: the draws `io_ok` change RESULT.io_err and nothing else: two states that differ in
their draws alone are taken to next states that differ in their draws and io_err alone. RESET, which
draws the unspecified OWN_SLID from the same counter (the model's choice, log entry 4), is the one
exception. -/
def Obligations.IoDrawsOnlySetIoErr : Prop :=
  ∀ (i : Instr) (s t : State) (n : Nat), i ≠ .reset → exec i s = .next t →
    ∃ t', exec i { s with draws := n } = .next t' ∧ t'.withoutDraws = t.withoutDraws

/-- R15, R82: a command only adds events behind those already emitted. That State keeps them all is the
model's choice (log entry 7). -/
def Obligations.EventsOnlyGrow : Prop :=
  ∀ s t : State, step s = .next t → ∃ more, t.events = s.events ++ more
end

