-- ==== Sys2Proof/Laws/State.lean ====
section
/-! SUPPORT. One lemma per field per update of State, so that no proof unfolds an update. -/

namespace Sys2Proof.Machine

/-! ### emit -/

@[simp] theorem emit_run (e : Event) (s : State) :
    (emit e s).run = s.run := rfl

@[simp] theorem emit_ownSlid (e : Event) (s : State) :
    (emit e s).ownSlid = s.ownSlid := rfl

@[simp] theorem emit_txSeq (e : Event) (s : State) :
    (emit e s).txSeq = s.txSeq := rfl

@[simp] theorem emit_seq (e : Event) (s : State) :
    (emit e s).seq = s.seq := rfl

@[simp] theorem emit_out (e : Event) (s : State) :
    (emit e s).out = s.out := rfl

@[simp] theorem emit_params (e : Event) (s : State) :
    (emit e s).params = s.params := rfl

@[simp] theorem emit_port (e : Event) (s : State) :
    (emit e s).port = s.port := rfl

@[simp] theorem emit_events (e : Event) (s : State) :
    (emit e s).events = s.events ++ [e] := rfl

@[simp] theorem emit_draws (e : Event) (s : State) :
    (emit e s).draws = if e.isTx then s.draws + 1 else s.draws := rfl

@[simp] theorem emit_result (e : Event) (s : State) :
    (emit e s).result = { s.result with ioErr := s.result.ioErr || (e.isTx && !Config.ioOk s.draws) } := rfl

/-! ### setResult -/

@[simp] theorem setResult_run (r : Result) (s : State) :
    (setResult r s).run = s.run := rfl

@[simp] theorem setResult_ownSlid (r : Result) (s : State) :
    (setResult r s).ownSlid = s.ownSlid := rfl

@[simp] theorem setResult_txSeq (r : Result) (s : State) :
    (setResult r s).txSeq = s.txSeq := rfl

@[simp] theorem setResult_seq (r : Result) (s : State) :
    (setResult r s).seq = s.seq := rfl

@[simp] theorem setResult_out (r : Result) (s : State) :
    (setResult r s).out = s.out := rfl

@[simp] theorem setResult_params (r : Result) (s : State) :
    (setResult r s).params = s.params := rfl

@[simp] theorem setResult_port (r : Result) (s : State) :
    (setResult r s).port = s.port := rfl

@[simp] theorem setResult_events (r : Result) (s : State) :
    (setResult r s).events = s.events := rfl

@[simp] theorem setResult_draws (r : Result) (s : State) :
    (setResult r s).draws = s.draws := rfl

@[simp] theorem setResult_result (r : Result) (s : State) :
    (setResult r s).result = { r with ioErr := s.result.ioErr } := rfl

/-! ### logSoft -/

@[simp] theorem logSoft_run (x : ExcKind) (s : State) :
    (logSoft x s).run = s.run := rfl

@[simp] theorem logSoft_ownSlid (x : ExcKind) (s : State) :
    (logSoft x s).ownSlid = s.ownSlid := rfl

@[simp] theorem logSoft_txSeq (x : ExcKind) (s : State) :
    (logSoft x s).txSeq = s.txSeq := rfl

@[simp] theorem logSoft_seq (x : ExcKind) (s : State) :
    (logSoft x s).seq = s.seq := rfl

@[simp] theorem logSoft_out (x : ExcKind) (s : State) :
    (logSoft x s).out = s.out := rfl

@[simp] theorem logSoft_params (x : ExcKind) (s : State) :
    (logSoft x s).params = s.params := rfl

@[simp] theorem logSoft_port (x : ExcKind) (s : State) :
    (logSoft x s).port = s.port := rfl

@[simp] theorem logSoft_events (x : ExcKind) (s : State) :
    (logSoft x s).events = s.events ++ [.log (logLevel x) x] := rfl

@[simp] theorem logSoft_draws (x : ExcKind) (s : State) :
    (logSoft x s).draws = s.draws := rfl

@[simp] theorem logSoft_result (x : ExcKind) (s : State) :
    (logSoft x s).result = s.result := by
  simp [logSoft, Event.isTx]

/-! ### raise -/

@[simp] theorem raise_run (k : Raised) (r : Result) (s : State) :
    (raise k r s).run = s.run := rfl

@[simp] theorem raise_ownSlid (k : Raised) (r : Result) (s : State) :
    (raise k r s).ownSlid = s.ownSlid := rfl

@[simp] theorem raise_txSeq (k : Raised) (r : Result) (s : State) :
    (raise k r s).txSeq = s.txSeq := rfl

@[simp] theorem raise_seq (k : Raised) (r : Result) (s : State) :
    (raise k r s).seq = s.seq := rfl

@[simp] theorem raise_out (k : Raised) (r : Result) (s : State) :
    (raise k r s).out = s.out := rfl

@[simp] theorem raise_params (k : Raised) (r : Result) (s : State) :
    (raise k r s).params = s.params := rfl

@[simp] theorem raise_port (k : Raised) (r : Result) (s : State) :
    (raise k r s).port = s.port := rfl

@[simp] theorem raise_events (k : Raised) (r : Result) (s : State) :
    (raise k r s).events = s.events ++ [.log (logLevel (raisedKind k)) (raisedKind k)] := rfl

@[simp] theorem raise_draws (k : Raised) (r : Result) (s : State) :
    (raise k r s).draws = s.draws := rfl

@[simp] theorem raise_result (k : Raised) (r : Result) (s : State) :
    (raise k r s).result = { r with status := raisedStatus k, exc := some (raisedKind k), ioErr := s.result.ioErr } := by
  simp [raise, Event.isTx]

/-! ### cfgFatal -/

@[simp] theorem cfgFatal_run (x : ExcKind) (sl : Slid) (s : State) :
    (cfgFatal x sl s).run = .fatal := rfl

@[simp] theorem cfgFatal_ownSlid (x : ExcKind) (sl : Slid) (s : State) :
    (cfgFatal x sl s).ownSlid = s.ownSlid := rfl

@[simp] theorem cfgFatal_txSeq (x : ExcKind) (sl : Slid) (s : State) :
    (cfgFatal x sl s).txSeq = s.txSeq := rfl

@[simp] theorem cfgFatal_seq (x : ExcKind) (sl : Slid) (s : State) :
    (cfgFatal x sl s).seq = s.seq := rfl

@[simp] theorem cfgFatal_out (x : ExcKind) (sl : Slid) (s : State) :
    (cfgFatal x sl s).out = s.out := rfl

@[simp] theorem cfgFatal_params (x : ExcKind) (sl : Slid) (s : State) :
    (cfgFatal x sl s).params = s.params := rfl

@[simp] theorem cfgFatal_port (x : ExcKind) (sl : Slid) (s : State) :
    (cfgFatal x sl s).port = s.port := rfl

@[simp] theorem cfgFatal_events (x : ExcKind) (sl : Slid) (s : State) :
    (cfgFatal x sl s).events = s.events ++ [.log .fatal x] := rfl

@[simp] theorem cfgFatal_draws (x : ExcKind) (sl : Slid) (s : State) :
    (cfgFatal x sl s).draws = s.draws := rfl

@[simp] theorem cfgFatal_result (x : ExcKind) (sl : Slid) (s : State) :
    (cfgFatal x sl s).result = { status := .cfgFatal, exc := some x, slid := sl } := rfl

/-! ### putFirst -/

@[simp] theorem putFirst_run (m : Bytes) (s : State) :
    (putFirst m s).run = s.run := rfl

@[simp] theorem putFirst_ownSlid (m : Bytes) (s : State) :
    (putFirst m s).ownSlid = s.ownSlid := rfl

@[simp] theorem putFirst_txSeq (m : Bytes) (s : State) :
    (putFirst m s).txSeq = s.txSeq := rfl

@[simp] theorem putFirst_seq (m : Bytes) (s : State) :
    (putFirst m s).seq = s.seq := rfl

@[simp] theorem putFirst_out (m : Bytes) (s : State) :
    (putFirst m s).out = s.out := rfl

@[simp] theorem putFirst_params (m : Bytes) (s : State) :
    (putFirst m s).params = s.params := rfl

@[simp] theorem putFirst_port (m : Bytes) (s : State) :
    (putFirst m s).port = m :: s.port := rfl

@[simp] theorem putFirst_events (m : Bytes) (s : State) :
    (putFirst m s).events = s.events := rfl

@[simp] theorem putFirst_draws (m : Bytes) (s : State) :
    (putFirst m s).draws = s.draws := rfl

@[simp] theorem putFirst_result (m : Bytes) (s : State) :
    (putFirst m s).result = s.result := rfl

/-! ### withoutDraws -/

@[simp] theorem withoutDraws_run (s : State) :
    (s.withoutDraws).run = s.run := rfl

@[simp] theorem withoutDraws_ownSlid (s : State) :
    (s.withoutDraws).ownSlid = s.ownSlid := rfl

@[simp] theorem withoutDraws_txSeq (s : State) :
    (s.withoutDraws).txSeq = s.txSeq := rfl

@[simp] theorem withoutDraws_seq (s : State) :
    (s.withoutDraws).seq = s.seq := rfl

@[simp] theorem withoutDraws_out (s : State) :
    (s.withoutDraws).out = s.out := rfl

@[simp] theorem withoutDraws_params (s : State) :
    (s.withoutDraws).params = s.params := rfl

@[simp] theorem withoutDraws_port (s : State) :
    (s.withoutDraws).port = s.port := rfl

@[simp] theorem withoutDraws_events (s : State) :
    (s.withoutDraws).events = s.events := rfl

@[simp] theorem withoutDraws_draws (s : State) :
    (s.withoutDraws).draws = 0 := rfl

@[simp] theorem withoutDraws_result (s : State) :
    (s.withoutDraws).result = { s.result with ioErr := false } := rfl

/-! ### emitAll: what it leaves alone -/

@[simp] theorem emitAll_run (es : List Event) (s : State) : (emitAll es s).run = s.run := by
  induction es generalizing s with
  | nil => rfl
  | cons e es ih => simp [emitAll, ih]

@[simp] theorem emitAll_ownSlid (es : List Event) (s : State) : (emitAll es s).ownSlid = s.ownSlid := by
  induction es generalizing s with
  | nil => rfl
  | cons e es ih => simp [emitAll, ih]

@[simp] theorem emitAll_txSeq (es : List Event) (s : State) : (emitAll es s).txSeq = s.txSeq := by
  induction es generalizing s with
  | nil => rfl
  | cons e es ih => simp [emitAll, ih]

@[simp] theorem emitAll_seq (es : List Event) (s : State) : (emitAll es s).seq = s.seq := by
  induction es generalizing s with
  | nil => rfl
  | cons e es ih => simp [emitAll, ih]

@[simp] theorem emitAll_out (es : List Event) (s : State) : (emitAll es s).out = s.out := by
  induction es generalizing s with
  | nil => rfl
  | cons e es ih => simp [emitAll, ih]

@[simp] theorem emitAll_params (es : List Event) (s : State) : (emitAll es s).params = s.params := by
  induction es generalizing s with
  | nil => rfl
  | cons e es ih => simp [emitAll, ih]

@[simp] theorem emitAll_port (es : List Event) (s : State) : (emitAll es s).port = s.port := by
  induction es generalizing s with
  | nil => rfl
  | cons e es ih => simp [emitAll, ih]

@[simp] theorem emitAll_events (es : List Event) (s : State) :
    (emitAll es s).events = s.events ++ es := by
  induction es generalizing s with
  | nil => simp [emitAll]
  | cons e es ih => simp [emitAll, ih]

/-- Every TX among the events draws one bit (R18). -/
theorem emitAll_draws (es : List Event) (s : State) :
    (emitAll es s).draws = s.draws + es.countP Event.isTx := by
  induction es generalizing s with
  | nil => rfl
  | cons e es ih =>
    rw [emitAll, ih, List.countP_cons]
    cases h : e.isTx
    · simp [emit, h]
    · simp [emit, h, Nat.add_assoc, Nat.add_comm 1]

/-- Emitting changes of RESULT `io_err` alone, which tells whether one of the bits drawn is false (R36,
R322). -/
theorem emitAll_result (es : List Event) (s : State) :
    (emitAll es s).result = { s.result with
      ioErr := s.result.ioErr ||
        (List.range (es.countP Event.isTx)).any fun k => !Config.ioOk (s.draws + k) } := by
  induction es generalizing s with
  | nil => simp [emitAll]
  | cons e es ih =>
    rw [emitAll, ih, List.countP_cons]
    cases h : e.isTx
    · simp [emit, h]
    · simp [emit, h, List.range_succ_eq_map, Bool.or_assoc, List.any_map, Function.comp_def,
        Nat.add_assoc, Nat.add_comm 1]

end Sys2Proof.Machine
end

