-- ==== Sys2Proof/Laws/Codec.lean ====
section
/-! SUPPORT. Byte order and the header codec: what decoding finds in an encoded frame. -/

namespace Sys2Proof

theorem fromLe16_le16 (v : PkgNum) :
    fromLe16 (BitVec.ofNat 8 v.toNat) (BitVec.ofNat 8 (v.toNat / 256)) = v := by
  apply BitVec.eq_of_toNat_eq
  have := v.isLt
  simp only [fromLe16, BitVec.toNat_ofNat]
  omega

theorem fromLe32_le32 (v : BitVec 32) :
    fromLe32 (BitVec.ofNat 8 v.toNat) (BitVec.ofNat 8 (v.toNat / 2 ^ 8))
      (BitVec.ofNat 8 (v.toNat / 2 ^ 16)) (BitVec.ofNat 8 (v.toNat / 2 ^ 24)) = v := by
  apply BitVec.eq_of_toNat_eq
  have := v.isLt
  simp only [fromLe32, BitVec.toNat_ofNat]
  omega

theorem toNat_fromLe16 (a b : Byte) : (fromLe16 a b).toNat = a.toNat + 256 * b.toNat := by
  have := a.isLt
  have := b.isLt
  simp only [fromLe16, BitVec.toNat_ofNat]
  omega

theorem toNat_fromLe32 (a b c d : Byte) : (fromLe32 a b c d).toNat =
    a.toNat + 2 ^ 8 * b.toNat + 2 ^ 16 * c.toNat + 2 ^ 24 * d.toNat := by
  have := a.isLt
  have := b.isLt
  have := c.isLt
  have := d.isLt
  simp only [fromLe32, BitVec.toNat_ofNat]
  omega

theorem le16_fromLe16 (a b : Byte) : le16 (fromLe16 a b) = [a, b] := by
  have := a.isLt
  have := b.isLt
  simp only [le16, toNat_fromLe16, List.cons.injEq, and_true]
  constructor <;> apply BitVec.eq_of_toNat_eq <;> simp only [BitVec.toNat_ofNat] <;> omega

theorem le32_fromLe32 (a b c d : Byte) : le32 (fromLe32 a b c d) = [a, b, c, d] := by
  have := a.isLt
  have := b.isLt
  have := c.isLt
  have := d.isLt
  simp only [le32, toNat_fromLe32, List.cons.injEq, and_true]
  refine ⟨?_, ?_, ?_, ?_⟩ <;> apply BitVec.eq_of_toNat_eq <;>
    simp only [BitVec.toNat_ofNat] <;> omega

theorem length_le16 (v : PkgNum) : (le16 v).length = 2 := rfl

theorem length_le32 (v : BitVec 32) : (le32 v).length = 4 := rfl

theorem length_ctrlFrame (op : OpCode) (slid : Slid) (pkg : PkgNum) (rest : Bytes) :
    (ctrlFrame op slid pkg rest).length = 7 + rest.length := by
  simp [ctrlFrame, encCtrl, length_le16, length_le32]
  omega

theorem length_dataFrame (op : OpCode) (slid : Slid) (pkg : PkgNum) (rssi : Byte) (rest : Bytes) :
    (dataFrame op slid pkg rssi rest).length = 8 + rest.length := by
  simp [dataFrame, encData, length_le16, length_le32]
  omega

/-- A control-kind frame starts with its op. -/
theorem ctrlFrame_cons (op : OpCode) (slid : Slid) (pkg : PkgNum) (rest : Bytes) :
    ctrlFrame op slid pkg rest = op :: (le32 slid ++ le16 pkg ++ rest) := by
  simp [ctrlFrame, encCtrl]

/-- A data-kind frame starts with its op. -/
theorem dataFrame_cons (op : OpCode) (slid : Slid) (pkg : PkgNum) (rssi : Byte) (rest : Bytes) :
    dataFrame op slid pkg rssi rest = op :: (le32 slid ++ le16 pkg ++ [rssi] ++ rest) := by
  simp [dataFrame, encData]

theorem decCtrl_ctrlFrame (op : OpCode) (slid : Slid) (pkg : PkgNum) (rest : Bytes) :
    decCtrl (ctrlFrame op slid pkg rest) = some (⟨op, slid, pkg⟩, rest) := by
  simp only [ctrlFrame, encCtrl, le32, le16, List.cons_append, List.nil_append, decCtrl,
    fromLe32_le32, fromLe16_le16]

theorem decData_dataFrame (op : OpCode) (slid : Slid) (pkg : PkgNum) (rssi : Byte) (rest : Bytes) :
    decData (dataFrame op slid pkg rssi rest) = some (⟨op, slid, pkg, rssi⟩, rest) := by
  simp only [dataFrame, encData, le32, le16, List.cons_append, List.nil_append, decData,
    fromLe32_le32, fromLe16_le16]

/-- What a decoded control header says of its frame. -/
theorem eq_of_decCtrl (b : Bytes) (h : CtrlHeader) (p : Bytes) (hd : decCtrl b = some (h, p)) :
    b = encCtrl h ++ p := by
  match b, hd with
  | a :: s0 :: s1 :: s2 :: s3 :: p0 :: p1 :: rest, hd =>
    simp only [decCtrl, Option.some.injEq, Prod.mk.injEq] at hd
    obtain ⟨rfl, rfl⟩ := hd
    simp [encCtrl, le32_fromLe32, le16_fromLe16]

/-- What a decoded data header says of its frame. -/
theorem eq_of_decData (b : Bytes) (h : DataHeader) (p : Bytes) (hd : decData b = some (h, p)) :
    b = encData h ++ p := by
  match b, hd with
  | a :: s0 :: s1 :: s2 :: s3 :: p0 :: p1 :: r :: rest, hd =>
    simp only [decData, Option.some.injEq, Prod.mk.injEq] at hd
    obtain ⟨rfl, rfl⟩ := hd
    simp [encData, le32_fromLe32, le16_fromLe16]

namespace Machine

theorem validSlid_iff (s : Slid) : validSlid s = true ↔ 0x100 ≤ s.toNat ∧ s.toNat ≤ 0x10FF := by
  simp [validSlid]

theorem length_encodeKind (k : HeaderKind) (op : OpCode) (slid : Slid) (pkg : PkgNum) (rssi : Byte) :
    (encodeKind k op slid pkg rssi).length = hlen k := by
  cases k <;> simp [encodeKind, hlen, encData, encCtrl, length_le16, length_le32]

/-- DECODE of a control-kind frame. -/
theorem decodeKind_ctrlFrame (op : OpCode) (slid : Slid) (pkg : PkgNum) (rest : Bytes) :
    decodeKind .control (ctrlFrame op slid pkg rest) = some (⟨op, slid, pkg, 0⟩, rest) := by
  simp [decodeKind, decCtrl_ctrlFrame]

/-- DECODE of a data-kind frame. -/
theorem decodeKind_dataFrame (op : OpCode) (slid : Slid) (pkg : PkgNum) (rssi : Byte) (rest : Bytes) :
    decodeKind .data (dataFrame op slid pkg rssi rest) = some (⟨op, slid, pkg, rssi⟩, rest) := by
  simp [decodeKind, decData_dataFrame]

/-- What a decoded header says of its frame: it is the encoding of the header, then the payload. -/
theorem eq_of_decodeKind (k : HeaderKind) (b : Bytes) (h : Header) (p : Bytes)
    (hd : decodeKind k b = some (h, p)) :
    b = encodeKind k h.op h.slid h.pkgNum h.rssi ++ p := by
  cases k with
  | data =>
    simp only [decodeKind, Option.map_eq_some_iff, Prod.mk.injEq, Prod.exists] at hd
    obtain ⟨h', p', hd, rfl, rfl⟩ := hd
    exact eq_of_decData b h' p' hd
  | control =>
    simp only [decodeKind, Option.map_eq_some_iff, Prod.mk.injEq, Prod.exists] at hd
    obtain ⟨h', p', hd, rfl, rfl⟩ := hd
    exact eq_of_decCtrl b h' p' hd

/-- DECODE refuses exactly the frames shorter than the header. -/
theorem decodeKind_eq_none (k : HeaderKind) (b : Bytes) :
    decodeKind k b = none ↔ b.length < hlen k := by
  cases k
  · simp only [decodeKind, Option.map_eq_none_iff, hlen]
    rcases b with _ | ⟨a0, _ | ⟨a1, _ | ⟨a2, _ | ⟨a3, _ | ⟨a4, _ | ⟨a5, _ | ⟨a6, _ | ⟨a7, rest⟩⟩⟩⟩⟩⟩⟩⟩ <;>
      simp [decData]
  · simp only [decodeKind, Option.map_eq_none_iff, hlen]
    rcases b with _ | ⟨a0, _ | ⟨a1, _ | ⟨a2, _ | ⟨a3, _ | ⟨a4, _ | ⟨a5, _ | ⟨a6, rest⟩⟩⟩⟩⟩⟩⟩ <;>
      simp [decCtrl]

end Machine
end Sys2Proof
end

