-- ==== Sys2Proof/Laws/Ops.lean ====
section
/-! SUPPORT. For each shared operation, once, everything it can do. -/

namespace Sys2Proof.Machine

/-! ### The run-state gate and the operand domain -/

theorem whenRunning_running (act : State → Host.Outcome State Fault Refusal) (s : State)
    (h : s.run = .running) : whenRunning act s = act { s with result := {} } := by
  simp [whenRunning, h]

theorem whenRunning_not_running (act : State → Host.Outcome State Fault Refusal) (s : State)
    (h : s.run ≠ .running) :
    whenRunning act s = .next { s with result := { status := .notRunning } } := by
  unfold whenRunning
  split
  · contradiction
  · rfl

/-- What a gated command can answer. -/
theorem whenRunning_next (act : State → Host.Outcome State Fault Refusal) (s t : State)
    (h : whenRunning act s = .next t) :
    (s.run = .running ∧ act { s with result := {} } = .next t) ∨
    (s.run ≠ .running ∧ t = { s with result := { status := .notRunning } }) := by
  by_cases hr : s.run = .running
  · exact .inl ⟨hr, by rwa [whenRunning_running act s hr] at h⟩
  · rw [whenRunning_not_running act s hr] at h
    exact .inr ⟨hr, by cases h; rfl⟩

theorem withinMaxFrame_of_le (b : Bytes) (act : State → State) (s : State)
    (h : b.length ≤ s.params.maxFrame) : withinMaxFrame b act s = .next (act s) := by
  simp [withinMaxFrame, Nat.not_lt.mpr h]

theorem withinMaxFrame_of_lt (b : Bytes) (act : State → State) (s : State)
    (h : s.params.maxFrame < b.length) : withinMaxFrame b act s = .refused .frameOverMaxFrame := by
  simp [withinMaxFrame, h]

theorem withinMaxFrame_next (b : Bytes) (act : State → State) (s t : State)
    (h : withinMaxFrame b act s = .next t) : b.length ≤ s.params.maxFrame ∧ t = act s := by
  unfold withinMaxFrame at h
  split at h
  · cases h
  · rename_i hl
    exact ⟨Nat.not_lt.mp hl, by cases h; rfl⟩

/-- An arrival while Running, of a frame in the operand domain. -/
theorem receive_running (b : Bytes) (s : State) (h : s.run = .running)
    (hl : b.length ≤ s.params.maxFrame) :
    receive b s = .next (rxRun b { s with result := {} }) := by
  rw [receive, whenRunning_running _ s h]
  exact withinMaxFrame_of_le b (rxRun b) { s with result := {} } hl

/-- What an arrival can answer. -/
theorem receive_next (b : Bytes) (s t : State) (h : receive b s = .next t) :
    (s.run = .running ∧ b.length ≤ s.params.maxFrame ∧ t = rxRun b { s with result := {} }) ∨
    (s.run ≠ .running ∧ t = { s with result := { status := .notRunning } }) := by
  rcases whenRunning_next _ s t h with ⟨hr, ha⟩ | hn
  · exact .inl ⟨hr, withinMaxFrame_next _ _ _ _ ha⟩
  · exact .inr hn

/-! ### SEQ -/

/-- A write keeps the canonical form. -/
theorem seqWfFrom_write (t : SeqTable) (lo i : Nat) (v : PkgNum) (h : seqWfFrom lo t = true)
    (hlo : lo ≤ i) (hi : i < 4096) : seqWfFrom lo (seqWrite t i v) = true := by
  induction t generalizing lo with
  | nil => simp [seqWrite, seqWfFrom, hlo, hi]
  | cons c t ih =>
    obtain ⟨j, w⟩ := c
    simp only [seqWfFrom, Bool.and_eq_true, decide_eq_true_eq] at h
    unfold seqWrite
    split
    · rename_i hlt
      simp [seqWfFrom, hlo, hi, h.1.2, h.2]
      omega
    · split
      · rename_i heq
        subst heq
        simp [seqWfFrom, hlo, hi, h.2]
      · have hgt : j + 1 ≤ i := by omega
        simp [seqWfFrom, h.1.1, h.1.2, ih (j + 1) h.2 hgt]

theorem seqWrite_wf (t : SeqTable) (i : Nat) (v : PkgNum) (h : seqWf t = true) (hi : i < 4096) :
    seqWf (seqWrite t i v) = true := seqWfFrom_write t 0 i v h (Nat.zero_le i) hi

theorem seqIndex_lt (s : Slid) (h : validSlid s = true) : seqIndex s < 4096 := by
  have := (validSlid_iff s).mp h
  unfold seqIndex
  omega

/-- The sequence check keeps the canonical form. -/
theorem seqAdvance_wf (t : SeqTable) (slid : Slid) (pkg : PkgNum) (h : seqWf t = true)
    (hv : validSlid slid = true) : seqWf (seqAdvance t slid pkg) = true := by
  unfold seqAdvance
  split
  · exact seqWrite_wf t (seqIndex slid) pkg h (seqIndex_lt slid hv)
  · exact h

theorem seqWf_reset : seqWf State.reset.seq = true := rfl

/-- The sequence check, in the words claims use. -/
theorem seqNew_iff (s : State) (slid : Slid) (pkg : PkgNum) :
    seqNew s.seq slid pkg = true ↔ IsNew s slid pkg := by
  unfold seqNew IsNew sdiff16
  generalize seqRead s.seq (seqIndex slid) = entry
  cases entry <;> simp

/-! ### OUT -/

/-- The lowest Free entry. -/
theorem firstFree_eq_some (out : List OutSlot) (h : Nat) (hf : out[h]? = some .free)
    (hl : ∀ j, j < h → out[j]? ≠ some .free) : firstFree out = some h := by
  obtain ⟨hlt, hval⟩ := List.getElem?_eq_some_iff.mp hf
  rw [firstFree, List.findIdx?_eq_some_iff_getElem]
  refine ⟨hlt, by simp [hval, OutSlot.isFree], ?_⟩
  intro j hj
  have := hl j hj
  have hjlt : j < out.length := by omega
  rw [List.getElem?_eq_getElem hjlt] at this
  cases hs : out[j] with
  | free => simp [hs] at this
  | sent e => simp [OutSlot.isFree]

theorem firstFree_eq_none (out : List OutSlot) (h : ∀ slot ∈ out, slot ≠ .free) :
    firstFree out = none := by
  rw [firstFree, List.findIdx?_eq_none_iff]
  intro slot hs
  cases slot with
  | free => exact absurd rfl (h _ hs)
  | sent e => rfl

/-- What the search for a Free entry finds. -/
theorem free_of_firstFree (out : List OutSlot) (h : Nat) (hf : firstFree out = some h) :
    h < out.length ∧ out[h]? = some .free := by
  rw [firstFree, List.findIdx?_eq_some_iff_getElem] at hf
  obtain ⟨hlt, hval, -⟩ := hf
  refine ⟨hlt, ?_⟩
  rw [List.getElem?_eq_getElem hlt]
  cases hs : out[h] with
  | free => rfl
  | sent e => simp [hs, OutSlot.isFree] at hval

theorem ackMatches_iff (hdr : Header) (slot : OutSlot) :
    ackMatches hdr slot = true ↔ Awaits slot hdr.op hdr.slid hdr.pkgNum := by
  cases slot with
  | free => simp [ackMatches, Awaits]
  | sent e =>
    simp only [ackMatches, decide_eq_true_eq, Awaits, OutSlot.sent.injEq]
    constructor
    · rintro ⟨h1, h2, h3⟩
      exact ⟨e, rfl, h1, h2, h3⟩
    · rintro ⟨_, rfl, h1, h2, h3⟩
      exact ⟨h1, h2, h3⟩

/-- The lowest entry an ack matches. -/
theorem firstMatch_eq_some (hdr : Header) (out : List OutSlot) (h : Nat) (slot : OutSlot)
    (hs : out[h]? = some slot) (ha : Awaits slot hdr.op hdr.slid hdr.pkgNum)
    (hl : ∀ j slot', j < h → out[j]? = some slot' → ¬ Awaits slot' hdr.op hdr.slid hdr.pkgNum) :
    firstMatch hdr out = some h := by
  obtain ⟨hlt, hval⟩ := List.getElem?_eq_some_iff.mp hs
  rw [firstMatch, List.findIdx?_eq_some_iff_getElem]
  refine ⟨hlt, by rw [hval]; exact (ackMatches_iff hdr slot).mpr ha, ?_⟩
  intro j hj
  have hjlt : j < out.length := by omega
  have := hl j out[j] hj (List.getElem?_eq_getElem hjlt)
  rwa [← ackMatches_iff] at this

theorem firstMatch_eq_none (hdr : Header) (out : List OutSlot)
    (h : ∀ slot ∈ out, ¬ Awaits slot hdr.op hdr.slid hdr.pkgNum) : firstMatch hdr out = none := by
  rw [firstMatch, List.findIdx?_eq_none_iff]
  intro slot hs
  have := h slot hs
  rw [← ackMatches_iff] at this
  simpa using this

/-! ### OPLOOKUP -/

/-- An op that OPLOOKUP answers lies in the table's range. -/
theorem opLookup_range (p : Params) (op : OpCode) (d : Descriptor) (h : opLookup p op = some d) :
    0x30 ≤ op.toNat ∧ op.toNat ≤ 0x3F ∧ p.optab[op.toNat - 0x30]? = some d := by
  unfold opLookup at h
  split at h
  · rename_i hr
    exact ⟨hr.1, hr.2, h⟩
  · cases h

theorem opLookup_out_of_range (p : Params) (op : OpCode) (h : op.toNat < 0x30 ∨ 0x3F < op.toNat) :
    opLookup p op = none := by
  unfold opLookup
  rw [if_neg]
  omega

/-- Under a well-formed table the range alone decides. -/
theorem opLookup_isSome (p : Params) (op : OpCode) (hw : p.wf = true) (h1 : 0x30 ≤ op.toNat)
    (h2 : op.toNat ≤ 0x3F) : ∃ d, opLookup p op = some d := by
  have hlen : p.optab.length = 16 := by
    simp only [Params.wf, Params.optabWf, Params.optabSized, Bool.and_eq_true, beq_iff_eq] at hw
    tauto
  refine ⟨p.optab[op.toNat - 0x30]'(by omega), ?_⟩
  unfold opLookup
  rw [if_pos ⟨h1, h2⟩, List.getElem?_eq_getElem]

/-- A check that every row of the table passes holds of the row OPLOOKUP answers. -/
theorem everyRow_opLookup (p : Params) (check : Nat → Descriptor → Bool) (op : OpCode)
    (d : Descriptor) (hc : Params.everyRow p.optab check = true) (h : opLookup p op = some d) :
    check (op.toNat - 0x30) d = true := by
  obtain ⟨h1, h2, h3⟩ := opLookup_range p op d h
  simp only [Params.everyRow, List.all_eq_true, List.mem_range] at hc
  have := hc (op.toNat - 0x30) (by omega)
  rwa [h3] at this

/-- R172 condition 1, for the row OPLOOKUP answers. -/
theorem kind_of_opLookup (p : Params) (op : OpCode) (d : Descriptor) (hw : p.wf = true)
    (h : opLookup p op = some d) : d.headerKind = .data ↔ op.toNat % 2 = 1 := by
  have hc : Params.optabKinds p.optab = true := by
    simp only [Params.wf, Params.optabWf, Bool.and_eq_true] at hw
    tauto
  have := everyRow_opLookup p _ op d hc h
  obtain ⟨h1, -, -⟩ := opLookup_range p op d h
  cases hk : d.headerKind <;> simp [hk] at this ⊢ <;> omega

/-- R172 condition 2, for the row OPLOOKUP answers. -/
theorem reply_of_opLookup (p : Params) (op : OpCode) (d : Descriptor) (hw : p.wf = true)
    (h : opLookup p op = some d) :
    (d.replyOp = none ∧ d.reliabilityRequired = false) ∨
    ∃ r dr, d.replyOp = some r ∧ d.reliabilityRequired = true ∧ opLookup p r = some dr ∧
      dr.opClass = .ack := by
  have hc : Params.optabReplies p.optab = true := by
    simp only [Params.wf, Params.optabWf, Bool.and_eq_true] at hw
    tauto
  have := everyRow_opLookup p _ op d hc h
  cases hr : d.replyOp with
  | none =>
    simp only [hr, Bool.not_eq_true'] at this
    exact .inl ⟨rfl, this⟩
  | some r =>
    simp only [hr, Bool.and_eq_true, beq_iff_eq] at this
    obtain ⟨h1, h2⟩ := this
    unfold Params.classOf at h2
    split at h2
    · rename_i hrange
      rw [Option.map_eq_some_iff] at h2
      obtain ⟨dr, h3, h4⟩ := h2
      exact .inr ⟨r, dr, rfl, h1, by rw [opLookup, if_pos hrange, h3], h4⟩
    · cases h2

/-- R172 condition 4, for a bridge row OPLOOKUP answers. -/
theorem bridge_of_opLookup (p : Params) (op : OpCode) (d : Descriptor) (hw : p.wf = true)
    (h : opLookup p op = some d) (hb : d.opClass = .bridge) :
    (d.headerKind = .data ↔ d.direction = .nodeToStore) := by
  have hc : Params.everyRow p.optab (fun _ d => d.opClass != .bridge ||
      (!d.reliabilityRequired && d.explen == none && !d.vercheck &&
        (d.headerKind == .data) == (d.direction == .nodeToStore))) = true := by
    simp only [Params.wf, Params.optabWf, Params.optabBridges, Bool.and_eq_true] at hw
    tauto
  have := everyRow_opLookup p _ op d hc h
  cases hk : d.headerKind <;> cases hd : d.direction <;> simp [hb, hk, hd] at this ⊢

/-- Under a well-formed table there is a bridge op of each direction, and `bridgeOp` names it. -/
theorem opLookup_bridgeOp (p : Params) (dir : Direction) (hw : p.wf = true) :
    ∃ d, opLookup p (bridgeOp p dir) = some d ∧ d.opClass = .bridge ∧ d.direction = dir := by
  have hlen : p.optab.length = 16 := by
    simp only [Params.wf, Params.optabWf, Params.optabSized, Bool.and_eq_true, beq_iff_eq] at hw
    tauto
  have hex : ∃ d ∈ p.optab, decide (d.opClass = .bridge ∧ d.direction = dir) = true := by
    have hcount : (p.optab.countP fun d => d.opClass == .bridge && d.direction == dir) = 1 := by
      simp only [Params.wf, Params.optabWf, Params.optabBridges, Bool.and_eq_true, beq_iff_eq] at hw
      cases dir
      · exact hw.2.1.1.2.1.1
      · exact hw.2.1.1.2.1.2
    have hpos : 0 < (p.optab.countP fun d => d.opClass == .bridge && d.direction == dir) := by omega
    rw [List.countP_pos_iff] at hpos
    obtain ⟨d, hm, hd⟩ := hpos
    refine ⟨d, hm, ?_⟩
    simpa using hd
  have hlt := List.findIdx_lt_length_of_exists hex
  have hget := List.findIdx_getElem (w := hlt)
  rw [decide_eq_true_eq] at hget
  generalize hi : (p.optab.findIdx fun d => decide (d.opClass = .bridge ∧ d.direction = dir)) = i
    at hlt hget
  have hb : bridgeOp p dir = BitVec.ofNat 8 (0x30 + i) := by rw [← hi]; rfl
  have hn : (bridgeOp p dir).toNat = 0x30 + i := by
    rw [hb, BitVec.toNat_ofNat]
    omega
  refine ⟨p.optab[i], ?_, ?_⟩
  · rw [opLookup, hn, if_pos (by omega), Nat.add_sub_cancel_left, List.getElem?_eq_getElem hlt]
  · exact hget

end Sys2Proof.Machine
end

