-- ==== Sys2Proof/Laws/Pipeline.lean ====
section
/-! SUPPORT. The stages of the receive pipeline, each as one equation under the conditions that select
it, and what a stage can do at all. -/

namespace Sys2Proof.Machine

/-! ### From the frame to the dispatch -/

theorem rxRun_dispatch (s : State) (op : OpCode) (rest : Bytes) (d : Descriptor) (hdr : Header)
    (payload : Bytes) (hd : opLookup s.params op = some d)
    (hb : decodeKind d.headerKind (op :: rest) = some (hdr, payload))
    (hv : validSlid hdr.slid = true) :
    rxRun (op :: rest) s = rxDispatch d hdr payload (op :: rest) s := by
  simp [rxRun, hd, hb, hv]

/-- The arrival of a frame that passes the header checks. -/
theorem receive_dispatch (s : State) (op : OpCode) (rest : Bytes) (d : Descriptor) (hdr : Header)
    (payload : Bytes) (hr : s.run = .running) (hl : (op :: rest).length ≤ s.params.maxFrame)
    (hd : opLookup s.params op = some d)
    (hb : decodeKind d.headerKind (op :: rest) = some (hdr, payload))
    (hv : validSlid hdr.slid = true) :
    receive (op :: rest) s =
      .next (rxDispatch d hdr payload (op :: rest) { s with result := {} }) := by
  rw [receive_running _ s hr hl]
  exact congrArg _ (rxRun_dispatch { s with result := {} } op rest d hdr payload hd hb hv)

/-- The arrival of a control-kind frame written out from its fields. -/
theorem receive_ctrlFrame (s : State) (op : OpCode) (slid : Slid) (pkg : PkgNum) (rest : Bytes)
    (d : Descriptor) (hr : s.run = .running) (hl : 7 + rest.length ≤ s.params.maxFrame)
    (hd : opLookup s.params op = some d) (hk : d.headerKind = .control)
    (hv : validSlid slid = true) :
    receive (ctrlFrame op slid pkg rest) s =
      .next (rxDispatch d ⟨op, slid, pkg, 0⟩ rest (ctrlFrame op slid pkg rest)
        { s with result := {} }) := by
  have hl' : (ctrlFrame op slid pkg rest).length ≤ s.params.maxFrame := by
    rw [length_ctrlFrame]; exact hl
  have hb := decodeKind_ctrlFrame op slid pkg rest
  rw [ctrlFrame_cons] at *
  exact receive_dispatch s op _ d _ _ hr hl' hd (hk ▸ hb) hv

/-- The arrival of a data-kind frame written out from its fields. -/
theorem receive_dataFrame (s : State) (op : OpCode) (slid : Slid) (pkg : PkgNum) (rssi : Byte)
    (rest : Bytes) (d : Descriptor) (hr : s.run = .running)
    (hl : 8 + rest.length ≤ s.params.maxFrame) (hd : opLookup s.params op = some d)
    (hk : d.headerKind = .data) (hv : validSlid slid = true) :
    receive (dataFrame op slid pkg rssi rest) s =
      .next (rxDispatch d ⟨op, slid, pkg, rssi⟩ rest (dataFrame op slid pkg rssi rest)
        { s with result := {} }) := by
  have hl' : (dataFrame op slid pkg rssi rest).length ≤ s.params.maxFrame := by
    rw [length_dataFrame]; exact hl
  have hb := decodeKind_dataFrame op slid pkg rssi rest
  rw [dataFrame_cons] at *
  exact receive_dispatch s op _ d _ _ hr hl' hd (hk ▸ hb) hv

/-- Every way the steps before the dispatch can go. -/
theorem rxRun_cases (b : Bytes) (s : State) :
    (∃ k info, rxRun b s = raise k info s) ∨
    (∃ op rest d hdr payload, b = op :: rest ∧ opLookup s.params op = some d ∧
      decodeKind d.headerKind b = some (hdr, payload) ∧ validSlid hdr.slid = true ∧
      rxRun b s = rxDispatch d hdr payload b s) := by
  cases b with
  | nil => exact .inl ⟨_, _, rfl⟩
  | cons op rest =>
    cases hd : opLookup s.params op with
    | none => exact .inl ⟨_, _, by simp only [rxRun, hd]; rfl⟩
    | some d =>
      cases hb : decodeKind d.headerKind (op :: rest) with
      | none => exact .inl ⟨_, _, by simp only [rxRun, hd, hb]; rfl⟩
      | some x =>
        obtain ⟨hdr, payload⟩ := x
        by_cases hv : validSlid hdr.slid = true
        · exact .inr ⟨op, rest, d, hdr, payload, rfl, hd, hb, hv,
            rxRun_dispatch s op rest d hdr payload hd hb hv⟩
        · exact .inl ⟨_, _, by simp only [rxRun, hd, hb, Bool.not_eq_true _ ▸ hv]; rfl⟩

/-! ### The reply -/

theorem emitReply_unreliable (d : Descriptor) (hdr : Header) (code : AckCode) (s : State)
    (h : d.reliabilityRequired = false) : emitReply d hdr code s = s := by
  simp [emitReply, h]

theorem emitReply_reliable (d : Descriptor) (hdr : Header) (code : AckCode) (s : State)
    (r : OpCode) (dr : Descriptor) (h : d.reliabilityRequired = true) (hr : d.replyOp = some r)
    (hd : opLookup s.params r = some dr) :
    emitReply d hdr code s =
      emit (.tx (encodeKind dr.headerKind r hdr.slid hdr.pkgNum 0 ++ [ackByte code])) s := by
  simp [emitReply, replyFrame, h, hr, hd]

/-- A reply is one TX, or nothing. -/
theorem emitReply_cases (d : Descriptor) (hdr : Header) (code : AckCode) (s : State) :
    emitReply d hdr code s = s ∨ ∃ f, emitReply d hdr code s = emit (.tx f) s := by
  unfold emitReply
  split
  · split
    · exact .inr ⟨_, rfl⟩
    · exact .inl rfl
  · exact .inl rfl

@[simp] theorem emitReply_params (d : Descriptor) (hdr : Header) (code : AckCode) (s : State) :
    (emitReply d hdr code s).params = s.params := by
  rcases emitReply_cases d hdr code s with h | ⟨f, h⟩ <;> simp [h]

@[simp] theorem emitReply_ownSlid (d : Descriptor) (hdr : Header) (code : AckCode) (s : State) :
    (emitReply d hdr code s).ownSlid = s.ownSlid := by
  rcases emitReply_cases d hdr code s with h | ⟨f, h⟩ <;> simp [h]

/-! ### Frames of class App and Admin -/

/-- The check of step 7a passes. -/
def Feasible (s : State) (d : Descriptor) (b : Bytes) : Prop :=
  (if route s.params d = .relay then relayCheck s.params b.length else none) = none

theorem feasible_of_local (s : State) (d : Descriptor) (b : Bytes)
    (h : route s.params d = .localLeg) : Feasible s d b := by
  simp [Feasible, h]

theorem feasible_of_check (s : State) (d : Descriptor) (b : Bytes)
    (h : relayCheck s.params b.length = none) : Feasible s d b := by
  simp [Feasible, h]

theorem rxPlain_infeasible (s : State) (d : Descriptor) (hdr : Header) (payload b : Bytes)
    (k : Raised) (hr : route s.params d = .relay) (h : relayCheck s.params b.length = some k) :
    rxPlain d hdr payload b s = raise k (headerInfo hdr) s := by
  simp [rxPlain, hr, h]

theorem rxPlain_feasible (s : State) (d : Descriptor) (hdr : Header) (payload b : Bytes)
    (hf : Feasible s d b) :
    rxPlain d hdr payload b s =
      rxFinish d hdr payload b (rxCode s.params s.seq d hdr payload)
        (emitReply d hdr (rxCode s.params s.seq d hdr payload)
          { s with seq := seqAdvance s.seq hdr.slid hdr.pkgNum }) := by
  unfold Feasible at hf
  simp only [rxPlain, hf]

theorem rxFinish_dropped (d : Descriptor) (hdr : Header) (payload b : Bytes) (code : AckCode)
    (s : State) (h : code ≠ .success) :
    rxFinish d hdr payload b code s =
      setResult { headerInfo hdr with ack := some code, status := softStatus code }
        (logSoft (softKind code) s) := by
  simp [rxFinish, h]

theorem rxFinish_relayed (d : Descriptor) (hdr : Header) (payload b : Bytes) (s : State)
    (h : route s.params d = .relay) :
    rxFinish d hdr payload b .success s =
      brgRelay d hdr b { headerInfo hdr with ack := some .success } s := by
  simp [rxFinish, h]

theorem rxFinish_delivered (d : Descriptor) (hdr : Header) (payload b : Bytes) (s : State)
    (h : route s.params d = .localLeg) (hc : d.opClass = .app) :
    rxFinish d hdr payload b .success s =
      setResult { headerInfo hdr with ack := some .success, status := .rxDelivered }
        (emit (.deliver payload) s) := by
  simp [rxFinish, h, hc]

theorem rxFinish_recognized (d : Descriptor) (hdr : Header) (payload b : Bytes) (s : State)
    (h : route s.params d = .localLeg) (hc : d.opClass ≠ .app) :
    rxFinish d hdr payload b .success s =
      setResult { headerInfo hdr with ack := some .success, status := .rxRecognized } s := by
  simp [rxFinish, h, hc]

/-- A relay that passes RELAY_CHECK. -/
theorem brgRelay_out (d : Descriptor) (hdr : Header) (b : Bytes) (info : Result) (s : State)
    (raw : Bytes) (dest : Slid) (hc : relayCheck s.params b.length = none)
    (ho : relayOutput s.params s.ownSlid d hdr b = some (raw, dest)) :
    brgRelay d hdr b info s =
      setResult { info with status := .rxRelayed } (emit (.bridgeOut raw dest) s) := by
  simp [brgRelay, hc, ho]

/-- Everything a relay can do. -/
theorem brgRelay_cases (d : Descriptor) (hdr : Header) (b : Bytes) (info : Result) (s : State) :
    (∃ k, relayCheck s.params b.length = some k ∧
      brgRelay d hdr b info s = raise k (headerInfo hdr) s) ∨
    (relayCheck s.params b.length = none ∧ s.params.bridgeMode = .unbridged ∧
      brgRelay d hdr b info s = setResult { info with status := .bridgeInert } s) ∨
    (∃ raw dest, relayCheck s.params b.length = none ∧
      relayOutput s.params s.ownSlid d hdr b = some (raw, dest) ∧
      brgRelay d hdr b info s =
        setResult { info with status := .rxRelayed } (emit (.bridgeOut raw dest) s)) := by
  cases hc : relayCheck s.params b.length with
  | some k => exact .inl ⟨k, rfl, by simp [brgRelay, hc]⟩
  | none =>
    cases ho : relayOutput s.params s.ownSlid d hdr b with
    | none =>
      refine .inr (.inl ⟨rfl, ?_, by simp [brgRelay, hc, ho]⟩)
      unfold relayOutput at ho
      split at ho <;> simp_all
    | some x => exact .inr (.inr ⟨x.1, x.2, rfl, rfl, by simp [brgRelay, hc, ho]⟩)

/-! ### The sequence check -/

theorem seqAdvance_new (s : State) (slid : Slid) (pkg : PkgNum) (h : IsNew s slid pkg) :
    seqAdvance s.seq slid pkg = seqWrite s.seq (seqIndex slid) pkg := by
  unfold seqAdvance
  rw [if_pos ((seqNew_iff s slid pkg).mpr h)]

theorem seqAdvance_old (s : State) (slid : Slid) (pkg : PkgNum) (h : ¬ IsNew s slid pkg) :
    seqAdvance s.seq slid pkg = s.seq := by
  rw [← seqNew_iff] at h
  simp [seqAdvance, h]

theorem rxCode_old (s : State) (d : Descriptor) (hdr : Header) (payload : Bytes)
    (h : ¬ IsNew s hdr.slid hdr.pkgNum) :
    rxCode s.params s.seq d hdr payload = .duplicate := by
  rw [← seqNew_iff] at h
  simp [rxCode, h]

theorem rxCode_new (s : State) (d : Descriptor) (hdr : Header) (payload : Bytes)
    (h : IsNew s hdr.slid hdr.pkgNum) :
    rxCode s.params s.seq d hdr payload =
      if sizeWrong d payload then .sizeErr
      else if versionWrong s.params d payload then .versionErr else .success := by
  simp [rxCode, (seqNew_iff s hdr.slid hdr.pkgNum).mpr h]

end Sys2Proof.Machine
end

