-- ==== Sys2Proof/Laws/Arrival.lean ====
section
/-! SUPPORT. The arrival of a frame of class App or Admin, one equation per outcome, and what the default
table and the bridge modes make of lookups, routes and relays. A reply is given as the list `rep code`
of the events that answer the AckCode `code`. -/

namespace Sys2Proof.Machine

/-! ### The default table -/

/-- A row of the default table is found in every configuration that has that table. -/
theorem opLookup_default (p : Params) (h : p.optab = defaultOptab) (op : OpCode) (d : Descriptor)
    (hd : opLookup (vectorParams .unbridged) op = some d) : opLookup p op = some d := by
  unfold opLookup at *
  rw [h]
  exact hd

theorem bridgeOp_default_toStore (p : Params) (h : p.optab = defaultOptab) :
    bridgeOp p .nodeToStore = 0x33 := by
  unfold bridgeOp
  rw [h]
  decide

theorem bridgeOp_default_toNode (p : Params) (h : p.optab = defaultOptab) :
    bridgeOp p .storeToNode = 0x32 := by
  unfold bridgeOp
  rw [h]
  decide

/-! ### Routes and relays by mode -/

theorem route_local_toNode (p : Params) (d : Descriptor) (h : d.direction = .storeToNode)
    (hm : p.bridgeMode ≠ .storeside) : route p d = .localLeg := by
  unfold route
  cases hb : p.bridgeMode <;> simp_all

theorem route_local_toStore (p : Params) (d : Descriptor) (h : d.direction = .nodeToStore)
    (hm : p.bridgeMode ≠ .nodeside) : route p d = .localLeg := by
  unfold route
  cases hb : p.bridgeMode <;> simp_all

theorem route_relay_iff (p : Params) (d : Descriptor) : route p d = .relay ↔
    (p.bridgeMode = .nodeside ∧ d.direction = .nodeToStore) ∨
    (p.bridgeMode = .storeside ∧ d.direction = .storeToNode) := by
  unfold route
  cases hb : p.bridgeMode <;> cases hd : d.direction <;> simp

theorem relayCheck_storeside (p : Params) (n : Nat) (h : p.bridgeMode = .storeside)
    (hl : n + 11 ≤ p.maxFrame) : relayCheck p n = none := by
  simp [relayCheck, h]
  omega

theorem relayCheck_nodeside (p : Params) (n : Nat) (h : p.bridgeMode = .nodeside)
    (hv : validSlid p.storeSlid = true) (hl : n + 12 ≤ p.maxFrame) : relayCheck p n = none := by
  simp [relayCheck, h, hv]
  omega

/-- What a relay hands to BRIDGE_OUT, under every table (R273, R274): the frame behind a header with the
bridge op of its direction, OWN_SLID, the frame's number and, toward the store, its rssi. -/
theorem relayOutput_relay (p : Params) (own : Slid) (d : Descriptor) (hdr : Header) (b : Bytes)
    (h : route p d = .relay) :
    relayOutput p own d hdr b =
      some ([bridgeOp p d.direction] ++ le32 own ++ le16 hdr.pkgNum ++
          (if d.direction = .nodeToStore then [if d.headerKind = .data then hdr.rssi else 0] else []) ++
          b,
        if d.direction = .nodeToStore then p.storeSlid else hdr.slid) := by
  rcases (route_relay_iff p d).1 h with ⟨h1, h2⟩ | ⟨h1, h2⟩
  · simp [relayOutput, h1, h2, encData]
  · simp [relayOutput, h1, h2, encCtrl]

theorem relayOutput_storeside (p : Params) (own : Slid) (d : Descriptor) (hdr : Header) (b : Bytes)
    (ht : p.optab = defaultOptab) (h : p.bridgeMode = .storeside) :
    relayOutput p own d hdr b =
      some ([0x32] ++ le32 own ++ le16 hdr.pkgNum ++ b, hdr.slid) := by
  simp [relayOutput, h, bridgeOp_default_toNode p ht, encCtrl]

theorem relayOutput_nodeside (p : Params) (own : Slid) (d : Descriptor) (hdr : Header) (b : Bytes)
    (ht : p.optab = defaultOptab) (h : p.bridgeMode = .nodeside) :
    relayOutput p own d hdr b =
      some ([0x33] ++ le32 own ++ le16 hdr.pkgNum ++
        [if d.headerKind = .data then hdr.rssi else 0] ++ b, p.storeSlid) := by
  simp [relayOutput, h, bridgeOp_default_toStore p ht, encData]

/-- A node-bound frame meets step 7a when the storeside wire form fits. -/
theorem feasible_toNode (s : State) (d : Descriptor) (b : Bytes) (h : d.direction = .storeToNode)
    (hs : s.params.bridgeMode = .storeside → b.length + 11 ≤ s.params.maxFrame) :
    Feasible s d b := by
  by_cases hm : s.params.bridgeMode = .storeside
  · exact feasible_of_check _ _ _ (relayCheck_storeside _ _ hm (hs hm))
  · exact feasible_of_local _ _ _ (route_local_toNode _ _ h hm)

/-- A store-bound frame meets step 7a when STORE_SLID is valid and the nodeside wire form fits. -/
theorem feasible_toStore (s : State) (d : Descriptor) (b : Bytes) (h : d.direction = .nodeToStore)
    (hs : s.params.bridgeMode = .nodeside →
      validSlid s.params.storeSlid = true ∧ b.length + 12 ≤ s.params.maxFrame) :
    Feasible s d b := by
  by_cases hm : s.params.bridgeMode = .nodeside
  · exact feasible_of_check _ _ _ (relayCheck_nodeside _ _ hm (hs hm).1 (hs hm).2)
  · exact feasible_of_local _ _ _ (route_local_toStore _ _ h hm)

/-! ### One equation per outcome -/

/-- `rep` lists the reply events of an arrival: what `emitReply` does is emit them. -/
def RepliesAre (s : State) (d : Descriptor) (hdr : Header) (rep : AckCode → List Event) : Prop :=
  ∀ (code : AckCode) (s' : State), s'.params = s.params →
    emitReply d hdr code s' = emitAll (rep code) s'

theorem repliesAre_unreliable (s : State) (d : Descriptor) (hdr : Header)
    (h : d.reliabilityRequired = false) : RepliesAre s d hdr fun _ => [] := by
  intro code s' _
  rw [emitReply_unreliable d hdr code s' h]
  rfl

theorem repliesAre_reliable (s : State) (d dr : Descriptor) (hdr : Header) (r : OpCode)
    (h : d.reliabilityRequired = true) (hr : d.replyOp = some r)
    (hd : opLookup s.params r = some dr) :
    RepliesAre s d hdr fun code =>
      [.tx (encodeKind dr.headerKind r hdr.slid hdr.pkgNum 0 ++ [ackByte code])] := by
  intro code s' hs
  rw [emitReply_reliable d hdr code s' r dr h hr (hs ▸ hd)]
  rfl

/-- Under a well-formed table every arrival has such a list, of one TX when the op is reliable and
empty otherwise. -/
theorem repliesAre_of_wf (s : State) (op : OpCode) (d : Descriptor) (hdr : Header)
    (hw : s.params.wf = true) (hd : opLookup s.params op = some d) :
    (d.reliabilityRequired = false ∧ d.replyOp = none ∧ RepliesAre s d hdr fun _ => []) ∨
    ∃ r dr, d.reliabilityRequired = true ∧ d.replyOp = some r ∧ opLookup s.params r = some dr ∧
      RepliesAre s d hdr fun code =>
        [.tx (encodeKind dr.headerKind r hdr.slid hdr.pkgNum 0 ++ [ackByte code])] := by
  rcases reply_of_opLookup s.params op d hw hd with ⟨h1, h2⟩ | ⟨r, dr, h1, h2, h3, -⟩
  · exact .inl ⟨h2, h1, repliesAre_unreliable s d hdr h2⟩
  · exact .inr ⟨r, dr, h2, h1, h3, repliesAre_reliable s d dr hdr r h2 h1 h3⟩

/-- The state in which an arrival of `hdr` finds a new frame recorded, with its replies emitted. -/
def recorded (s : State) (hdr : Header) (replies : List Event) : State :=
  emitAll replies { s with
    result := {}, seq := seqWrite s.seq (seqIndex hdr.slid) hdr.pkgNum }

theorem rxPlain_new (s : State) (d : Descriptor) (hdr : Header) (payload b : Bytes)
    (rep : AckCode → List Event) (hrep : RepliesAre s d hdr rep) (hf : Feasible s d b)
    (hn : IsNew s hdr.slid hdr.pkgNum) (code : AckCode)
    (hc : (if sizeWrong d payload then AckCode.sizeErr
      else if versionWrong s.params d payload then .versionErr else .success) = code) :
    rxPlain d hdr payload b { s with result := {} } =
      rxFinish d hdr payload b code (recorded s hdr (rep code)) := by
  rw [rxPlain_feasible { s with result := {} } d hdr payload b hf,
    rxCode_new { s with result := {} } d hdr payload hn,
    seqAdvance_new { s with result := {} } hdr.slid hdr.pkgNum hn, hc]
  exact congrArg _ (hrep code _ rfl)

theorem rxPlain_duplicate (s : State) (d : Descriptor) (hdr : Header) (payload b : Bytes)
    (rep : AckCode → List Event) (hrep : RepliesAre s d hdr rep) (hf : Feasible s d b)
    (hn : ¬ IsNew s hdr.slid hdr.pkgNum) :
    rxPlain d hdr payload b { s with result := {} } =
      setResult { headerInfo hdr with ack := some .duplicate, status := .rxDuplicate }
        (logSoft .ackDuplicate (emitAll (rep .duplicate) { s with result := {} })) := by
  rw [rxPlain_feasible { s with result := {} } d hdr payload b hf,
    rxCode_old { s with result := {} } d hdr payload hn,
    seqAdvance_old { s with result := {} } hdr.slid hdr.pkgNum hn,
    rxFinish_dropped _ _ _ _ _ _ (by decide),
    hrep .duplicate { s with result := {} } rfl]
  rfl

theorem rxPlain_rejected (s : State) (d : Descriptor) (hdr : Header) (payload b : Bytes)
    (rep : AckCode → List Event) (hrep : RepliesAre s d hdr rep) (hf : Feasible s d b)
    (hn : IsNew s hdr.slid hdr.pkgNum) (code : AckCode) (hne : code ≠ .success)
    (hc : (if sizeWrong d payload then AckCode.sizeErr
      else if versionWrong s.params d payload then .versionErr else .success) = code) :
    rxPlain d hdr payload b { s with result := {} } =
      setResult { headerInfo hdr with ack := some code, status := softStatus code }
        (logSoft (softKind code) (recorded s hdr (rep code))) := by
  rw [rxPlain_new s d hdr payload b rep hrep hf hn code hc, rxFinish_dropped _ _ _ _ _ _ hne]

theorem rxPlain_delivered (s : State) (d : Descriptor) (hdr : Header) (payload b : Bytes)
    (rep : AckCode → List Event) (hrep : RepliesAre s d hdr rep)
    (hn : IsNew s hdr.slid hdr.pkgNum) (hr : route s.params d = .localLeg)
    (hsz : sizeWrong d payload = false) (hv : versionWrong s.params d payload = false)
    (hc : d.opClass = .app) :
    rxPlain d hdr payload b { s with result := {} } =
      setResult { headerInfo hdr with ack := some .success, status := .rxDelivered }
        (emit (.deliver payload) (recorded s hdr (rep .success))) := by
  rw [rxPlain_new s d hdr payload b rep hrep (feasible_of_local _ _ _ hr) hn .success
    (by simp [hsz, hv])]
  exact rxFinish_delivered _ _ _ _ _ (by simpa [recorded] using hr) hc

theorem rxPlain_recognized (s : State) (d : Descriptor) (hdr : Header) (payload b : Bytes)
    (rep : AckCode → List Event) (hrep : RepliesAre s d hdr rep)
    (hn : IsNew s hdr.slid hdr.pkgNum) (hr : route s.params d = .localLeg)
    (hsz : sizeWrong d payload = false) (hv : versionWrong s.params d payload = false)
    (hc : d.opClass ≠ .app) :
    rxPlain d hdr payload b { s with result := {} } =
      setResult { headerInfo hdr with ack := some .success, status := .rxRecognized }
        (recorded s hdr (rep .success)) := by
  rw [rxPlain_new s d hdr payload b rep hrep (feasible_of_local _ _ _ hr) hn .success
    (by simp [hsz, hv])]
  exact rxFinish_recognized _ _ _ _ _ (by simpa [recorded] using hr) hc

theorem rxPlain_relayed (s : State) (d : Descriptor) (hdr : Header) (payload b raw : Bytes)
    (dest : Slid) (rep : AckCode → List Event) (hrep : RepliesAre s d hdr rep)
    (hn : IsNew s hdr.slid hdr.pkgNum) (hr : route s.params d = .relay)
    (hsz : sizeWrong d payload = false) (hv : versionWrong s.params d payload = false)
    (hc : relayCheck s.params b.length = none)
    (ho : relayOutput s.params s.ownSlid d hdr b = some (raw, dest)) :
    rxPlain d hdr payload b { s with result := {} } =
      setResult { headerInfo hdr with ack := some .success, status := .rxRelayed }
        (emit (.bridgeOut raw dest) (recorded s hdr (rep .success))) := by
  rw [rxPlain_new s d hdr payload b rep hrep (feasible_of_check _ _ _ hc) hn .success
    (by simp [hsz, hv])]
  rw [rxFinish_relayed _ _ _ _ _ (by simpa [recorded] using hr)]
  exact brgRelay_out _ _ _ _ _ raw dest (by simpa [recorded] using hc)
    (by simpa [recorded] using ho)

end Sys2Proof.Machine
end

