-- ==== Sys2Proof/Laws/Relay.lean ====
section
/-! SUPPORT. Ack frames; bridge frames: what CONSUME finds in a wire form, what INNER_CHECK has
established when it passes, what consuming and relaying a wire form does; the command FWD. -/

namespace Sys2Proof.Machine

/-! ### Ack frames -/

theorem ackRx_matched (d : Descriptor) (hdr : Header) (code : Byte) (b : Bytes) (s : State) (h : Nat)
    (hm : firstMatch hdr s.out = some h) :
    ackRx d hdr [code] b s =
      setResult { headerInfo hdr with status := .rxAckMatched, h := h }
        (emit (.done h (.ackReceived code)) { s with out := s.out.set h .free }) := by
  simp only [ackRx, hm]

theorem ackRx_relayed (d : Descriptor) (hdr : Header) (code : Byte) (b : Bytes) (s : State)
    (hm : firstMatch hdr s.out = none) (hr : route s.params d = .relay) :
    ackRx d hdr [code] b s = brgRelay d hdr b (headerInfo hdr) s := by
  simp only [ackRx, hm, hr, if_true]

theorem ackRx_unmatched (d : Descriptor) (hdr : Header) (code : Byte) (b : Bytes) (s : State)
    (hm : firstMatch hdr s.out = none) (hr : route s.params d = .localLeg) :
    ackRx d hdr [code] b s =
      setResult { headerInfo hdr with status := .rxAckUnmatched, ack := some .unexpected }
        (logSoft .ackUnexpected s) := by
  simp [ackRx, hm, hr]

theorem ackRx_wrongSize (d : Descriptor) (hdr : Header) (payload b : Bytes) (s : State)
    (h : payload.length ≠ 1) :
    ackRx d hdr payload b s =
      setResult { headerInfo hdr with status := .rxSizeErr, ack := some .sizeErr }
        (logSoft .ackSizeMismatch s) := by
  rcases payload with _ | ⟨c, _ | ⟨c', rest⟩⟩
  · rfl
  · exact absurd rfl h
  · rfl

/-! ### Bridge frames -/

/-- CONSUME of a wire form written out from its three parts. -/
theorem consume_wire (head inner : Bytes) (dest : Slid) :
    consume (head ++ le32 dest ++ inner) head.length = some (head ++ inner, dest) := by
  have h : (head ++ le32 dest ++ inner).drop head.length = le32 dest ++ inner := by simp
  unfold consume
  rw [h]
  simp only [le32, List.cons_append, List.nil_append, fromLe32_le32]
  simp

/-- What a passed INNER_CHECK says of the inner frame. -/
theorem innerCheck_eq_none (p : Params) (x : Bytes) (h : innerCheck p x = none) :
    ∃ op rest d hdr payload, x = op :: rest ∧ opLookup p op = some d ∧
      decodeKind d.headerKind x = some (hdr, payload) ∧ validSlid hdr.slid = true ∧
      d.opClass ≠ .bridge := by
  unfold innerCheck at h
  split at h
  · cases h
  · rename_i op rest
    split at h
    · cases h
    · rename_i d hd
      split at h
      · cases h
      · rename_i hdr payload hk
        split at h
        · cases h
        · split at h
          · cases h
          · rename_i hv hb
            exact ⟨op, rest, d, hdr, payload, rfl, hd, hk, by simpa using hv, hb⟩

/-- INNER_CHECK passes a plain frame with a valid slid. -/
theorem innerCheck_plain (p : Params) (op : OpCode) (rest : Bytes) (d : Descriptor) (hdr : Header)
    (payload : Bytes) (hd : opLookup p op = some d)
    (hk : decodeKind d.headerKind (op :: rest) = some (hdr, payload))
    (hv : validSlid hdr.slid = true) (hb : d.opClass ≠ .bridge) :
    innerCheck p (op :: rest) = none := by
  simp [innerCheck, hd, hk, hv, hb]

/-- A frame that passes INNER_CHECK holds a whole header. -/
theorem length_of_innerCheck (p : Params) (x : Bytes) (h : innerCheck p x = none) :
    7 ≤ x.length := by
  obtain ⟨op, rest, d, hdr, payload, -, -, hk, -, -⟩ := innerCheck_eq_none p x h
  by_contra hlt
  have hn : decodeKind d.headerKind x = none := by
    rw [decodeKind_eq_none]
    cases d.headerKind <;> simp [hlen] <;> omega
  rw [hn] at hk
  cases hk

theorem consumeAndRelay_short (d : Descriptor) (hdr : Header) (b : Bytes) (s : State)
    (h : b.length < hlen d.headerKind + 4 + 7) :
    consumeAndRelay d hdr b s = raise .sizeError (headerInfo hdr) s := by
  simp only [consumeAndRelay, if_pos h]

/-- Consuming and relaying a wire form written out from its three parts. -/
theorem consumeAndRelay_wire (d : Descriptor) (hdr : Header) (head inner : Bytes) (dest : Slid)
    (s : State) (hh : head.length = hlen d.headerKind) (hi : 7 ≤ inner.length) :
    consumeAndRelay d hdr (head ++ le32 dest ++ inner) s =
      if validSlid dest = false then raise .outOfRange (headerInfo hdr) s
      else match innerCheck s.params inner with
        | some .unknownOp => raise .unknownOp { headerInfo hdr with ack := some .unexpected } s
        | some k => raise k (headerInfo hdr) s
        | none =>
          setResult { headerInfo hdr with status := .rxRelayed }
            (emit (.bridgeOut (head ++ inner) dest) s) := by
  have hlen' : ¬ (head ++ le32 dest ++ inner).length < hlen d.headerKind + 4 + 7 := by
    simp [length_le32]
    omega
  simp only [consumeAndRelay, if_neg hlen']
  rw [← hh, consume_wire head inner dest]
  simp only [List.drop_left]
  all_goals rfl

/-! ### FWD -/

/-- FWD at a running bridge, of a frame in the operand domain. -/
theorem execFwd_bridge (raw : Bytes) (dest : Slid) (s : State) (hr : s.run = .running)
    (hm : s.params.bridgeMode ≠ .unbridged) (hl : raw.length ≤ s.params.maxFrame) :
    execFwd raw dest s = .next (fwdRun raw dest { s with result := {} }) := by
  rw [execFwd, whenRunning_running _ s hr]
  cases hb : s.params.bridgeMode with
  | unbridged => exact absurd hb hm
  | storeside =>
    simp only [fwdGate, hb]
    exact withinMaxFrame_of_le raw (fwdRun raw dest) { s with result := {} } hl
  | nodeside =>
    simp only [fwdGate, hb]
    exact withinMaxFrame_of_le raw (fwdRun raw dest) { s with result := {} } hl

/-- FWD at an unbridged SLC. -/
theorem execFwd_unbridged (raw : Bytes) (dest : Slid) (s : State) (hr : s.run = .running)
    (hm : s.params.bridgeMode = .unbridged) :
    execFwd raw dest s = .next { s with result := { status := .bridgeInert } } := by
  rw [execFwd, whenRunning_running _ s hr]
  simp [fwdGate, hm, setResult]

/-- FWD steps 6 to 9, for a frame of the bridge op that the mode forwards and that holds its header and
an inner header. -/
theorem fwdRun_bridgeOp (op : OpCode) (rest : Bytes) (dest : Slid) (s : State) (d : Descriptor)
    (hdr : Header) (inner : Bytes) (hd : opLookup s.params op = some d) (hb : d.opClass = .bridge)
    (hdir : fwdDirection s.params.bridgeMode = some d.direction)
    (hl : hlen d.headerKind + 7 ≤ (op :: rest).length)
    (hk : decodeKind d.headerKind (op :: rest) = some (hdr, inner)) :
    fwdRun (op :: rest) dest s =
      if validSlid hdr.slid = false then raise .outOfRange (headerInfo hdr) s
      else if validSlid dest = false then raise .outOfRange (headerInfo hdr) s
      else match innerCheck s.params inner with
        | some k => raise k (headerInfo hdr) s
        | none => fwdTransmit (op :: rest) inner (hlen d.headerKind) dest hdr s := by
  simp only [fwdRun, hd, hb, hdir, hk]
  rw [if_neg (by simp), if_neg (by omega)]
  all_goals rfl

end Sys2Proof.Machine
end

