-- ==== Sys2Proof/Laws/Sender.lean ====
section
/-! SUPPORT. The sending side: each command while Running, what TICK does with one OUT entry, case by
case, and what SEND does with its operands. -/

namespace Sys2Proof.Machine

/-! ### The commands while Running -/

theorem execSend_running (op : OpCode) (slid : Slid) (payload : Bytes) (rssi : Byte) (now : Clock)
    (s : State) (hr : s.run = .running) :
    execSend op slid payload rssi now s =
      .next (sendRun op slid payload rssi now { s with result := {} }) := by
  rw [execSend, whenRunning_running _ s hr]

theorem execTick_running (now : Clock) (s : State) (hr : s.run = .running) :
    execTick now s = .next (tickRun now { s with result := {} }) := by
  rw [execTick, whenRunning_running _ s hr]

theorem execCancel_running (h : Nat) (s : State) (hr : s.run = .running) :
    execCancel h s = .next (cancelRun h { s with result := {} }) := by
  rw [execCancel, whenRunning_running _ s hr]

theorem execCancelAll_running (s : State) (hr : s.run = .running) :
    execCancelAll s = .next (cancelAllRun { s with result := {} }) := by
  rw [execCancelAll, whenRunning_running _ s hr]

/-! ### SEND -/

theorem sendRun_unknownOp (op : OpCode) (slid : Slid) (payload : Bytes) (rssi : Byte) (now : Clock)
    (s : State) (h : opLookup s.params op = none) :
    sendRun op slid payload rssi now s = raise .unknownOp { op := op } s := by
  simp only [sendRun, h]

theorem sendRun_refusedOp (op : OpCode) (slid : Slid) (payload : Bytes) (rssi : Byte) (now : Clock)
    (s : State) (d : Descriptor) (h : opLookup s.params op = some d)
    (hc : d.opClass = .ack ∨ d.opClass = .bridge) :
    sendRun op slid payload rssi now s = setResult { status := .refusedOp, op := op } s := by
  simp only [sendRun, h, if_pos hc]

/-- SEND steps 4 to 10, for an op of class App or Admin. -/
theorem sendRun_plain (op : OpCode) (slid : Slid) (payload : Bytes) (rssi : Byte) (now : Clock)
    (s : State) (d : Descriptor) (h : opLookup s.params op = some d)
    (hc : d.opClass = .app ∨ d.opClass = .admin) :
    sendRun op slid payload rssi now s =
      if validSlid slid = false then raise .outOfRange { op := op, slid := slid } s
      else if s.params.maxFrame < hlen d.headerKind + payload.length then
        setResult { status := .tooLong } s
      else if d.reliabilityRequired then
        match firstFree s.out with
        | none => setResult { status := .outFull } s
        | some h => transmit d op slid payload rssi now (some h) s
      else transmit d op slid payload rssi now none s := by
  have hn : ¬ (d.opClass = .ack ∨ d.opClass = .bridge) := by
    rcases hc with hc | hc <;> simp [hc]
  simp only [sendRun, h, if_neg hn]
  all_goals rfl

/-! ### TICK on one entry -/

theorem tickSlot_free (p : Params) (now : Clock) : tickSlot p now .free = .free := rfl

theorem tickEvents_free (p : Params) (now : Clock) (h : Nat) : tickEvents p now h .free = [] := rfl

theorem tickAction_waiting (p : Params) (now : Clock) (e : OutEntry)
    (hd : ¬ 0 ≤ sdiff32 now e.deadline) : tickAction p now (.sent e) = .keep := by
  simp only [tickAction, if_neg hd]

theorem tickAction_resend (p : Params) (now : Clock) (e : OutEntry)
    (hd : 0 ≤ sdiff32 now e.deadline) (hr : e.retries < p.retryMax) :
    tickAction p now (.sent e) = .resend := by
  simp only [tickAction, if_pos hd, if_pos hr]

theorem tickAction_fail (p : Params) (now : Clock) (e : OutEntry)
    (hd : 0 ≤ sdiff32 now e.deadline) (hr : ¬ e.retries < p.retryMax) :
    tickAction p now (.sent e) = .fail := by
  simp only [tickAction, if_pos hd, if_neg hr]

theorem tickSlot_waiting (p : Params) (now : Clock) (e : OutEntry)
    (hd : ¬ 0 ≤ sdiff32 now e.deadline) : tickSlot p now (.sent e) = .sent e := by
  simp only [tickSlot, tickAction_waiting p now e hd]

theorem tickSlot_resend (p : Params) (now : Clock) (e : OutEntry)
    (hd : 0 ≤ sdiff32 now e.deadline) (hr : e.retries < p.retryMax) :
    tickSlot p now (.sent e) = .sent { e with
      retries := e.retries + 1, deadline := now + BitVec.ofNat 32 p.ackTimeout } := by
  simp only [tickSlot, tickAction_resend p now e hd hr]

theorem tickSlot_fail (p : Params) (now : Clock) (e : OutEntry)
    (hd : 0 ≤ sdiff32 now e.deadline) (hr : ¬ e.retries < p.retryMax) :
    tickSlot p now (.sent e) = .free := by
  simp only [tickSlot, tickAction_fail p now e hd hr]

theorem tickEvents_waiting (p : Params) (now : Clock) (h : Nat) (e : OutEntry)
    (hd : ¬ 0 ≤ sdiff32 now e.deadline) : tickEvents p now h (.sent e) = [] := by
  simp only [tickEvents, tickAction_waiting p now e hd]

theorem tickEvents_resend (p : Params) (now : Clock) (h : Nat) (e : OutEntry)
    (hd : 0 ≤ sdiff32 now e.deadline) (hr : e.retries < p.retryMax) :
    tickEvents p now h (.sent e) = [.tx e.frame] := by
  simp only [tickEvents, tickAction_resend p now e hd hr]

theorem tickEvents_fail (p : Params) (now : Clock) (h : Nat) (e : OutEntry)
    (hd : 0 ≤ sdiff32 now e.deadline) (hr : ¬ e.retries < p.retryMax) :
    tickEvents p now h (.sent e) =
      [.done h .retriesExhausted, .log .info .retriesExhausted] := by
  simp only [tickEvents, tickAction_fail p now e hd hr, logLevel]

/-- An entry that TICK keeps is left as it is and causes no event. -/
theorem tick_keeps (p : Params) (now : Clock) (h : Nat) (slot : OutSlot)
    (hk : tickAction p now slot = .keep) :
    tickSlot p now slot = slot ∧ tickEvents p now h slot = [] := by
  cases slot with
  | free => exact ⟨rfl, rfl⟩
  | sent e => simp only [tickSlot, tickEvents, hk, and_self]

/-- The scan transmits once for each entry that TICK re-sends. -/
theorem tickScan_countP_isTx (p : Params) (now : Clock) (h : Nat) (out : List OutSlot) :
    (tickScan p now h out).countP Event.isTx = tickCount p now .resend out := by
  induction out generalizing h with
  | nil => rfl
  | cons slot out ih =>
    rw [tickScan, List.countP_append, ih, tickCount, tickCount, List.countP_cons, Nat.add_comm]
    congr 1
    cases slot with
    | free => rfl
    | sent e =>
      by_cases hd : 0 ≤ sdiff32 now e.deadline
      · by_cases hr : e.retries < p.retryMax
        · rw [tickEvents_resend p now h e hd hr, tickAction_resend p now e hd hr]
          rfl
        · rw [tickEvents_fail p now h e hd hr, tickAction_fail p now e hd hr]
          rfl
      · rw [tickEvents_waiting p now h e hd, tickAction_waiting p now e hd]
        rfl

/-! ### CANCEL -/

theorem cancelRun_sent (h : Nat) (s : State) (e : OutEntry) (hs : s.out[h]? = some (.sent e)) :
    cancelRun h s =
      setResult { status := .cancelled, h := h } { s with out := s.out.set h .free } := by
  simp only [cancelRun, hs]

theorem cancelRun_noEntry (h : Nat) (s : State) (hs : ∀ e, s.out[h]? ≠ some (.sent e)) :
    cancelRun h s = setResult { status := .noEntry, h := h } s := by
  unfold cancelRun
  split
  · exact absurd ‹_› (hs _)
  · rfl
  · rfl

/-! ### Several commands -/

theorem runAll_append (first last : List Instr) (s t : State) (h : runAll first s = .next t) :
    runAll (first ++ last) s = runAll last t := by
  induction first generalizing s with
  | nil =>
    simp only [runAll, Host.Outcome.next.injEq] at h
    rw [List.nil_append, h]
  | cons i is ih =>
    simp only [List.cons_append, runAll] at h ⊢
    cases hx : exec i s with
    | next u => rw [hx] at h; exact ih u h
    | fault f => cases f
    | refused r => rw [hx] at h; cases h

end Sys2Proof.Machine
end

