-- ==== Sys2Proof/Laws/Outcomes.lean ====
section
/-! SUPPORT. Everything a command can do, said once: the ends of RX and of FWD, and of SEND, each as one
inductive statement with a theorem that no other end exists. -/

namespace Sys2Proof.Machine

/-! ### RX -/

/-- How an arrival of class App or Admin ends behind its reply: with these last events and this
status. -/
inductive PlainEnd (s : State) (d : Descriptor) (hdr : Header) (payload b : Bytes)
    (code : AckCode) (last : List Event) (status : Status) : Prop where
  | dropped (h : code ≠ .success) (hs : status = softStatus code)
      (hl : last = [.log (logLevel (softKind code)) (softKind code)])
  | relayed (raw : Bytes) (dest : Slid) (h : code = .success) (hs : status = .rxRelayed)
      (hl : last = [.bridgeOut raw dest]) (hr : route s.params d = .relay)
      (ho : relayOutput s.params s.ownSlid d hdr b = some (raw, dest))
  | delivered (h : code = .success) (hs : status = .rxDelivered) (hl : last = [.deliver payload])
      (hr : route s.params d = .localLeg) (hc : d.opClass = .app)
  | recognized (h : code = .success) (hs : status = .rxRecognized) (hl : last = [])
      (hr : route s.params d = .localLeg) (hc : d.opClass ≠ .app)

/-- The reply of an arrival as a list of events: at most one TX. -/
theorem emitReply_events (d : Descriptor) (hdr : Header) (code : AckCode) (s : State) :
    ∃ reply : List Event, emitReply d hdr code s = emitAll reply s ∧ reply.length ≤ 1 ∧
      ∀ e ∈ reply, ∃ f, e = .tx f := by
  rcases emitReply_cases d hdr code s with h | ⟨f, h⟩
  · exact ⟨[], h, by simp, by simp⟩
  · exact ⟨[.tx f], h, by simp, by simp⟩

theorem emitAll_append (es fs : List Event) (s : State) :
    emitAll (es ++ fs) s = emitAll fs (emitAll es s) := by
  induction es generalizing s with
  | nil => rfl
  | cons e es ih => exact ih (emit e s)

/-- Everything an arrival of class App or Admin can do. -/
theorem rxPlain_cases (d : Descriptor) (hdr : Header) (payload b : Bytes) (s : State) :
    (∃ k, route s.params d = .relay ∧ relayCheck s.params b.length = some k ∧
      rxPlain d hdr payload b s = raise k (headerInfo hdr) s) ∨
    (∃ reply last status, Feasible s d b ∧
      PlainEnd s d hdr payload b (rxCode s.params s.seq d hdr payload) last status ∧
      reply.length ≤ 1 ∧ (∀ e ∈ reply, ∃ f, e = Event.tx f) ∧
      rxPlain d hdr payload b s =
        setResult { headerInfo hdr with
            ack := some (rxCode s.params s.seq d hdr payload), status := status }
          (emitAll (reply ++ last) { s with seq := seqAdvance s.seq hdr.slid hdr.pkgNum })) := by
  by_cases hf : Feasible s d b
  · refine .inr ?_
    rw [rxPlain_feasible s d hdr payload b hf]
    generalize rxCode s.params s.seq d hdr payload = code
    obtain ⟨reply, he, hl, htx⟩ := emitReply_events d hdr code
      { s with seq := seqAdvance s.seq hdr.slid hdr.pkgNum }
    rw [he]
    by_cases hc : code = .success
    · subst hc
      cases hr : route s.params d with
      | relay =>
        have hcheck : relayCheck s.params b.length = none := by
          simpa [Feasible, hr] using hf
        have hbr : s.params.bridgeMode ≠ .unbridged := by
          intro hu
          simp [route, hu] at hr
        obtain ⟨raw, dest, ho⟩ :
            ∃ raw dest, relayOutput s.params s.ownSlid d hdr b = some (raw, dest) := by
          unfold relayOutput
          cases hm : s.params.bridgeMode with
          | unbridged => exact absurd hm hbr
          | storeside => exact ⟨_, _, rfl⟩
          | nodeside => exact ⟨_, _, rfl⟩
        refine ⟨reply, _, _, hf, .relayed raw dest rfl rfl rfl hr ho, hl, htx, ?_⟩
        rw [rxFinish_relayed _ _ _ _ _ (by simpa using hr)]
        rw [brgRelay_out _ _ _ _ _ raw dest (by simpa using hcheck) (by simpa using ho)]
        rw [emitAll_append]
        rfl
      | localLeg =>
        by_cases hcl : d.opClass = .app
        · refine ⟨reply, _, _, hf, .delivered rfl rfl rfl hr hcl, hl, htx, ?_⟩
          rw [rxFinish_delivered _ _ _ _ _ (by simpa using hr) hcl, emitAll_append]
          rfl
        · refine ⟨reply, _, _, hf, .recognized rfl rfl rfl hr hcl, hl, htx, ?_⟩
          rw [rxFinish_recognized _ _ _ _ _ (by simpa using hr) hcl, List.append_nil]
    · refine ⟨reply, _, _, hf, .dropped hc rfl rfl, hl, htx, ?_⟩
      rw [rxFinish_dropped _ _ _ _ _ _ hc, emitAll_append]
      rfl
  · refine .inl ?_
    unfold Feasible at hf
    cases hr : route s.params d with
    | localLeg => simp [hr] at hf
    | relay =>
      cases hk : relayCheck s.params b.length with
      | none => simp [hk] at hf
      | some k => exact ⟨k, rfl, rfl, rxPlain_infeasible s d hdr payload b k hr hk⟩

/-- How RX ends on a frame within MAX_FRAME, from a state `s` in which SLC is running. -/
inductive RxEnd (b : Bytes) (s : State) : State → Prop where
  | raised (k : Raised) (info : Result) : RxEnd b s (raise k info s)
  | turnedAway (info : Result) (h : info.status = .bridgeInert ∨ info.status = .bridgeRefused) :
      RxEnd b s (setResult info s)
  | unwrapped (d : Descriptor) (hdr : Header) (head inner : Bytes) (dest : Slid)
      (hd : opLookup s.params (b.headD 0) = some d) (hb : d.opClass = .bridge)
      (hdir : d.direction = .storeToNode) (hm : s.params.bridgeMode = .storeside)
      (hk : decodeKind d.headerKind b = some (hdr, le32 dest ++ inner))
      (hv : validSlid hdr.slid = true)
      (hw : b = head ++ le32 dest ++ inner) (hl : head.length = hlen d.headerKind)
      (ht : validSlid dest = true) (hi : innerCheck s.params inner = none) :
      RxEnd b s (setResult { headerInfo hdr with status := .rxRelayed }
        (emit (.bridgeOut (head ++ inner) dest) s))
  | ackDropped (info : Result) (k : ExcKind)
      (h : info.status = .rxSizeErr ∨ info.status = .rxAckUnmatched) (hx : info.exc = none) :
      RxEnd b s (setResult info (logSoft k s))
  | ackMatched (hdr : Header) (code : Byte) (h : Nat) (hm : firstMatch hdr s.out = some h) :
      RxEnd b s (setResult { headerInfo hdr with status := .rxAckMatched, h := h }
        (emit (.done h (.ackReceived code)) { s with out := s.out.set h .free }))
  | ackRelayed (d : Descriptor) (hdr : Header) (payload raw : Bytes) (dest : Slid)
      (hd : opLookup s.params (b.headD 0) = some d) (hc : d.opClass = .ack)
      (hk : decodeKind d.headerKind b = some (hdr, payload)) (hv : validSlid hdr.slid = true)
      (hr : route s.params d = .relay) (hch : relayCheck s.params b.length = none)
      (ho : relayOutput s.params s.ownSlid d hdr b = some (raw, dest)) :
      RxEnd b s (setResult { headerInfo hdr with status := .rxRelayed }
        (emit (.bridgeOut raw dest) s))
  | plain (d : Descriptor) (hdr : Header) (payload : Bytes) (reply last : List Event)
      (code : AckCode) (status : Status) (hd : opLookup s.params (b.headD 0) = some d)
      (hc : d.opClass = .app ∨ d.opClass = .admin)
      (hk : decodeKind d.headerKind b = some (hdr, payload)) (hv : validSlid hdr.slid = true)
      (hf : Feasible s d b)
      (hcode : rxCode s.params s.seq d hdr payload = code)
      (he : PlainEnd s d hdr payload b code last status) (hl : reply.length ≤ 1)
      (htx : ∀ e ∈ reply, ∃ f, e = Event.tx f) :
      RxEnd b s (setResult { headerInfo hdr with ack := some code, status := status }
        (emitAll (reply ++ last) { s with seq := seqAdvance s.seq hdr.slid hdr.pkgNum }))

/-- Every relay that BRG makes of an ack ends in one of these ways. -/
theorem ackRx_cases (d : Descriptor) (hdr : Header) (payload b : Bytes) (s : State)
    (hd : opLookup s.params (b.headD 0) = some d) (hc : d.opClass = .ack)
    (hk : decodeKind d.headerKind b = some (hdr, payload)) (hv : validSlid hdr.slid = true) :
    RxEnd b s (ackRx d hdr payload b s) := by
  by_cases hl : payload.length = 1
  · obtain ⟨code, rfl⟩ := List.length_eq_one_iff.mp hl
    cases hm : firstMatch hdr s.out with
    | some h =>
      rw [ackRx_matched d hdr code b s h hm]
      exact .ackMatched hdr code h hm
    | none =>
      by_cases hr : route s.params d = .relay
      · rw [ackRx_relayed d hdr code b s hm hr]
        rcases brgRelay_cases d hdr b (headerInfo hdr) s with
          ⟨k, -, h⟩ | ⟨-, hu, h⟩ | ⟨raw, dest, hch, ho, h⟩
        · rw [h]
          exact .raised k _
        · rw [h]
          exact .turnedAway _ (.inl rfl)
        · rw [h]
          exact .ackRelayed d hdr [code] raw dest hd hc hk hv hr hch ho
      · rw [ackRx_unmatched d hdr code b s hm (by cases h : route s.params d <;> simp_all)]
        exact .ackDropped _ _ (.inr rfl) rfl
  · rw [ackRx_wrongSize d hdr payload b s hl]
    exact .ackDropped _ _ (.inl rfl) rfl

/-- The parts of a wire form that CONSUME takes apart. -/
theorem consume_eq_some (b raw : Bytes) (hl : Nat) (dest : Slid) (hb : hl ≤ b.length)
    (h : consume b hl = some (raw, dest)) :
    ∃ head inner, b = head ++ le32 dest ++ inner ∧ head.length = hl ∧ raw = head ++ inner ∧
      b.drop hl = le32 dest ++ inner := by
  unfold consume at h
  split at h
  · rename_i t0 t1 t2 t3 inner hdrop
    simp only [Option.some.injEq, Prod.mk.injEq] at h
    obtain ⟨rfl, rfl⟩ := h
    have hd : b.drop hl = le32 (fromLe32 t0 t1 t2 t3) ++ inner := by
      rw [hdrop, le32_fromLe32]
      rfl
    refine ⟨b.take hl, inner, ?_, ?_, rfl, hd⟩
    · rw [List.append_assoc, ← hd, List.take_append_drop]
    · rw [List.length_take]
      omega
  · cases h

/-- Everything CONSUME_AND_RELAY can do. -/
theorem consumeAndRelay_cases (d : Descriptor) (hdr : Header) (payload b : Bytes) (s : State)
    (hd : opLookup s.params (b.headD 0) = some d) (hc : d.opClass = .bridge)
    (hdir : d.direction = .storeToNode) (hm : s.params.bridgeMode = .storeside)
    (hk : decodeKind d.headerKind b = some (hdr, payload)) (hv : validSlid hdr.slid = true) :
    RxEnd b s (consumeAndRelay d hdr b s) := by
  unfold consumeAndRelay
  split
  · exact .raised _ _
  · rename_i hlen'
    split
    · exact .raised _ _
    · rename_i raw dest hcons
      split
      · exact .raised _ _
      · rename_i hdest
        split
        · exact .raised _ _
        · exact .raised _ _
        · rename_i hinner
          obtain ⟨head, inner, hb, hl, rfl, hdrop⟩ :=
            consume_eq_some b raw _ dest (by omega) hcons
          have hi : (head ++ inner).drop (hlen d.headerKind) = inner := by
            rw [← hl, List.drop_left]
          rw [hi] at hinner
          have hp : payload = le32 dest ++ inner := by
            have hb' := eq_of_decodeKind d.headerKind b hdr payload hk
            have : b.drop (hlen d.headerKind) = payload := by
              rw [hb', ← length_encodeKind d.headerKind hdr.op hdr.slid hdr.pkgNum hdr.rssi,
                List.drop_left]
            rw [← this, hdrop]
          subst hp
          exact .unwrapped d hdr head inner dest hd hc hdir hm hk hv hb hl
            (by simpa using hdest) hinner

/-- Everything RX can do behind its gates. -/
theorem rxRun_ends (b : Bytes) (s : State) : RxEnd b s (rxRun b s) := by
  rcases rxRun_cases b s with ⟨k, info, h⟩ | ⟨op, rest, d, hdr, payload, rfl, hd, hk, hv, h⟩
  · rw [h]
    exact .raised k info
  · rw [h]
    cases hc : d.opClass with
    | bridge =>
      simp only [rxDispatch, hc, brgRx]
      split
      · exact .turnedAway _ (.inl rfl)
      · exact .turnedAway _ (.inr rfl)
      · rename_i hm
        split
        · rename_i hdir
          exact consumeAndRelay_cases d hdr payload (op :: rest) s hd hc hdir hm hk hv
        · exact .turnedAway _ (.inr rfl)
    | ack =>
      simp only [rxDispatch, hc]
      exact ackRx_cases d hdr payload (op :: rest) s hd hc hk hv
    | app =>
      simp only [rxDispatch, hc]
      rcases rxPlain_cases d hdr payload (op :: rest) s with
        ⟨k, -, -, hx⟩ | ⟨reply, last, status, hf, he, hl, htx, hx⟩
      · rw [hx]
        exact .raised k _
      · rw [hx]
        exact .plain d hdr payload reply last _ status hd (.inl hc) hk hv hf rfl he hl htx
    | admin =>
      simp only [rxDispatch, hc]
      rcases rxPlain_cases d hdr payload (op :: rest) s with
        ⟨k, -, -, hx⟩ | ⟨reply, last, status, hf, he, hl, htx, hx⟩
      · rw [hx]
        exact .raised k _
      · rw [hx]
        exact .plain d hdr payload reply last _ status hd (.inr hc) hk hv hf rfl he hl htx

/-! ### FWD -/

/-- How FWD ends on a frame within MAX_FRAME, from a state `s` in which a bridge is running. -/
inductive FwdEnd (s : State) : State → Prop where
  | raised (k : Raised) (info : Result) : FwdEnd s (raise k info s)
  | turnedAway (info : Result) (h : info.status = .bridgeRefused) : FwdEnd s (setResult info s)
  | forwarded (hdr : Header) (w : Bytes) :
      FwdEnd s (setResult { headerInfo hdr with status := .fwdSent } (emit (.tx w) s))

/-- Everything FWD can do behind its gates. -/
theorem fwdRun_ends (raw : Bytes) (dest : Slid) (s : State) : FwdEnd s (fwdRun raw dest s) := by
  unfold fwdRun
  split
  · exact .raised _ _
  · split
    · exact .raised _ _
    · split
      · exact .turnedAway _ rfl
      · split
        · exact .raised _ _
        · split
          · exact .raised _ _
          · split
            · exact .raised _ _
            · split
              · exact .raised _ _
              · split
                · exact .raised _ _
                · unfold fwdTransmit
                  split
                  · exact .forwarded _ _
                  · split
                    · exact .raised _ _
                    · exact .forwarded _ _

/-! ### SEND -/

/-- How SEND ends from a state `s` in which SLC is running. -/
inductive SendEnd (op : OpCode) (slid : Slid) (payload : Bytes) (rssi : Byte) (now : Clock)
    (s : State) : State → Prop where
  | raised (k : Raised) (info : Result) : SendEnd op slid payload rssi now s (raise k info s)
  | refused (info : Result)
      (h : info.status = .refusedOp ∨ info.status = .tooLong ∨ info.status = .outFull) :
      SendEnd op slid payload rssi now s (setResult info s)
  | sent (d : Descriptor) (hd : opLookup s.params op = some d) (hv : validSlid slid = true)
      (hl : hlen d.headerKind + payload.length ≤ s.params.maxFrame)
      (hr : d.reliabilityRequired = false) :
      SendEnd op slid payload rssi now s (transmit d op slid payload rssi now none s)
  | sentReliable (d : Descriptor) (h : Nat) (hd : opLookup s.params op = some d)
      (hv : validSlid slid = true) (hl : hlen d.headerKind + payload.length ≤ s.params.maxFrame)
      (hr : d.reliabilityRequired = true) (hf : firstFree s.out = some h) :
      SendEnd op slid payload rssi now s (transmit d op slid payload rssi now (some h) s)

/-- Everything SEND can do behind its gate. -/
theorem sendRun_ends (op : OpCode) (slid : Slid) (payload : Bytes) (rssi : Byte) (now : Clock)
    (s : State) :
    SendEnd op slid payload rssi now s (sendRun op slid payload rssi now s) := by
  unfold sendRun
  split
  · exact .raised _ _
  · rename_i d hd
    split
    · exact .refused _ (.inl rfl)
    · split
      · exact .raised _ _
      · rename_i hv
        split
        · exact .refused _ (.inr (.inl rfl))
        · rename_i hl
          split
          · rename_i hr
            split
            · exact .refused _ (.inr (.inr rfl))
            · rename_i h hf
              exact .sentReliable d h hd (by simpa using hv) (by omega) hr hf
          · rename_i hr
            exact .sent d hd (by simpa using hv) (by omega) (by simpa using hr)

/-! ### Every instruction -/

/-- How an instruction ends in a next state, from a state `s`. A command that acts only in Running
starts from `s` with RESULT cleared. -/
inductive ExecEnd (i : Instr) (s : State) : State → Prop where
  | notRunning (hr : s.run ≠ .running) (hi : i ≠ .reset) (hc : ∀ r, i ≠ .cfgLoad r) :
      ExecEnd i s { s with result := { status := .notRunning } }
  | arrival (b : Bytes) (t : State) (hi : exec i = receive b) (hb : i = .rx b ∨ wireArrival i = true)
      (hr : s.run = .running) (hl : b.length ≤ s.params.maxFrame)
      (h : RxEnd b { s with result := {} } t) : ExecEnd i s t
  | send (op : OpCode) (slid : Slid) (payload : Bytes) (rssi : Byte) (now : Clock) (t : State)
      (hi : i = .send op slid payload rssi now) (hr : s.run = .running)
      (h : SendEnd op slid payload rssi now { s with result := {} } t) : ExecEnd i s t
  | tick (now : Clock) (hi : i = .tick now) (hr : s.run = .running) :
      ExecEnd i s (tickRun now { s with result := {} })
  | cancelled (h : Nat) (e : OutEntry) (hi : i = .cancel h) (hr : s.run = .running)
      (hs : s.out[h]? = some (.sent e)) :
      ExecEnd i s { s with out := s.out.set h .free, result := { status := .cancelled, h := h } }
  | noEntry (h : Nat) (hi : i = .cancel h) (hr : s.run = .running) :
      ExecEnd i s { s with result := { status := .noEntry, h := h } }
  | cancelAll (hi : i = .cancelAll) (hr : s.run = .running) :
      ExecEnd i s (cancelAllRun { s with result := {} })
  | fwdInert (raw : Bytes) (dest : Slid) (hi : i = .fwd raw dest) (hr : s.run = .running)
      (hm : s.params.bridgeMode = .unbridged) :
      ExecEnd i s { s with result := { status := .bridgeInert } }
  | fwd (raw : Bytes) (dest : Slid) (t : State) (hi : i = .fwd raw dest) (hr : s.run = .running)
      (hm : s.params.bridgeMode ≠ .unbridged) (hl : raw.length ≤ s.params.maxFrame)
      (h : FwdEnd { s with result := {} } t) : ExecEnd i s t
  | reset (hi : i = .reset) :
      ExecEnd i s { s with
        run := .unconfigured
        ownSlid := Config.unspecifiedSlid s.draws
        draws := s.draws + 1
        txSeq := 0
        seq := []
        out := List.replicate s.params.nOut .free
        result := {} }
  | cfgRefused (record : Option Bytes) (hi : i = .cfgLoad record) (hr : s.run ≠ .unconfigured) :
      ExecEnd i s { s with result := { status := .refusedState } }
  | cfgFatal (record : Option Bytes) (k : ExcKind) (slid : Slid) (hi : i = .cfgLoad record)
      (hr : s.run = .unconfigured) : ExecEnd i s (cfgFatal k slid s)
  | cfgOk (record : Option Bytes) (slid : Slid) (hi : i = .cfgLoad record)
      (hr : s.run = .unconfigured) (hv : validSlid slid = true) :
      ExecEnd i s { s with
        ownSlid := slid, run := .running, result := { status := .cfgOk, slid := slid } }

theorem execEnd_receive (i : Instr) (b : Bytes) (s t : State) (hi : exec i = receive b)
    (hb : i = .rx b ∨ wireArrival i = true) (hr : i ≠ .reset) (hc : ∀ r, i ≠ .cfgLoad r)
    (h : exec i s = .next t) : ExecEnd i s t := by
  rw [hi] at h
  rcases receive_next b s t h with ⟨hrun, hl, rfl⟩ | ⟨hrun, rfl⟩
  · exact .arrival b _ hi hb hrun hl (rxRun_ends b { s with result := {} })
  · exact .notRunning hrun hr hc

theorem execEnd_cfgLoad (record : Option Bytes) (s t : State)
    (h : execCfgLoad record s = .next t) : ExecEnd (.cfgLoad record) s t := by
  unfold execCfgLoad at h
  split at h
  · rename_i hr
    rw [Host.Outcome.next.injEq] at h
    subst h
    unfold cfgLoadRun
    split
    · unfold cfgRecord
      dsimp only
      split
      · exact .cfgFatal _ _ _ rfl hr
      · split
        · exact .cfgFatal _ _ _ rfl hr
        · rename_i hv
          exact .cfgOk _ _ rfl hr (by simpa using hv)
    · exact .cfgFatal _ _ _ rfl hr
  · rename_i hr
    rw [Host.Outcome.next.injEq] at h
    subst h
    exact .cfgRefused record rfl hr

theorem execEnd_fwd (raw : Bytes) (dest : Slid) (s t : State) (h : execFwd raw dest s = .next t) :
    ExecEnd (.fwd raw dest) s t := by
  by_cases hr : s.run = .running
  · by_cases hm : s.params.bridgeMode = .unbridged
    · rw [execFwd_unbridged raw dest s hr hm, Host.Outcome.next.injEq] at h
      subst h
      exact .fwdInert raw dest rfl hr hm
    · by_cases hl : raw.length ≤ s.params.maxFrame
      · rw [execFwd_bridge raw dest s hr hm hl, Host.Outcome.next.injEq] at h
        subst h
        exact .fwd raw dest _ rfl hr hm hl (fwdRun_ends raw dest { s with result := {} })
      · exfalso
        rw [execFwd, whenRunning_running _ s hr] at h
        have hg : fwdGate raw dest { s with result := {} } =
            withinMaxFrame raw (fwdRun raw dest) { s with result := {} } := by
          cases hb : s.params.bridgeMode with
          | unbridged => exact absurd hb hm
          | storeside => simp only [fwdGate, hb]
          | nodeside => simp only [fwdGate, hb]
        rw [hg] at h
        exact hl (withinMaxFrame_next _ _ _ _ h).1
  · rw [execFwd, whenRunning_not_running _ s hr, Host.Outcome.next.injEq] at h
    subst h
    exact .notRunning hr (by simp) (by simp)

theorem execEnd_cancel (h : Nat) (s t : State) (hx : execCancel h s = .next t) :
    ExecEnd (.cancel h) s t := by
  by_cases hr : s.run = .running
  · rw [execCancel_running h s hr, Host.Outcome.next.injEq] at hx
    subst hx
    by_cases hs : ∃ e, s.out[h]? = some (.sent e)
    · obtain ⟨e, hs⟩ := hs
      rw [cancelRun_sent h { s with result := {} } e hs]
      exact .cancelled h e rfl hr hs
    · rw [cancelRun_noEntry h { s with result := {} } (fun e he => hs ⟨e, he⟩)]
      exact .noEntry h rfl hr
  · rw [execCancel, whenRunning_not_running _ s hr, Host.Outcome.next.injEq] at hx
    subst hx
    exact .notRunning hr (by simp) (by simp)

/-- Everything an instruction can do that has a next state. -/
theorem exec_ends (i : Instr) (s t : State) (h : exec i s = .next t) : ExecEnd i s t := by
  cases i with
  | reset =>
    cases h
    exact .reset rfl
  | cfgLoad record => exact execEnd_cfgLoad record s t h
  | rx b => exact execEnd_receive _ b s t rfl (.inl rfl) (by simp) (by simp) h
  | send op slid payload rssi now =>
    rcases whenRunning_next (fun r => .next (sendRun op slid payload rssi now r)) s t h with
      ⟨hr, ha⟩ | ⟨hr, rfl⟩
    · rw [Host.Outcome.next.injEq] at ha
      subst ha
      exact .send op slid payload rssi now _ rfl hr
        (sendRun_ends op slid payload rssi now { s with result := {} })
    · exact .notRunning hr (by simp) (by simp)
  | tick now =>
    rcases whenRunning_next (fun r => .next (tickRun now r)) s t h with ⟨hr, ha⟩ | ⟨hr, rfl⟩
    · rw [Host.Outcome.next.injEq] at ha
      subst ha
      exact .tick now rfl hr
    · exact .notRunning hr (by simp) (by simp)
  | cancel n => exact execEnd_cancel n s t h
  | fwd raw dest => exact execEnd_fwd raw dest s t h
  | cancelAll =>
    rcases whenRunning_next (fun r => .next (cancelAllRun r)) s t h with ⟨hr, ha⟩ | ⟨hr, rfl⟩
    · rw [Host.Outcome.next.injEq] at ha
      subst ha
      exact .cancelAll rfl hr
    · exact .notRunning hr (by simp) (by simp)
  | _ => exact execEnd_receive _ _ s t rfl (.inr rfl) (by simp) (by simp) h

end Sys2Proof.Machine
end

