-- ==== Sys2Proof/Laws/PerInstr.lean ====
section
/-! SUPPORT. One lemma per instruction: the message of an instruction starts with the value that its row
of spec/opcode_table.json matches on. -/

namespace Sys2Proof.Laws

/-- The first byte of the message of `i` is the code of `i`. -/
def CodeByte.Statement (i : Instr) : Prop := (encode i).head? = some i.code

namespace CodeByte

theorem wireDN (slid : Slid) (pkg : PkgNum) (payload : Bytes) :
    Statement (.wireDN slid pkg payload) := rfl

theorem wireDS (slid : Slid) (pkg : PkgNum) (rssi : Byte) (payload : Bytes) :
    Statement (.wireDS slid pkg rssi payload) := rfl

theorem wireBN (slid : Slid) (pkg : PkgNum) (body : Bytes) :
    Statement (.wireBN slid pkg body) := rfl

theorem wireBS (slid : Slid) (pkg : PkgNum) (rssi : Byte) (body : Bytes) :
    Statement (.wireBS slid pkg rssi body) := rfl

theorem wireX34 (slid : Slid) (pkg : PkgNum) (payload : Bytes) :
    Statement (.wireX34 slid pkg payload) := rfl

theorem wireX35 (slid : Slid) (pkg : PkgNum) (rssi : Byte) (payload : Bytes) :
    Statement (.wireX35 slid pkg rssi payload) := rfl

theorem wireX36 (slid : Slid) (pkg : PkgNum) (payload : Bytes) :
    Statement (.wireX36 slid pkg payload) := rfl

theorem wireX37 (slid : Slid) (pkg : PkgNum) (rssi : Byte) (payload : Bytes) :
    Statement (.wireX37 slid pkg rssi payload) := rfl

theorem wireSC (slid : Slid) (pkg : PkgNum) (payload : Bytes) :
    Statement (.wireSC slid pkg payload) := rfl

theorem wireOF (slid : Slid) (pkg : PkgNum) (rssi : Byte) (payload : Bytes) :
    Statement (.wireOF slid pkg rssi payload) := rfl

theorem wireX3A (slid : Slid) (pkg : PkgNum) (payload : Bytes) :
    Statement (.wireX3A slid pkg payload) := rfl

theorem wireX3B (slid : Slid) (pkg : PkgNum) (rssi : Byte) (payload : Bytes) :
    Statement (.wireX3B slid pkg rssi payload) := rfl

theorem wireAS (slid : Slid) (pkg : PkgNum) (payload : Bytes) :
    Statement (.wireAS slid pkg payload) := rfl

theorem wireX3D (slid : Slid) (pkg : PkgNum) (rssi : Byte) (payload : Bytes) :
    Statement (.wireX3D slid pkg rssi payload) := rfl

theorem wireAN (slid : Slid) (pkg : PkgNum) (payload : Bytes) :
    Statement (.wireAN slid pkg payload) := rfl

theorem wireX3F (slid : Slid) (pkg : PkgNum) (rssi : Byte) (payload : Bytes) :
    Statement (.wireX3F slid pkg rssi payload) := rfl

theorem reset : Statement .reset := rfl

theorem cfgLoad (record : Option Bytes) : Statement (.cfgLoad record) := by
  cases record <;> rfl

theorem rx (frame : Bytes) : Statement (.rx frame) := rfl

theorem send (op : OpCode) (slid : Slid) (payload : Bytes) (rssi : Byte) (now : Clock) :
    Statement (.send op slid payload rssi now) := rfl

theorem tick (now : Clock) : Statement (.tick now) := rfl

theorem cancel (h : Nat) : Statement (.cancel h) := rfl

theorem fwd (raw : Bytes) (dest : Slid) : Statement (.fwd raw dest) := rfl

theorem cancelAll : Statement .cancelAll := rfl

end CodeByte
end Sys2Proof.Laws
end

