-- ==== Sys2Proof/Tests/Slice0.lean ====
section
/-! SUPPORT. The model's own tests: the smoke test of well-formedness, the decoding of words written out
from the spec's encodings, single steps from the vectors of spec/95_test_vectors.md (named in the
comments), and for every obligation with hypotheses a state and operands that meet them. -/

namespace Sys2Proof.Tests

open Sys2Proof Sys2Proof.Machine

/-! ### Helpers -/

/-- A Running SLC in the configuration of the vectors, with OWN_SLID 0x200 and empty tables. -/
def stateIn (mode : BridgeMode) : State :=
  { run := .running, ownSlid := 0x200, txSeq := 0, result := {}, seq := [], out := [.free, .free],
    params := vectorParams mode, port := [], events := [], draws := 0 }

/-- The same SLC, after frames were accepted. -/
def stateWithSeq (mode : BridgeMode) (t : SeqTable) : State := { stateIn mode with seq := t }

/-- The same SLC, with these entries in OUT. -/
def stateWithOut (mode : BridgeMode) (o : List OutSlot) : State := { stateIn mode with out := o }

/-- An SLC after RESET. -/
def stateUnconfigured : State := { stateIn .unbridged with run := .unconfigured }

/-- The next state, when there is one. -/
def nextOf (o : Host.Outcome State Fault Refusal) : Option State :=
  match o with
  | .next s => some s
  | .fault _ => none
  | .refused _ => none

/-- What the vectors tabulate: the events, SEQ, and the status and ack of RESULT. -/
def seen (o : Host.Outcome State Fault Refusal) :
    Option (List Event × SeqTable × Status × Option AckCode) :=
  (nextOf o).map fun s => (s.events, s.seq, s.result.status, s.result.ack)

/-- TXSEQ, OUT and the events. -/
def sentOf (o : Host.Outcome State Fault Refusal) : Option (PkgNum × List OutSlot × List Event) :=
  (nextOf o).map fun s => (s.txSeq, s.out, s.events)

/-- The status and the events. -/
def statusOf (o : Host.Outcome State Fault Refusal) : Option (Status × List Event) :=
  (nextOf o).map fun s => (s.result.status, s.events)

/-- The frame f of the vectors: DS from node 0x101, pkg_num 7, rssi 42. -/
def frameF : Bytes := [0x31, 0x01, 0x01, 0x00, 0x00, 0x07, 0x00, 0x2A, 0xDE, 0xAD]

/-- The frame g of the vectors: DN to node 0x101, pkg_num 9. -/
def frameG : Bytes := [0x30, 0x01, 0x01, 0x00, 0x00, 0x09, 0x00, 0x55]

/-- The OUT entry of P2 step 1. -/
def entryP2 : OutEntry :=
  { op := 0x31, slid := 0x101, pkgNum := 1, replyOp := 0x3E,
    frame := [0x31, 0x01, 0x01, 0x00, 0x00, 0x01, 0x00, 0x00, 0x01, 0x02], retries := 0,
    deadline := 1100 }

/-! ### Well-formedness: the smoke test -/

theorem test_wf_vector_params : (vectorParams .unbridged).wf = true := by decide
/-- ACK_TIMEOUT 0 (R9). -/
theorem test_wf_refuses_timeout_zero :
    { vectorParams .unbridged with ackTimeout := 0 }.wf = false := by decide
/-- ACK_TIMEOUT 2^31 (R9). -/
theorem test_wf_refuses_timeout_high :
    { vectorParams .unbridged with ackTimeout := 2 ^ 31 }.wf = false := by decide
/-- N_OUT 0 (R10). -/
theorem test_wf_refuses_no_out : { vectorParams .unbridged with nOut := 0 }.wf = false := by decide
/-- MAX_FRAME 18 (R11). -/
theorem test_wf_refuses_max_frame :
    { vectorParams .unbridged with maxFrame := 18 }.wf = false := by decide
/-- Fifteen rows (R48). -/
theorem test_wf_refuses_fifteen_rows : Params.optabSized (defaultOptab.take 15) = false := by decide
/-- DN as data kind (R172 condition 1). -/
theorem test_wf_refuses_kind :
    Params.optabKinds (defaultOptab.set 0 (appRow .data .storeToNode 0x3C)) = false := by decide
/-- DN reliable without a reply, and DN answered by DS (R172 condition 2). -/
theorem test_wf_refuses_replies :
    Params.optabReplies (defaultOptab.set 0 { defaultOptab[0]! with replyOp := none }) = false ∧
    Params.optabReplies (defaultOptab.set 0 (appRow .control .storeToNode 0x31)) = false := by
  decide
/-- AS with two payload bytes (R172 condition 3). -/
theorem test_wf_refuses_acks :
    Params.optabAcks (defaultOptab.set 12 { ackRow .nodeToStore with explen := some 2 }) = false := by
  decide
/-- No BN, and a second BS (R172 condition 4). -/
theorem test_wf_refuses_bridges :
    Params.optabBridges (defaultOptab.set 2 (adminRow .control .storeToNode)) = false ∧
    Params.optabBridges (defaultOptab.set 5 (bridgeRow .data .nodeToStore)) = false := by decide
/-- A version check without an expected length (R172 condition 5). -/
theorem test_wf_refuses_versions :
    Params.optabVersions (defaultOptab.set 8 { scRow with explen := none }) = false := by decide
/-- DS toward the node (R172 condition 6). -/
theorem test_wf_refuses_ds :
    Params.optabDS (defaultOptab.set 1 (appRow .data .storeToNode 0x3E)) = false := by decide
/-- The reserved strap value 3 (R39, U9). -/
theorem test_wf_refuses_strap : bridgeModeOfStrap 3 = none := by decide
/-- A frame of MAX_FRAME bytes is in the operand domain, one of MAX_FRAME + 1 is not (R11, U19). -/
theorem test_wf_refuses_long_frame :
    (Instr.rx (List.replicate 80 0x30)).wellFormed (vectorParams .unbridged) = true ∧
    (Instr.rx (List.replicate 81 0x30)).wellFormed (vectorParams .unbridged) = false := by decide

/-! ### Decoding: words written out from R101, R102, R113, R120 -/

theorem test_decode_DN : decode [0x30, 0xFF, 0x10, 0x00, 0x00, 0xCD, 0xAB, 0x55] =
    .ok (.wireDN 0x10FF 0xABCD [0x55]) := by decide
/-- S1, the source's own example. -/
theorem test_decode_DS : decode [0x31, 0x00, 0x01, 0x00, 0x00, 0x05, 0x00, 0x64] =
    .ok (.wireDS 0x100 5 100 []) := by decide
/-- H9: least significant byte first. -/
theorem test_decode_DS_order : decode [0x31, 0x78, 0x56, 0x34, 0x12, 0x02, 0x01, 0x00] =
    .ok (.wireDS 0x12345678 0x0102 0 []) := by decide
theorem test_decode_BN :
    decode [0x32, 0x00, 0x02, 0x00, 0x00, 0x09, 0x00, 0x01, 0x01, 0x00, 0x00, 0x30] =
    .ok (.wireBN 0x200 9 [0x01, 0x01, 0x00, 0x00, 0x30]) := by decide
theorem test_decode_BS :
    decode [0x33, 0x00, 0x02, 0x00, 0x00, 0x07, 0x00, 0x2A, 0xFF, 0x10, 0x00, 0x00, 0x31] =
    .ok (.wireBS 0x200 7 42 [0xFF, 0x10, 0x00, 0x00, 0x31]) := by decide
theorem test_decode_X34 : decode [0x34, 0x01, 0x01, 0, 0, 0x02, 0, 0xAA] =
    .ok (.wireX34 0x101 2 [0xAA]) := by decide
theorem test_decode_X35 : decode [0x35, 0x01, 0x01, 0, 0, 0x02, 0, 0x0A, 0xAA] =
    .ok (.wireX35 0x101 2 10 [0xAA]) := by decide
theorem test_decode_X36 : decode [0x36, 0x01, 0x01, 0, 0, 0x02, 0, 0xAA] =
    .ok (.wireX36 0x101 2 [0xAA]) := by decide
theorem test_decode_X37 : decode [0x37, 0x01, 0x01, 0, 0, 0x02, 0, 0x0A, 0xAA] =
    .ok (.wireX37 0x101 2 10 [0xAA]) := by decide
theorem test_decode_SC : decode [0x38, 0x00, 0x01, 0, 0, 0x02, 0, 0x01, 0x02, 0x03] =
    .ok (.wireSC 0x100 2 [0x01, 0x02, 0x03]) := by decide
theorem test_decode_OF : decode [0x39, 0x01, 0x01, 0, 0, 0x04, 0, 0, 0x3C, 0] =
    .ok (.wireOF 0x101 4 0 [0x3C, 0]) := by decide
theorem test_decode_X3A : decode [0x3A, 0x01, 0x01, 0, 0, 0x02, 0] = .ok (.wireX3A 0x101 2 []) := by
  decide
theorem test_decode_X3B : decode [0x3B, 0x01, 0x01, 0, 0, 0x02, 0, 0x0A] =
    .ok (.wireX3B 0x101 2 10 []) := by decide
theorem test_decode_AS : decode [0x3C, 0x00, 0x01, 0, 0, 0x03, 0, 0x04] =
    .ok (.wireAS 0x100 3 [0x04]) := by decide
theorem test_decode_X3D : decode [0x3D, 0x01, 0x01, 0, 0, 0x02, 0, 0x0A] =
    .ok (.wireX3D 0x101 2 10 []) := by decide
theorem test_decode_AN : decode [0x3E, 0x01, 0x01, 0, 0, 0x02, 0, 0x01] =
    .ok (.wireAN 0x101 2 [0x01]) := by decide
theorem test_decode_X3F : decode [0x3F, 0x01, 0x01, 0, 0, 0x02, 0, 0x0A] =
    .ok (.wireX3F 0x101 2 10 []) := by decide
/-- The command codes of R120; the operands behind them are the model's (log entry 6). -/
theorem test_decode_RESET : decode [0] = .ok .reset := by decide
theorem test_decode_CFG_LOAD : decode [1, 0] = .ok (.cfgLoad none) ∧
    decode [1, 1, 0x01, 0x02] = .ok (.cfgLoad (some [0x01, 0x02])) := by decide
theorem test_decode_RX : decode [2, 0x40, 0x00] = .ok (.rx [0x40, 0x00]) := by decide
theorem test_decode_SEND : decode [3, 0x31, 0x01, 0x01, 0, 0, 7, 0xF0, 0xFF, 0xFF, 0xFF, 0xAA] =
    .ok (.send 0x31 0x101 [0xAA] 7 0xFFFFFFF0) := by decide
theorem test_decode_TICK : decode [4, 0x54, 0, 0, 0] = .ok (.tick 0x54) := by decide
theorem test_decode_CANCEL : decode [5, 0x01, 0x02] = .ok (.cancel 0x201) := by decide
theorem test_decode_FWD : decode [6, 0xFF, 0x10, 0, 0, 0x33] = .ok (.fwd [0x33] 0x10FF) := by decide
theorem test_decode_CANCEL_ALL : decode [7] = .ok .cancelAll := by decide
/-- What names no instruction is refused by name: ops next to the sixteen, a frame shorter than its
header (H5, H6), commands with operands too long or too short. -/
theorem test_decode_refuses : decode [] = .error .emptyMessage ∧
    decode [0x2F] = .error (.unknownCode 0x2F) ∧ decode [0x40] = .error (.unknownCode 0x40) ∧
    decode [8] = .error (.unknownCode 8) ∧
    decode [0x31, 0x00, 0x01, 0x00, 0x00, 0x05, 0x00] = .error (.shortHeader 0x31) ∧
    decode [0x30, 0x00, 0x01, 0x00, 0x00, 0x05] = .error (.shortHeader 0x30) ∧
    decode [0, 0] = .error (.badOperands 0) ∧ decode [4, 0, 0, 0] = .error (.badOperands 4) := by
  decide
/-- H2, H3, H8. -/
theorem test_encode_headers :
    encData ⟨0x31, 0x100, 5, 100⟩ = [0x31, 0x00, 0x01, 0x00, 0x00, 0x05, 0x00, 0x64] ∧
    encCtrl ⟨0x30, 0x10FF, 0xABCD⟩ = [0x30, 0xFF, 0x10, 0x00, 0x00, 0xCD, 0xAB] ∧
    encData ⟨0xFF, 0xFFFFFFFF, 0xFFFF, 0xFF⟩ = List.replicate 8 0xFF := by decide
/-- A table word is the message of its row, with zero operands. -/
theorem test_table_words : decodeTableWord 8 0x38 = some (.wireSC 0 0 (List.replicate 60 0)) ∧
    decodeTableWord 8 0x03 = some (.send 0 0 [] 0 0) ∧ decodeTableWord 8 0x2F = none := by decide

/-! ### ADDR, OPT and the sequence comparison -/

/-- A1 to A8. -/
theorem test_validate : validSlid 0x100 = true ∧ validSlid 0x10FF = true ∧ validSlid 0xFF = false ∧
    validSlid 0x1100 = false ∧ validSlid 0 = false ∧ validSlid 0xFFFFFFFF = false ∧
    validSlid 0x10100 = false := by decide
/-- Q1 to Q8. -/
theorem test_sdiff16 : sdiff16 5 5 = 0 ∧ sdiff16 6 5 = 1 ∧ sdiff16 1 0xFFFE = 3 ∧
    sdiff16 0 0xFFFF = 1 ∧ sdiff16 4 5 = -1 ∧ sdiff16 0x7FFF 0 = 32767 ∧
    sdiff16 0x8000 0 = -32768 ∧ sdiff16 0xFFFE 1 = -3 := by decide

/-! ### Arrivals -/

/-- X1. -/
theorem test_exec_DN : seen (exec (.wireDN 0x100 5 []) (stateIn .unbridged)) =
    some ([.tx [0x3C, 0x00, 0x01, 0, 0, 5, 0, 0], .deliver []], [(0, 5)], .rxDelivered,
      some .success) := by decide
/-- P3 step 4. -/
theorem test_exec_DN_relayed : seen (exec (.rx frameG) (stateIn .storeside)) =
    some ([.tx [0x3C, 0x01, 0x01, 0, 0, 9, 0, 0], .bridgeOut ([0x32, 0, 2, 0, 0, 9, 0] ++ frameG) 0x101],
      [(1, 9)], .rxRelayed, some .success) := by decide
/-- P1 step 5. -/
theorem test_exec_DS_wrap :
    seen (exec (.wireDS 0x101 1 0x50 [2]) (stateWithSeq .unbridged [(1, 0xFFFE)])) =
    some ([.tx [0x3E, 0x01, 0x01, 0, 0, 1, 0, 0], .deliver [2]], [(1, 1)], .rxDelivered,
      some .success) := by decide
/-- P3 step 1. -/
theorem test_exec_DS_relayed : seen (exec (.rx frameF) (stateIn .nodeside)) =
    some ([.tx [0x3E, 0x01, 0x01, 0, 0, 7, 0, 0],
      .bridgeOut ([0x33, 0, 2, 0, 0, 7, 0, 0x2A] ++ frameF) 0x10FF], [(1, 7)], .rxRelayed,
      some .success) := by decide
/-- B4. -/
theorem test_exec_BN : seen (exec (.wireBN 0x200 9 ([1, 1, 0, 0] ++ frameG)) (stateIn .storeside)) =
    some ([.bridgeOut ([0x32, 0, 2, 0, 0, 9, 0] ++ frameG) 0x101], [], .rxRelayed, none) := by decide
/-- B9: a nested bridge frame. -/
theorem test_exec_BN_nested :
    seen (exec (.wireBN 0x200 9 ([1, 1, 0, 0] ++ [0x32, 0, 2, 0, 0, 9, 0, 1, 1, 0, 0] ++ frameG))
      (stateIn .storeside)) =
    some ([.log .warn .bridgeRefused], [], .bridgeRefused, none) := by decide
/-- B3. -/
theorem test_exec_BS_storeside :
    seen (exec (.wireBS 0x200 7 42 ([0xFF, 0x10, 0, 0] ++ frameF)) (stateIn .storeside)) =
    some ([], [], .bridgeRefused, none) := by decide
/-- R183. -/
theorem test_exec_BS_unbridged :
    seen (exec (.wireBS 0x200 7 42 ([0xFF, 0x10, 0, 0] ++ frameF)) (stateIn .unbridged)) =
    some ([], [], .bridgeInert, none) := by decide
/-- R184. -/
theorem test_exec_X34 : seen (exec (.wireX34 0x101 2 []) (stateWithSeq .unbridged [(1, 1)])) =
    some ([], [(1, 2)], .rxRecognized, some .success) := by decide
/-- R185. -/
theorem test_exec_X35 : seen (exec (.wireX35 0x101 2 9 []) (stateWithSeq .unbridged [(0, 7), (5, 3)])) =
    some ([], [(0, 7), (1, 2), (5, 3)], .rxRecognized, some .success) := by decide
theorem test_exec_X36 : seen (exec (.wireX36 0x101 2 []) (stateIn .unbridged)) =
    some ([], [(1, 2)], .rxRecognized, some .success) := by decide
theorem test_exec_X37 : seen (exec (.wireX37 0x101 2 9 [1]) (stateIn .nodeside)) =
    some ([.bridgeOut [0x33, 0, 2, 0, 0, 2, 0, 9, 0x37, 1, 1, 0, 0, 2, 0, 9, 1] 0x10FF], [(1, 2)],
      .rxRelayed, some .success) := by decide
/-- X2. -/
theorem test_exec_SC :
    seen (exec (.wireSC 0x100 1 ([1, 0, 1] ++ List.replicate 57 0)) (stateIn .unbridged)) =
    some ([.tx [0x3C, 0, 1, 0, 0, 1, 0, 0]], [(0, 1)], .rxRecognized, some .success) := by decide
/-- X3: the answer, and SEQ advanced by a frame of the wrong size. -/
theorem test_exec_SC_size :
    seen (exec (.wireSC 0x100 2 [1, 2, 3]) (stateWithSeq .unbridged [(0, 1)])) =
    some ([.tx [0x3C, 0, 1, 0, 0, 2, 0, 4], .log .info .ackSizeMismatch], [(0, 2)], .rxSizeErr,
      some .sizeErr) := by decide
/-- X9. -/
theorem test_exec_OF :
    seen (exec (.wireOF 0x101 2 0 [0x3C, 0]) (stateWithSeq .unbridged [(1, 1)])) =
    some ([], [(1, 2)], .rxRecognized, some .success) := by decide
/-- X10. -/
theorem test_exec_OF_again :
    seen (exec (.wireOF 0x101 2 0 [0x3C, 0]) (stateWithSeq .unbridged [(1, 2)])) =
    some ([.log .info .ackDuplicate], [(1, 2)], .rxDuplicate, some .duplicate) := by decide
theorem test_exec_X3A : seen (exec (.wireX3A 0x101 2 []) (stateIn .storeside)) =
    some ([.bridgeOut [0x32, 0, 2, 0, 0, 2, 0, 0x3A, 1, 1, 0, 0, 2, 0] 0x101], [(1, 2)], .rxRelayed,
      some .success) := by decide
theorem test_exec_X3B : seen (exec (.wireX3B 0x10FF 2 9 []) (stateIn .unbridged)) =
    some ([], [(4095, 2)], .rxRecognized, some .success) := by decide
/-- B16. -/
theorem test_exec_AS_relayed : seen (exec (.wireAS 0x101 9 [0]) (stateIn .nodeside)) =
    some ([.bridgeOut [0x33, 0, 2, 0, 0, 9, 0, 0, 0x3C, 1, 1, 0, 0, 9, 0, 0] 0x10FF], [], .rxRelayed,
      none) := by decide
/-- X6. -/
theorem test_exec_AS_size : seen (exec (.wireAS 0x100 3 []) (stateIn .unbridged)) =
    some ([.log .info .ackSizeMismatch], [], .rxSizeErr, some .sizeErr) := by decide
theorem test_exec_X3D : seen (exec (.wireX3D 0x101 2 9 []) (stateWithSeq .unbridged [(1, 3)])) =
    some ([.log .info .ackDuplicate], [(1, 3)], .rxDuplicate, some .duplicate) := by decide
/-- P2 step 8, on the entry of step 1: DONE carries the code byte. -/
theorem test_exec_AN :
    sentOf (exec (.wireAN 0x101 1 [1]) (stateWithOut .unbridged [.free, .sent entryP2])) =
    some (0, [.free, .free], [.done 1 (.ackReceived 1)]) := by decide
/-- X8. -/
theorem test_exec_AN_unmatched : seen (exec (.wireAN 0x101 2 [0]) (stateIn .unbridged)) =
    some ([.log .info .ackUnexpected], [], .rxAckUnmatched, some .unexpected) := by decide
theorem test_exec_X3F : seen (exec (.wireX3F 0x101 2 9 []) (stateIn .unbridged)) =
    some ([], [(1, 2)], .rxRecognized, some .success) := by decide
/-- X17: the op is checked before the length. -/
theorem test_exec_RX_unknown : seen (exec (.rx [0x40, 0, 1]) (stateIn .unbridged)) =
    some ([.log .warn .opUnknown], [], .errUnknownOp, some .unexpected) := by decide
/-- X19: the length is checked before the slid. -/
theorem test_exec_RX_short : seen (exec (.rx [0x31, 0xFF, 0, 0, 0, 5, 0]) (stateIn .unbridged)) =
    some ([.log .warn .codecSizeError], [], .errSize, none) := by decide

/-! ### Commands -/

/-- T2. -/
theorem test_exec_SEND : sentOf (exec (.send 0x31 0x101 [] 7 0xFFFFFFF0) (stateIn .unbridged)) =
    some (1, [.sent ⟨0x31, 0x101, 1, 0x3E, [0x31, 1, 1, 0, 0, 1, 0, 7], 0, 0x54⟩, .free],
      [.tx [0x31, 1, 1, 0, 0, 1, 0, 7]]) := by decide
/-- T1: the number wraps, and a send that is not reliable keeps no entry. -/
theorem test_exec_SEND_wrap :
    sentOf (exec (.send 0x39 0x101 [] 0 0) { stateIn .unbridged with txSeq := 0xFFFF }) =
    some (0, [.free, .free], [.tx [0x39, 1, 1, 0, 0, 0, 0, 0]]) := by decide
/-- P2 step 3. -/
theorem test_exec_TICK_resend :
    sentOf (exec (.tick 1100) (stateWithOut .unbridged [.sent entryP2, .free])) =
    some (0, [.sent { entryP2 with retries := 1, deadline := 1200 }, .free],
      [.tx entryP2.frame]) := by decide
/-- P2 step 5. -/
theorem test_exec_TICK_fail :
    sentOf (exec (.tick 1350)
      (stateWithOut .unbridged [.sent { entryP2 with retries := 2, deadline := 1350 }, .free])) =
    some (0, [.free, .free], [.done 0 .retriesExhausted, .log .info .retriesExhausted]) := by decide
/-- T12, T13. -/
theorem test_exec_CANCEL :
    sentOf (exec (.cancel 0) (stateWithOut .unbridged [.sent entryP2, .free])) =
      some (0, [.free, .free], []) ∧
    statusOf (exec (.cancel 5) (stateWithOut .unbridged [.sent entryP2, .free])) =
      some (.noEntry, []) := by decide
/-- P3 step 5. -/
theorem test_exec_FWD_node :
    statusOf (exec (.fwd ([0x32, 0, 2, 0, 0, 9, 0] ++ frameG) 0x101) (stateIn .nodeside)) =
    some (.fwdSent, [.tx frameG]) := by decide
/-- P3 step 2. -/
theorem test_exec_FWD_store :
    statusOf (exec (.fwd ([0x33, 0, 2, 0, 0, 7, 0, 0x2A] ++ frameF) 0x10FF) (stateIn .storeside)) =
    some (.fwdSent, [.tx ([0x33, 0, 2, 0, 0, 7, 0, 0x2A, 0xFF, 0x10, 0, 0] ++ frameF)]) := by decide
/-- T14. -/
theorem test_exec_CANCEL_ALL :
    (nextOf (exec .cancelAll (stateWithOut .unbridged [.sent entryP2, .sent entryP2]))).map
      (fun s => (s.out, s.result.nFailed, s.events)) = some ([.free, .free], 2, []) := by decide
/-- G7. -/
theorem test_exec_RESET :
    (nextOf (exec .reset (stateWithSeq .unbridged [(1, 5)]))).map
      (fun s => (s.run, s.seq, s.out, s.result)) =
    some (.unconfigured, [], [.free, .free], {}) := by decide
/-- G5. -/
theorem test_exec_CFG_LOAD : (nextOf (exec (.cfgLoad (some [1, 1, 1, 0, 0])) stateUnconfigured)).map
    (fun s => (s.run, s.ownSlid, s.result.status)) = some (.running, 0x101, .cfgOk) := by decide
/-- G4. -/
theorem test_exec_CFG_LOAD_slid :
    (nextOf (exec (.cfgLoad (some [1, 0xFF, 0, 0, 0])) stateUnconfigured)).map
      (fun s => (s.run, s.result.exc, s.events)) =
    some (.fatal, some .addressOutOfRange, [.log .fatal .addressOutOfRange]) := by decide
/-- The step takes the first message of the port; from reset an arriving frame finds SLC not Running. -/
theorem test_step_from_reset :
    (nextOf (step (State.reset.withFetchWord 8 0x30))).map (fun s => (s.result.status, s.port)) =
    some (.notRunning, []) := by decide

/-! ### Witnesses: for every obligation with hypotheses, and for each of its clauses, a concrete state
and operands that meet them together, at the ends of their ranges -/

theorem isNew_of {s : State} {slid : Slid} {pkg : PkgNum} (h : seqNew s.seq slid pkg = true) :
    IsNew s slid pkg := (seqNew_iff s slid pkg).1 h

theorem not_isNew_of {s : State} {slid : Slid} {pkg : PkgNum} (h : seqNew s.seq slid pkg = false) :
    ¬ IsNew s slid pkg := fun hn => by simp [(seqNew_iff s slid pkg).2 hn] at h

/-- The SLC of `stateIn` with another MAX_FRAME. -/
def stateMax (mode : BridgeMode) (n : Nat) : State :=
  { stateIn mode with params := { vectorParams mode with maxFrame := n } }

theorem witness_HeaderCodecRoundTrip : 8 ≤ (List.replicate 8 0x31 : Bytes).length ∧
    7 ≤ (List.replicate 7 0x30 : Bytes).length := by decide

theorem witness_StepRunsDecodedInstruction :
    ({ stateIn .unbridged with port := [[7], [0]] } : State).port = [7] :: [[0]] ∧
      decode [7] = .ok .cancelAll ∧ (stateIn .unbridged).port = [] ∧
    ({ stateIn .unbridged with port := [[0x2F]] } : State).port = [0x2F] :: [] ∧
      decode [0x2F] = .error (.unknownCode 0x2F) := by decide

theorem witness_ValidSlidsAreIndexed : validSlid 0x100 = true ∧ seqIndex 0x100 = 0 ∧
    validSlid 0x10FF = true ∧ seqIndex 0x10FF = 4095 ∧ 4095 < 4096 := by decide

theorem witness_OplookupExactRange : (vectorParams .nodeside).wf = true ∧
    (0x2F : OpCode).toNat < 0x30 ∧ 0x3F < (0x40 : OpCode).toNat ∧ 0x30 ≤ (0x30 : OpCode).toNat ∧
    (0x3F : OpCode).toNat ≤ 0x3F := by decide

theorem witness_DefaultTableRows : (vectorParams .storeside).optab = defaultOptab := rfl

theorem witness_SeqTablesExtensional : seqWf [(0, 5), (4095, 1)] = true ∧
    ∀ i, seqRead [(0, 5), (4095, 1)] i = seqRead [(0, 5), (4095, 1)] i := ⟨by decide, fun _ => rfl⟩

/-- At the ends of both ranges; 32768 behind is 32768 ahead modulo 2^16, and lies in the second alone. -/
theorem witness_HalfRangeWindow : seqRead [(1, 5)] (seqIndex 0x101) = some 5 ∧
    seqNew [(1, 5)] 0x101 (5 + BitVec.ofNat 16 1) = true ∧
    seqNew [(1, 5)] 0x101 (5 + BitVec.ofNat 16 32767) = true ∧
    seqNew [(1, 5)] 0x101 (5 - BitVec.ofNat 16 0) = false ∧
    seqNew [(1, 5)] 0x101 (5 - BitVec.ofNat 16 32768) = false := by decide

/-- A table of R172 other than the default one: 0x35 goes toward the node, and 0x34 is of class App and
answered. -/
def otherOptab : List Descriptor :=
  (defaultOptab.set 5 (adminRow .data .storeToNode)).set 4 (appRow .control .storeToNode 0x3C)

/-- A storeside SLC under that table. -/
def stateOther : State :=
  { stateIn .storeside with params := { vectorParams .storeside with optab := otherOptab } }

/-- The relay route under another table: 69 bytes, the longest that a storeside SLC relays. This state
and these operands meet the hypotheses of SequenceCheckOnArrival, ReliableOpsAreAnswered and
AcceptedFrameByClass, the first with a reply and the second without. -/
theorem witness_relayed_arrivals : stateOther.run = .running ∧ stateOther.params.wf = true ∧
    opLookup stateOther.params 0x34 = some (appRow .control .storeToNode 0x3C) ∧
    decodeKind .control (ctrlFrame 0x34 0x101 9 (List.replicate 62 0)) =
      some (⟨0x34, 0x101, 9, 0⟩, List.replicate 62 0) ∧
    route stateOther.params (appRow .control .storeToNode 0x3C) = .relay ∧
    (ctrlFrame 0x34 0x101 9 (List.replicate 62 0)).length = 69 ∧
    opLookup stateOther.params 0x35 = some (adminRow .data .storeToNode) ∧
    decodeKind .data (dataFrame 0x35 0x101 9 7 (List.replicate 61 0)) =
      some (⟨0x35, 0x101, 9, 7⟩, List.replicate 61 0) ∧
    route stateOther.params (adminRow .data .storeToNode) = .relay ∧
    (dataFrame 0x35 0x101 9 7 (List.replicate 61 0)).length = 69 ∧
    relayCheck stateOther.params 69 = none ∧ 69 ≤ stateOther.params.maxFrame ∧
    validSlid 0x101 = true ∧ IsNew stateOther 0x101 9 :=
  ⟨rfl, by decide, by decide, by decide, by decide, by decide, by decide, by decide, by decide,
    by decide, by decide, by decide, by decide, isNew_of (by decide)⟩

/-- A new frame of class App. -/
theorem witness_SequenceCheckOnArrival_new :
    (stateIn .unbridged).run = .running ∧ (stateIn .unbridged).params.wf = true ∧
    frameG.length ≤ (stateIn .unbridged).params.maxFrame ∧
    opLookup (stateIn .unbridged).params 0x30 = some (appRow .control .storeToNode 0x3C) ∧
    decodeKind .control frameG = some (⟨0x30, 0x101, 9, 0⟩, [0x55]) ∧ validSlid 0x101 = true ∧
    route (stateIn .unbridged).params (appRow .control .storeToNode 0x3C) = .localLeg ∧
    IsNew (stateIn .unbridged) 0x101 9 :=
  ⟨rfl, by decide, by decide, by decide, by decide, by decide, by decide, isNew_of (by decide)⟩

/-- A duplicate 32768 behind, of class Admin. -/
theorem witness_SequenceCheckOnArrival_old :
    (stateWithSeq .storeside [(0, 0)]).run = .running ∧
    opLookup (stateWithSeq .storeside [(0, 0)]).params 0x39 = some (adminRow .data .nodeToStore) ∧
    decodeKind .data [0x39, 0, 1, 0, 0, 0, 0x80, 0] = some (⟨0x39, 0x100, 0x8000, 0⟩, []) ∧
    route (stateWithSeq .storeside [(0, 0)]).params (adminRow .data .nodeToStore) = .localLeg ∧
    ¬ IsNew (stateWithSeq .storeside [(0, 0)]) 0x100 0x8000 :=
  ⟨rfl, by decide, by decide, by decide, not_isNew_of (by decide)⟩

theorem witness_ReliableOpsAreAnswered :
    opLookup (stateIn .unbridged).params 0x30 = some (appRow .control .storeToNode 0x3C) ∧
    (appRow .control .storeToNode 0x3C).replyOp = some 0x3C ∧
    decodeKind .control frameG = some (⟨0x30, 0x101, 9, 0⟩, [0x55]) ∧
    opLookup (stateIn .unbridged).params 0x39 = some (adminRow .data .nodeToStore) ∧
    (adminRow .data .nodeToStore).replyOp = none ∧
    decodeKind .data [0x39, 0, 1, 0, 0, 1, 0, 0] = some (⟨0x39, 0x100, 1, 0⟩, []) ∧
    route (stateIn .unbridged).params (adminRow .data .nodeToStore) = .localLeg := by decide

/-- SC: of class Admin, with the size and the version it must have. -/
theorem witness_AcceptedFrameByClass :
    (stateIn .unbridged).params.wf = true ∧
    opLookup (stateIn .unbridged).params 0x38 = some scRow ∧ scRow.opClass = .admin ∧
    decodeKind .control (ctrlFrame 0x38 0x10FF 1 (List.replicate 60 1)) =
      some (⟨0x38, 0x10FF, 1, 0⟩, List.replicate 60 1) ∧
    (ctrlFrame 0x38 0x10FF 1 (List.replicate 60 1)).length ≤ (stateIn .unbridged).params.maxFrame ∧
    route (stateIn .unbridged).params scRow = .localLeg ∧ IsNew (stateIn .unbridged) 0x10FF 1 ∧
    (∀ n, scRow.explen = some n → (List.replicate 60 1 : Bytes).length = n) ∧
    (scRow.vercheck = true →
      (List.replicate 60 1 : Bytes).head? = some (stateIn .unbridged).params.nodeConfigVersion) :=
  ⟨by decide, by decide, rfl, by decide, by decide, by decide, isNew_of (by decide),
    fun n h => by simpa [scRow] using h, fun _ => rfl⟩

/-- Delivered here, with commands between the two arrivals; relayed, with none between; of the wrong
size; and an Admin frame relayed under another table. -/
theorem witness_SecondArrivalIsDuplicate :
    (∃ t t', exec (.rx frameF) (stateIn .unbridged) = .next t ∧ t.result.status = .rxDelivered ∧
      runAll [.wireDS 0x102 8 0 [], .tick 0] t = .next t' ∧
      Instr.reset ∉ [Instr.wireDS 0x102 8 0 [], Instr.tick 0] ∧
      seqRead t'.seq (seqIndex t.result.slid) = seqRead t.seq (seqIndex t.result.slid)) ∧
    (∃ t, exec (.rx frameG) (stateIn .storeside) = .next t ∧ t.result.status = .rxRelayed ∧
      runAll [] t = .next t) ∧
    (∃ t, exec (.rx (ctrlFrame 0x38 0x101 1 [1])) (stateIn .unbridged) = .next t ∧
      t.result.status = .rxSizeErr) ∧
    opLookup stateOther.params ((dataFrame 0x35 0x101 9 7 []).headD 0) =
      some (adminRow .data .storeToNode) ∧
    (∃ t, exec (.rx (dataFrame 0x35 0x101 9 7 [])) stateOther = .next t ∧
      t.result.status = .rxRelayed) :=
  ⟨⟨_, _, rfl, by decide, rfl, by decide, by decide⟩, ⟨_, rfl, by decide, rfl⟩, ⟨_, rfl, by decide⟩,
    by decide, _, rfl, by decide⟩

theorem witness_WireOpIsRxOfItsFrame : wireArrival (.wireDN 0x100 5 []) = true ∧
    wireArrival (.wireX3F 0x100 5 0 []) = true ∧ wireArrival .cancelAll = false := by decide

theorem witness_RxDropsMalformedFrames : (stateIn .unbridged).run = .running ∧
    (0x2F : OpCode).toNat < 0x30 ∧ 0x3F < (0x40 : OpCode).toNat ∧
    ([0x40, 0, 1] : Bytes).length ≤ (stateIn .unbridged).params.maxFrame ∧
    opLookup (stateIn .unbridged).params 0x31 = some (appRow .data .nodeToStore 0x3E) ∧
    decodeKind .data [0x31, 0xFF, 0, 0, 0, 5, 0, 0x64] = some (⟨0x31, 0xFF, 5, 0x64⟩, []) ∧
    (0xFF : Slid).toNat < 0x100 ∧
    decodeKind .data [0x31, 0, 0x11, 0, 0, 5, 0, 0x64] = some (⟨0x31, 0x1100, 5, 0x64⟩, []) ∧
    0x10FF < (0x1100 : Slid).toNat := by decide

theorem witness_RxDropsShortHeaders : (stateIn .unbridged).params.wf = true ∧
    ([0x31, 0, 1, 0, 0, 5, 0] : Bytes).length < 8 ∧ (0x31 : OpCode).toNat % 2 = 1 ∧
    ([0x30, 0, 1, 0, 0, 5] : Bytes).length < 7 ∧ (0x30 : OpCode).toNat % 2 ≠ 1 ∧
    0x30 ≤ (0x3F : OpCode).toNat ∧ (0x3F : OpCode).toNat ≤ 0x3F := by decide

theorem witness_OverlongFramesRefused :
    (stateIn .nodeside).params.maxFrame < (List.replicate 81 0x30 : Bytes).length ∧
    (Instr.wireDN 0x100 1 (List.replicate 74 0)).wellFormed (stateIn .nodeside).params = false ∧
    wireArrival (.wireDN 0x100 1 (List.replicate 74 0)) = true ∧
    (stateIn .nodeside).params.bridgeMode ≠ .unbridged := by decide

theorem witness_ArrivalEventShape : ∃ t, exec (.rx frameF) (stateIn .nodeside) = .next t := ⟨_, rfl⟩

/-- The new frame, at an SLC that handles it here. -/
theorem witness_DataToNodeArrival_delivered :
    (stateMax .nodeside 19).params.optab = defaultOptab ∧
    7 + (List.replicate 12 0 : Bytes).length ≤ (stateMax .nodeside 19).params.maxFrame ∧
    validSlid 0x100 = true ∧ (stateMax .nodeside 19).params.bridgeMode ≠ .storeside ∧
    IsNew (stateMax .nodeside 19) 0x100 5 :=
  ⟨rfl, by decide, by decide, by decide, isNew_of (by decide)⟩

/-- The new frame, the longest that a storeside SLC relays. -/
theorem witness_DataToNodeArrival_relayed :
    7 + (List.replicate 62 0 : Bytes).length + 11 ≤ (stateIn .storeside).params.maxFrame ∧
    validSlid 0x10FF = true ∧ (stateIn .storeside).params.bridgeMode = .storeside ∧
    IsNew (stateIn .storeside) 0x10FF 0 :=
  ⟨by decide, by decide, by decide, isNew_of (by decide)⟩

theorem witness_DataToNodeArrival_duplicate :
    (stateWithSeq .storeside [(1, 9)]).params.optab = defaultOptab ∧ validSlid 0x101 = true ∧
    7 + ([0x55] : Bytes).length + 11 ≤ (stateWithSeq .storeside [(1, 9)]).params.maxFrame ∧
    ¬ IsNew (stateWithSeq .storeside [(1, 9)]) 0x101 9 :=
  ⟨rfl, by decide, by decide, not_isNew_of (by decide)⟩

theorem witness_DataToStoreArrival_delivered :
    (stateMax .storeside 19).params.optab = defaultOptab ∧
    8 + (List.replicate 11 0 : Bytes).length ≤ (stateMax .storeside 19).params.maxFrame ∧
    (stateMax .storeside 19).params.bridgeMode ≠ .nodeside ∧ IsNew (stateMax .storeside 19) 0x100 5 :=
  ⟨rfl, by decide, by decide, isNew_of (by decide)⟩

/-- B15: 68 bytes, the longest that a nodeside SLC relays. -/
theorem witness_DataToStoreArrival_relayed :
    8 + (List.replicate 60 0 : Bytes).length + 12 ≤ (stateIn .nodeside).params.maxFrame ∧
    validSlid (stateIn .nodeside).params.storeSlid = true ∧
    (stateIn .nodeside).params.bridgeMode = .nodeside ∧ IsNew (stateIn .nodeside) 0x101 7 :=
  ⟨by decide, by decide, by decide, isNew_of (by decide)⟩

theorem witness_DataToStoreArrival_duplicate :
    (stateWithSeq .unbridged [(0, 5)]).params.optab = defaultOptab ∧
    8 + ([0xCC] : Bytes).length ≤ (stateWithSeq .unbridged [(0, 5)]).params.maxFrame ∧
    (stateWithSeq .unbridged [(0, 5)]).params.bridgeMode ≠ .nodeside ∧
    ¬ IsNew (stateWithSeq .unbridged [(0, 5)]) 0x100 4 :=
  ⟨rfl, by decide, by decide, not_isNew_of (by decide)⟩

/-- Recognized, relayed, duplicate. -/
theorem witness_PlaceholderControlArrival :
    (stateIn .unbridged).params.optab = defaultOptab ∧ validSlid 0x101 = true ∧
    7 + (List.replicate 73 0 : Bytes).length ≤ (stateIn .unbridged).params.maxFrame ∧
    IsNew (stateIn .unbridged) 0x101 2 ∧ (stateIn .unbridged).params.bridgeMode ≠ .storeside ∧
    7 + (List.replicate 62 0 : Bytes).length + 11 ≤ (stateIn .storeside).params.maxFrame ∧
    IsNew (stateIn .storeside) 0x101 2 ∧ (stateIn .storeside).params.bridgeMode = .storeside ∧
    ¬ IsNew (stateWithSeq .unbridged [(1, 2)]) 0x101 2 :=
  ⟨rfl, by decide, by decide, isNew_of (by decide), by decide, by decide, isNew_of (by decide),
    by decide, not_isNew_of (by decide)⟩

/-- Recognized, relayed, duplicate. -/
theorem witness_PlaceholderDataArrival :
    (stateIn .unbridged).params.optab = defaultOptab ∧ validSlid 0x101 = true ∧
    8 + (List.replicate 72 0 : Bytes).length ≤ (stateIn .unbridged).params.maxFrame ∧
    IsNew (stateIn .unbridged) 0x101 2 ∧ (stateIn .unbridged).params.bridgeMode ≠ .nodeside ∧
    8 + (List.replicate 60 0 : Bytes).length + 12 ≤ (stateIn .nodeside).params.maxFrame ∧
    validSlid (stateIn .nodeside).params.storeSlid = true ∧
    IsNew (stateIn .nodeside) 0x101 2 ∧ (stateIn .nodeside).params.bridgeMode = .nodeside ∧
    ¬ IsNew (stateWithSeq .unbridged [(1, 2)]) 0x101 2 :=
  ⟨rfl, by decide, by decide, isNew_of (by decide), by decide, by decide, by decide,
    isNew_of (by decide), by decide, not_isNew_of (by decide)⟩

/-- The five clauses: accepted here, relayed (78 of 80 bytes), 59 and 61 bytes, a wrong version, a
duplicate. -/
theorem witness_ConfigCommandArrival :
    (stateIn .unbridged).params.optab = defaultOptab ∧ validSlid 0x100 = true ∧
    IsNew (stateIn .unbridged) 0x100 1 ∧ (List.replicate 60 1 : Bytes).length = 60 ∧
    7 + (List.replicate 60 1 : Bytes).length ≤ (stateIn .unbridged).params.maxFrame ∧
    (List.replicate 60 1 : Bytes).head? = some (stateIn .unbridged).params.nodeConfigVersion ∧
    7 + (List.replicate 60 1 : Bytes).length + 11 ≤ (stateIn .storeside).params.maxFrame ∧
    IsNew (stateIn .storeside) 0x100 1 ∧ (List.replicate 59 1 : Bytes).length ≠ 60 ∧
    (List.replicate 61 1 : Bytes).length ≠ 60 ∧
    (List.replicate 60 2 : Bytes).head? ≠ some (stateIn .unbridged).params.nodeConfigVersion ∧
    ¬ IsNew (stateWithSeq .unbridged [(0, 2)]) 0x100 2 :=
  ⟨rfl, by decide, isNew_of (by decide), by decide, by decide, by decide, by decide,
    isNew_of (by decide), by decide, by decide, by decide, not_isNew_of (by decide)⟩

theorem witness_BridgeFrameToStoreArrival : (stateMax .storeside 19).run = .running ∧
    (stateMax .storeside 19).params.optab = defaultOptab ∧
    8 + (List.replicate 11 0 : Bytes).length ≤ (stateMax .storeside 19).params.maxFrame ∧
    validSlid 0x200 = true := by decide

theorem witness_BridgeFrameToNodeTurnedAway : (stateIn .nodeside).params.optab = defaultOptab ∧
    7 + (List.replicate 73 0 : Bytes).length ≤ (stateIn .nodeside).params.maxFrame ∧
    (stateIn .nodeside).params.bridgeMode ≠ .storeside ∧
    (stateIn .unbridged).params.bridgeMode ≠ .storeside := by decide

theorem witness_BridgeFrameToNodeRelayed : (stateMax .storeside 19).params.optab = defaultOptab ∧
    (stateMax .storeside 19).params.bridgeMode = .storeside ∧
    11 + frameG.length ≤ (stateMax .storeside 19).params.maxFrame ∧ validSlid 0x200 = true ∧
    validSlid 0x101 = true ∧ innerCheck (stateMax .storeside 19).params frameG = none := by decide

/-- B5, B6, B7, B8 and B9. -/
theorem witness_BridgeFrameToNodeDropped : (stateIn .storeside).params.bridgeMode = .storeside ∧
    7 + (List.replicate 10 1 : Bytes).length < 18 ∧ 7 ≤ (frameG.take 7).length ∧
    11 + (frameG.take 7).length ≤ (stateIn .storeside).params.maxFrame ∧ validSlid 0xFF = false ∧
    validSlid 0x101 = true ∧
    innerCheck (stateIn .storeside).params [0x40, 1, 1, 0, 0, 9, 0] = some .unknownOp ∧
    innerCheck (stateIn .storeside).params [0x30, 0, 0x11, 0, 0, 9, 0] = some .outOfRange ∧
    innerCheck (stateIn .storeside).params [0x31, 1, 1, 0, 0, 9, 0] = some .sizeError ∧
    innerCheck (stateIn .storeside).params ([0x32, 0, 2, 0, 0, 9, 0, 1, 1, 0, 0] ++ frameG) =
      some .bridgeRefused := by decide

theorem witness_InnerCheckOrder : (vectorParams .storeside).wf = true ∧
    opLookup (vectorParams .storeside) 0x40 = none ∧
    opLookup (vectorParams .storeside) 0x31 = some (appRow .data .nodeToStore 0x3E) ∧
    ([0x31, 1, 1, 0, 0, 9, 0] : Bytes).length < hlen .data ∧
    decodeKind .data frameF = some (⟨0x31, 0x101, 7, 0x2A⟩, [0xDE, 0xAD]) := by decide

/-- The second of two entries matches; the code byte is none of the five AckCodes. -/
theorem witness_AckClosesMatchingSend :
    8 ≤ (stateMax .nodeside 19).params.maxFrame ∧ validSlid 0x101 = true ∧
    ([.free, .sent entryP2] : List OutSlot)[1]? = some (.sent entryP2) ∧
    Awaits (.sent entryP2) 0x3E 0x101 1 ∧
    (∀ j slot', j < 1 → ([.free, .sent entryP2] : List OutSlot)[j]? = some slot' →
      ¬ Awaits slot' 0x3E 0x101 1) := by
  refine ⟨by decide, by decide, rfl, ⟨entryP2, rfl, rfl, rfl, rfl⟩, fun j slot' hj hs => ?_⟩
  obtain rfl : j = 0 := by omega
  obtain rfl : OutSlot.free = slot' := by simpa using hs
  rintro ⟨e, he, _⟩
  cases he

/-- No byte and two bytes; an unmatched ack at each kind of SLC, with the shortest MAX_FRAME. -/
theorem witness_AckWithoutMatchingSend :
    ([] : Bytes).length ≠ 1 ∧ ([0, 0] : Bytes).length ≠ 1 ∧
    7 + ([0, 0] : Bytes).length ≤ (stateMax .unbridged 19).params.maxFrame ∧
    (∀ slot ∈ (stateMax .unbridged 19).out, ¬ Awaits slot 0x3E 0x101 2) ∧
    20 ≤ (stateMax .nodeside 20).params.maxFrame ∧
    (stateMax .nodeside 20).params.bridgeMode = .nodeside ∧
    validSlid (stateMax .nodeside 20).params.storeSlid = true ∧
    19 ≤ (stateMax .storeside 19).params.maxFrame ∧
    (stateMax .storeside 19).params.bridgeMode = .storeside := by
  refine ⟨by decide, by decide, by decide, ?_, by decide, by decide, by decide, by decide, by decide⟩
  intro slot hs
  obtain rfl : slot = .free := by simpa [stateMax, stateIn] using hs
  rintro ⟨e, he, _⟩
  cases he

/-- An invalid STORE_SLID; 69 bytes at a nodeside SLC (B14); 70 bytes at a storeside one. -/
theorem witness_InfeasibleRelayDropsWhole :
    opLookup (vectorParams .nodeside) 0x31 = some (appRow .data .nodeToStore 0x3E) ∧
    opLookup (vectorParams .storeside) 0x30 = some (appRow .control .storeToNode 0x3C) ∧
    decodeKind .data (dataFrame 0x31 0x101 1 0 (List.replicate 61 0)) =
      some (⟨0x31, 0x101, 1, 0⟩, List.replicate 61 0) ∧
    validSlid ({ vectorParams .nodeside with storeSlid := 0xFF }).storeSlid = false ∧
    validSlid (vectorParams .nodeside).storeSlid = true ∧
    (vectorParams .nodeside).maxFrame < (dataFrame 0x31 0x101 1 0 (List.replicate 61 0)).length + 12 ∧
    decodeKind .control (ctrlFrame 0x30 0x101 1 (List.replicate 63 0)) =
      some (⟨0x30, 0x101, 1, 0⟩, List.replicate 63 0) ∧
    (vectorParams .storeside).maxFrame < (ctrlFrame 0x30 0x101 1 (List.replicate 63 0)).length + 11 := by
  decide

/-- An ack that matches nothing: AS with MAX_FRAME 19 and with an invalid STORE_SLID at a nodeside SLC;
at a storeside one an ack of 8 bytes is relayed by every legal MAX_FRAME, so that the third clause is met
only outside the legal ones. -/
theorem witness_InfeasibleRelayDropsWhole_ack :
    opLookup (stateMax .nodeside 19).params 0x3C = some (ackRow .nodeToStore) ∧
    (ackRow .nodeToStore).opClass = .ack ∧ ([0] : Bytes).length = 1 ∧
    decodeKind .control (ctrlFrame 0x3C 0x101 9 [0]) = some (⟨0x3C, 0x101, 9, 0⟩, [0]) ∧
    (ctrlFrame 0x3C 0x101 9 [0]).length ≤ (stateMax .nodeside 19).params.maxFrame ∧
    (stateMax .nodeside 19).params.maxFrame < (ctrlFrame 0x3C 0x101 9 [0]).length + 12 ∧
    validSlid (stateMax .nodeside 19).params.storeSlid = true ∧ validSlid 0x101 = true ∧
    (∀ slot ∈ (stateMax .nodeside 19).out, ¬ Awaits slot 0x3C 0x101 9) ∧
    validSlid ({ vectorParams .nodeside with storeSlid := 0x1100 }).storeSlid = false := by
  refine ⟨by decide, rfl, rfl, by decide, by decide, by decide, by decide, by decide, ?_, by decide⟩
  intro slot hs
  obtain rfl : slot = .free := by simpa [stateMax, stateIn] using hs
  rintro ⟨e, he, _⟩
  cases he

theorem witness_ConsumeUndoesAttach : 7 ≤ (List.replicate 7 0x32 : Bytes).length := by decide

theorem witness_FwdUnwrapsTowardNode : (stateIn .nodeside).params.bridgeMode = .nodeside ∧
    7 + frameG.length ≤ (stateIn .nodeside).params.maxFrame ∧ validSlid 0x200 = true ∧
    innerCheck (stateIn .nodeside).params frameG = none := by decide

/-- Room for the wire form, and one byte too little. -/
theorem witness_FwdWrapsTowardStore : (stateMax .storeside 22).params.bridgeMode = .storeside ∧
    12 + frameF.length ≤ (stateMax .storeside 22).params.maxFrame ∧
    8 + frameF.length ≤ (stateMax .storeside 21).params.maxFrame ∧
    (stateMax .storeside 21).params.maxFrame < 12 + frameF.length ∧
    innerCheck (stateMax .storeside 21).params frameF = none := by decide

/-- Each clause in turn. -/
theorem witness_FwdTurnsAway : (stateIn .unbridged).params.bridgeMode = .unbridged ∧
    (stateIn .nodeside).params.bridgeMode ≠ .unbridged ∧ 0x3F < (0x40 : OpCode).toNat ∧
    opLookup (stateIn .nodeside).params 0x30 = some (appRow .control .storeToNode 0x3C) ∧
    opLookup (stateIn .nodeside).params 0x33 = some (bridgeRow .data .nodeToStore) ∧
    opLookup (stateIn .nodeside).params 0x32 = some (bridgeRow .control .storeToNode) ∧
    ([0x32, 0, 2, 0, 0, 9, 0, 1, 1, 0, 0, 0, 0] : Bytes).length < hlen .control + 7 ∧
    decodeKind .control ([0x32, 0, 2, 0, 0, 9, 0] ++ frameG) = some (⟨0x32, 0x200, 9, 0⟩, frameG) ∧
    hlen .control + 7 ≤ ([0x32, 0, 2, 0, 0, 9, 0] ++ frameG).length ∧ validSlid 0xFF = false ∧
    innerCheck (stateIn .nodeside).params ([0x32, 0, 2, 0, 0, 9, 0, 1, 1, 0, 0] ++ frameG) =
      some .bridgeRefused := by decide

/-- The states of the witnesses meet the invariant. -/
theorem stateIn_inv (mode : BridgeMode) : (stateIn mode).Inv where
  params_wf := by cases mode <;> decide
  seq_wf := rfl
  out_length := rfl
  out_ok := fun e he => by simp [stateIn] at he
  own_valid := fun _ => show validSlid 0x200 = true by decide
  idle_clear := fun h => absurd rfl h

/-- P3 steps 1 and 2. -/
theorem witness_BridgeFidelity_towardStore : (stateIn .nodeside).Inv ∧
    (stateMax .storeside 22).run = .running ∧
    (stateMax .storeside 22).params.optab = (stateIn .nodeside).params.optab ∧
    frameF.length + 12 ≤ (stateMax .storeside 22).params.maxFrame ∧
    ∃ t, exec (.rx frameF) (stateIn .nodeside) = .next t ∧ t.result.status = .rxRelayed ∧
      t.events = [.tx [0x3E, 1, 1, 0, 0, 7, 0, 0]] ++
        [.bridgeOut ([0x33, 0, 2, 0, 0, 7, 0, 0x2A] ++ frameF) 0x10FF] :=
  ⟨stateIn_inv _, by decide, by decide, by decide, _, rfl, by decide, by decide⟩

/-- P3 steps 4 and 5, and step 6 for the wire form. -/
theorem witness_BridgeFidelity_towardNode : (stateIn .storeside).Inv ∧
    (stateMax .nodeside 26).run = .running ∧
    (stateMax .nodeside 26).params.optab = (stateIn .storeside).params.optab ∧
    (frameG.length + 11) + 7 ≤ (stateMax .nodeside 26).params.maxFrame ∧
    (∃ t, exec (.rx frameG) (stateIn .storeside) = .next t ∧ t.result.status = .rxRelayed ∧
      t.events = [.tx [0x3C, 1, 1, 0, 0, 9, 0, 0]] ++
        [.bridgeOut ([0x32, 0, 2, 0, 0, 9, 0] ++ frameG) 0x101]) ∧
    (∃ t, exec (.rx ([0x32, 0, 2, 0, 0, 9, 0, 1, 1, 0, 0] ++ frameG)) (stateIn .storeside) = .next t ∧
      t.result.status = .rxRelayed ∧
      t.events = [] ++ [.bridgeOut ([0x32, 0, 2, 0, 0, 9, 0] ++ frameG) 0x101]) :=
  ⟨stateIn_inv _, by decide, by decide, by decide, ⟨_, rfl, by decide, by decide⟩,
    ⟨_, rfl, by decide, by decide⟩⟩

/-- A free entry behind a Sent one; no free entry; a frame of exactly MAX_FRAME bytes. -/
theorem witness_SendReliable :
    opLookup (stateIn .unbridged).params 0x31 = some (appRow .data .nodeToStore 0x3E) ∧
    hlen .data + (List.replicate 72 0 : Bytes).length ≤ (stateIn .unbridged).params.maxFrame ∧
    ([.sent entryP2, .free] : List OutSlot)[1]? = some .free ∧
    (∀ j, j < 1 → ([.sent entryP2, .free] : List OutSlot)[j]? ≠ some .free) ∧
    (∀ slot ∈ ([.sent entryP2, .sent entryP2] : List OutSlot), slot ≠ .free) := by decide

theorem witness_SendUnreliable :
    opLookup (stateIn .unbridged).params 0x39 = some (adminRow .data .nodeToStore) ∧
    (adminRow .data .nodeToStore).reliabilityRequired = false ∧ validSlid 0x101 = true ∧
    hlen .data + (List.replicate 72 0 : Bytes).length ≤ (stateIn .unbridged).params.maxFrame := by
  decide

/-- T8, T5, T6, T7, T9. -/
theorem witness_SendRefusals : 0x3F < (0x40 : OpCode).toNat ∧ (0x2F : OpCode).toNat < 0x30 ∧
    opLookup (stateIn .unbridged).params 0x3C = some (ackRow .nodeToStore) ∧
    opLookup (stateIn .unbridged).params 0x33 = some (bridgeRow .data .nodeToStore) ∧
    opLookup (stateIn .unbridged).params 0x31 = some (appRow .data .nodeToStore 0x3E) ∧
    validSlid 0xFF = false ∧
    (stateIn .unbridged).params.maxFrame < hlen .data + (List.replicate 73 0 : Bytes).length := by
  decide

/-- T3: not due, across the wrap of the clock. -/
theorem witness_TickBeforeDeadlines :
    (stateWithOut .unbridged [.sent { entryP2 with deadline := 0x54 }]).run = .running ∧
    ((0xFFFFFFFF : Clock) - 0x54).toInt < 0 := by decide

/-- P2 steps 1 to 6 in the second entry, with another send outstanding and one TICK a tick early:
RETRY_MAX = 2, deadlines 1100, 1200, 1350. -/
theorem witness_RetryBound :
    (stateWithOut .unbridged [.sent entryP2, .free]).run = .running ∧
    opLookup (stateIn .unbridged).params 0x31 = some (appRow .data .nodeToStore 0x3E) ∧
    ([.sent entryP2, .free] : List OutSlot)[1]? = some .free ∧
    (∀ j, j < 1 → ([.sent entryP2, .free] : List OutSlot)[j]? ≠ some .free) ∧
    (stateIn .unbridged).params.retryMax = 2 ∧
    timesReached (stateIn .unbridged).params.ackTimeout (1000 + BitVec.ofNat 32 100) [] = 0 ∧
    timesReached (stateIn .unbridged).params.ackTimeout (1000 + BitVec.ofNat 32 100)
      [1099, 1100, 1250] = 2 ∧
    timesReached (stateIn .unbridged).params.ackTimeout (1000 + BitVec.ofNat 32 100)
      [1099, 1100, 1250, 1350] = 3 ∧
    (∀ slot ∈ ([.sent entryP2, .free] : List OutSlot), ∀ e, slot = .sent e →
      e.frame ≠ encodeKind .data 0x31 0x101 ((stateIn .unbridged).txSeq + 1) 0 ++ [3]) := by
  refine ⟨rfl, by decide, by decide, by decide, by decide, by decide, by decide, by decide, ?_⟩
  intro slot hs e he
  subst he
  obtain rfl : e = entryP2 := by simpa using hs
  decide

/-- An entry that is Sent; one that is Free; a handle one past the table; a SLC not Running. -/
theorem witness_CancelReleasesEntry : stateUnconfigured.run ≠ .running ∧
    ([.free, .sent entryP2] : List OutSlot)[1]? = some (.sent entryP2) ∧
    (∀ e, ([.free, .sent entryP2] : List OutSlot)[0]? ≠ some (.sent e)) ∧
    (∀ e, ([.free, .sent entryP2] : List OutSlot)[2]? ≠ some (.sent e)) := by
  refine ⟨by decide, rfl, fun e => ?_, fun e => ?_⟩ <;> simp

/-- The operand's run: TICK, CANCEL_ALL act on a Running SLC, and such a state is at hand. -/
theorem witness_TickScansAscending_CancelAllReleasesEntries :
    (stateWithOut .unbridged [.sent entryP2, .free]).run = .running := rfl

/-- Each clause in turn: Running and Fatal; four bytes; a wrong version; slids 0xFF and 0x1100; slids
0x100 and 0x10FF. -/
theorem witness_CfgLoadOutcomes : (stateIn .unbridged).run ≠ .unconfigured ∧
    stateUnconfigured.run = .unconfigured ∧ ([1, 1, 1, 0] : Bytes).length < 5 ∧
    (2 : Byte) ≠ stateUnconfigured.params.nodeConfigVersion ∧ (0xFF : Slid).toNat < 0x100 ∧
    0x10FF < (0x1100 : Slid).toNat ∧ 0x100 ≤ (0x100 : Slid).toNat ∧
    (0x10FF : Slid).toNat ≤ 0x10FF := by decide

theorem witness_RunStateGate : stateUnconfigured.run ≠ .running ∧ (Instr.tick 0) ≠ .reset ∧
    (∀ r, (Instr.tick 0) ≠ .cfgLoad r) ∧ (stateIn .unbridged).run ≠ .unconfigured :=
  ⟨by decide, fun h => Instr.noConfusion h, fun _ h => Instr.noConfusion h, by decide⟩

/-- P4 steps 4 to 6. -/
theorem witness_ConfigGateHolds : stateUnconfigured.run = .unconfigured ∧
    (2 : Byte) ≠ stateUnconfigured.params.nodeConfigVersion ∧
    Instr.reset ∉ [Instr.rx frameF, Instr.cfgLoad (some [1, 1, 1, 0, 0])] := by decide

/-- An exception, and a refusal without one. -/
theorem witness_PrecisionLaw :
    (∃ t, exec (.rx []) (stateIn .unbridged) = .next t ∧ t.result.exc ≠ none) ∧
    (∃ t, exec (.send 0x3C 0x101 [0] 0 0) (stateIn .unbridged) = .next t ∧
      noEffectStatus t.result.status = true) :=
  ⟨⟨_, rfl, by decide⟩, ⟨_, rfl, by decide⟩⟩

theorem witness_StepKeepsInvariant : (stateIn .unbridged).Inv ∧
    ∃ t, step (stateIn .unbridged) = .next t := ⟨stateIn_inv _, _, rfl⟩

/-- Each register written. -/
theorem witness_WritersOfRegisters :
    (∃ t, exec (.cfgLoad (some [1, 1, 1, 0, 0])) stateUnconfigured = .next t ∧
      t.run ≠ stateUnconfigured.run ∧ t.ownSlid ≠ stateUnconfigured.ownSlid) ∧
    (∃ t, exec (.send 0x39 0x101 [] 0 0) (stateIn .unbridged) = .next t ∧
      t.txSeq ≠ (stateIn .unbridged).txSeq) :=
  ⟨⟨_, rfl, by decide, by decide⟩, ⟨_, rfl, by decide⟩⟩

theorem witness_SeqEntriesIndependent :
    (∃ t, exec (.rx frameF) (stateWithSeq .unbridged [(0, 5)]) = .next t ∧
      t.seq ≠ (stateWithSeq .unbridged [(0, 5)]).seq) ∧
    (∃ t, exec (.tick 0) (stateIn .unbridged) = .next t) ∧ wireArrival (.tick 0) = false :=
  ⟨⟨_, rfl, by decide⟩, ⟨_, rfl⟩, by decide⟩

theorem witness_IoDrawsOnlySetIoErr : (Instr.rx frameF) ≠ .reset ∧
    ∃ t, exec (.rx frameF) (stateIn .unbridged) = .next t := ⟨by decide, _, rfl⟩

theorem witness_EventsOnlyGrow :
    ∃ t, step { stateIn .unbridged with port := [frameF] } = .next t := ⟨_, rfl⟩

end Sys2Proof.Tests
end

section
/-! PROOFS. The statements on the scope of the model (spec/00_scope.md): one step of the port, the window
of the sequence check, the operand domain, the growth of the events, and what the draws of `io_ok` can
change. -/

namespace Sys2Proof.Machine

/-! ### One step of the port -/

theorem step_idle (s : State) (h : s.port = []) : step s = .next s := by
  simp only [step, takeNext, h]

theorem step_decoded (s : State) (m : Bytes) (rest : List Bytes) (i : Instr)
    (h : s.port = m :: rest) (hm : decode m = .ok i) :
    step s = exec i { s with port := rest } := by
  simp only [step, takeNext, h, hm]

theorem step_undecodable (s : State) (m : Bytes) (rest : List Bytes) (e : DecodeError)
    (h : s.port = m :: rest) (hm : decode m = .error e) :
    step s = .refused (.undecodable e) := by
  simp only [step, takeNext, h, hm]

/-- What a step that has a next state did: nothing, or the instruction of the first message. -/
theorem step_next (s t : State) (h : step s = .next t) :
    t = s ∨ ∃ i rest, exec i { s with port := rest } = .next t := by
  cases hp : s.port with
  | nil =>
    rw [step_idle s hp, Host.Outcome.next.injEq] at h
    exact .inl h.symm
  | cons m rest =>
    cases hm : decode m with
    | error e =>
      rw [step_undecodable s m rest e hp hm] at h
      cases h
    | ok i => exact .inr ⟨i, rest, by rwa [step_decoded s m rest i hp hm] at h⟩

/-! ### The window of the sequence check (R23, R229) -/

theorem sdiff16_add_ofNat (last : PkgNum) (k : Nat) (hk : k ≤ 32767) :
    sdiff16 (last + BitVec.ofNat 16 k) last = k := by
  have hsub : last + BitVec.ofNat 16 k - last = BitVec.ofNat 16 k := by bv_omega
  rw [sdiff16, hsub, BitVec.toInt_eq_toNat_cond, BitVec.toNat_ofNat]
  omega

theorem sdiff16_sub_ofNat (last : PkgNum) (k : Nat) (hk : k ≤ 32768) :
    sdiff16 (last - BitVec.ofNat 16 k) last = -k := by
  have hsub : last - BitVec.ofNat 16 k - last = -BitVec.ofNat 16 k := by bv_omega
  rw [sdiff16, hsub, BitVec.toInt_eq_toNat_cond, BitVec.toNat_neg, BitVec.toNat_ofNat]
  omega

/-- The sequence check against a recorded number is the sign of the difference (R220). -/
theorem seqNew_of_recorded (t : SeqTable) (slid : Slid) (pkg last : PkgNum)
    (h : seqRead t (seqIndex slid) = some last) :
    seqNew t slid pkg = decide (0 < sdiff16 pkg last) := by
  simp only [seqNew, h]

/-! ### The operand domain (R11) -/

/-- A wire op is the arrival of its message, whatever the state. -/
theorem exec_wireArrival (i : Instr) (h : wireArrival i = true) : exec i = receive (encode i) := by
  cases i with
  | reset | cfgLoad | rx | send | tick | cancel | fwd | cancelAll => exact absurd h Bool.false_ne_true
  | _ => rfl

/-- The message of a wire op is the frame it hands to the RX port. -/
theorem length_encode_wireArrival (i : Instr) (h : wireArrival i = true) :
    (encode i).length = i.portLength := by
  cases i with
  | reset | cfgLoad | rx | send | tick | cancel | fwd | cancelAll => exact absurd h Bool.false_ne_true
  | wireDN | wireBN | wireX34 | wireX36 | wireSC | wireX3A | wireAS | wireAN =>
    exact length_ctrlFrame _ _ _ _
  | wireDS | wireBS | wireX35 | wireX37 | wireOF | wireX3B | wireX3D | wireX3F =>
    exact length_dataFrame _ _ _ _ _

theorem receive_overlong (b : Bytes) (s : State) (hr : s.run = .running)
    (hl : s.params.maxFrame < b.length) : receive b s = .refused .frameOverMaxFrame := by
  rw [receive, whenRunning_running _ s hr]
  exact withinMaxFrame_of_lt b (rxRun b) { s with result := {} } hl

/-- At a bridge, FWD has no gate but the operand domain. -/
theorem fwdGate_bridge (raw : Bytes) (dest : Slid) (s : State)
    (hm : s.params.bridgeMode ≠ .unbridged) :
    fwdGate raw dest s = withinMaxFrame raw (fwdRun raw dest) s := by
  unfold fwdGate
  split
  · contradiction
  · rfl

theorem execFwd_overlong (raw : Bytes) (dest : Slid) (s : State) (hr : s.run = .running)
    (hm : s.params.bridgeMode ≠ .unbridged) (hl : s.params.maxFrame < raw.length) :
    execFwd raw dest s = .refused .frameOverMaxFrame := by
  rw [execFwd, whenRunning_running _ s hr, fwdGate_bridge raw dest { s with result := {} } hm]
  exact withinMaxFrame_of_lt raw (fwdRun raw dest) { s with result := {} } hl

/-! ### The events only grow (R82) -/

theorem rxEnd_events (b : Bytes) (s t : State) (h : RxEnd b s t) : s.events <+: t.events := by
  cases h with
  | turnedAway => exact List.prefix_rfl
  | plain => simp
  | raised | unwrapped | ackDropped | ackMatched | ackRelayed => exact List.prefix_append _ _

theorem fwdEnd_events (s t : State) (h : FwdEnd s t) : s.events <+: t.events := by
  cases h with
  | turnedAway => exact List.prefix_rfl
  | raised | forwarded => exact List.prefix_append _ _

theorem sendEnd_events (op : OpCode) (slid : Slid) (payload : Bytes) (rssi : Byte) (now : Clock)
    (s t : State) (h : SendEnd op slid payload rssi now s t) : s.events <+: t.events := by
  cases h with
  | refused => exact List.prefix_rfl
  | raised | sent | sentReliable => exact List.prefix_append _ _

theorem tickRun_events (now : Clock) (s : State) :
    (tickRun now s).events = s.events ++ tickScan s.params now 0 s.out := by
  simp [tickRun]

/-- Every instruction that has a next state leaves the events in place and adds behind them. -/
theorem exec_events (i : Instr) (s t : State) (h : exec i s = .next t) : s.events <+: t.events := by
  cases exec_ends i s t h with
  | arrival b t hi hb hr hl hend => exact rxEnd_events b { s with result := {} } t hend
  | send op slid payload rssi now t hi hr hend =>
    exact sendEnd_events op slid payload rssi now { s with result := {} } t hend
  | fwd raw dest t hi hr hm hl hend => exact fwdEnd_events { s with result := {} } t hend
  | tick now hi hr => exact tickRun_events now _ ▸ List.prefix_append _ _
  | cfgFatal => exact List.prefix_append _ _
  | notRunning | cancelled | noEntry | cancelAll | fwdInert | reset | cfgRefused | cfgOk =>
    exact List.prefix_rfl

/-! ### What the draws can change (R18, R322)

An operation is blind to the draws when a state and the same state with its draws taken out are led to
states that agree but for their draws. Each stage of a command is shown blind once; a command is then
blind as a chain of blind stages. -/

/-- The operation does not look at what the `io_ok` draws left in the state. -/
def DrawBlind (f : State → State) : Prop :=
  ∀ s : State, (f s).withoutDraws = (f s.withoutDraws).withoutDraws

/-- Blind stages one after the other. -/
theorem DrawBlind.comp {f g : State → State} (hf : DrawBlind f) (hg : DrawBlind g) :
    DrawBlind fun s => f (g s) := fun s =>
  calc (f (g s)).withoutDraws
      = (f (g s).withoutDraws).withoutDraws := hf _
    _ = (f (g s.withoutDraws).withoutDraws).withoutDraws := by rw [hg s]
    _ = (f (g s.withoutDraws)).withoutDraws := (hf _).symm

/-- A blind operation leads states that differ in their draws to states that differ in what the draws
left. -/
theorem DrawBlind.redraw {f : State → State} (hf : DrawBlind f) (s : State) (n : Nat) :
    (f { s with draws := n }).withoutDraws = (f s).withoutDraws :=
  (hf { s with draws := n }).trans (hf s).symm

theorem emit_blind (e : Event) : DrawBlind (emit e) := fun _ => rfl

theorem setResult_blind (r : Result) : DrawBlind (setResult r) := fun _ => rfl

theorem raise_blind (k : Raised) (info : Result) : DrawBlind (raise k info) := fun _ => rfl

theorem logSoft_blind (k : ExcKind) : DrawBlind (logSoft k) := fun _ => rfl

theorem emitAll_blind (es : List Event) : DrawBlind (emitAll es) := by
  induction es with
  | nil => exact fun _ => rfl
  | cons e es ih => exact ih.comp (emit_blind e)

/-- An event, then RESULT: the end of most commands. -/
theorem setResult_emit_blind (r : Result) (e : Event) : DrawBlind fun s => setResult r (emit e s) :=
  (setResult_blind r).comp (emit_blind e)

/-! #### The stages of RX -/

theorem emitReply_blind (d : Descriptor) (hdr : Header) (code : AckCode) :
    DrawBlind (emitReply d hdr code) := by
  intro s
  unfold emitReply
  rw [withoutDraws_params]
  split
  · split
    · exact emit_blind _ s
    · rfl
  · rfl

theorem brgRelay_blind (d : Descriptor) (hdr : Header) (b : Bytes) (info : Result) :
    DrawBlind (brgRelay d hdr b info) := by
  intro s
  unfold brgRelay
  rw [withoutDraws_params, withoutDraws_ownSlid]
  split
  · exact raise_blind _ _ s
  · split
    · exact setResult_blind _ s
    · exact setResult_emit_blind _ _ s

theorem consumeAndRelay_blind (d : Descriptor) (hdr : Header) (b : Bytes) :
    DrawBlind (consumeAndRelay d hdr b) := by
  intro s
  unfold consumeAndRelay
  rw [withoutDraws_params]
  split
  · exact raise_blind _ _ s
  · split
    · exact raise_blind _ _ s
    · split
      · exact raise_blind _ _ s
      · split
        · exact raise_blind _ _ s
        · exact raise_blind _ _ s
        · exact setResult_emit_blind _ _ s

theorem brgRx_blind (d : Descriptor) (hdr : Header) (b : Bytes) : DrawBlind (brgRx d hdr b) := by
  intro s
  unfold brgRx
  rw [withoutDraws_params]
  split
  · exact setResult_blind _ s
  · exact setResult_blind _ s
  · split
    · exact consumeAndRelay_blind d hdr b s
    · exact setResult_blind _ s

theorem ackRx_blind (d : Descriptor) (hdr : Header) (payload b : Bytes) :
    DrawBlind (ackRx d hdr payload b) := by
  intro s
  unfold ackRx
  rw [withoutDraws_params, withoutDraws_out]
  split
  · split
    · exact setResult_emit_blind _ _ { s with out := s.out.set _ .free }
    · split
      · exact brgRelay_blind d hdr b _ s
      · exact (setResult_blind _).comp (logSoft_blind _) s
  · exact (setResult_blind _).comp (logSoft_blind _) s

theorem rxFinish_blind (d : Descriptor) (hdr : Header) (payload b : Bytes) (code : AckCode) :
    DrawBlind (rxFinish d hdr payload b code) := by
  intro s
  unfold rxFinish
  rw [withoutDraws_params]
  dsimp only
  split
  · exact (setResult_blind _).comp (logSoft_blind _) s
  · split
    · exact brgRelay_blind d hdr b _ s
    · split
      · exact setResult_emit_blind _ _ s
      · exact setResult_blind _ s

theorem rxPlain_blind (d : Descriptor) (hdr : Header) (payload b : Bytes) :
    DrawBlind (rxPlain d hdr payload b) := by
  intro s
  unfold rxPlain
  rw [withoutDraws_params, withoutDraws_seq]
  split
  · exact raise_blind _ _ s
  · exact (rxFinish_blind d hdr payload b _).comp (emitReply_blind d hdr _)
      { s with seq := seqAdvance s.seq hdr.slid hdr.pkgNum }

theorem rxDispatch_blind (d : Descriptor) (hdr : Header) (payload b : Bytes) :
    DrawBlind (rxDispatch d hdr payload b) := by
  intro s
  unfold rxDispatch
  split
  · exact brgRx_blind d hdr b s
  · exact ackRx_blind d hdr payload b s
  · exact rxPlain_blind d hdr payload b s
  · exact rxPlain_blind d hdr payload b s

theorem rxRun_blind (b : Bytes) : DrawBlind (rxRun b) := by
  intro s
  unfold rxRun
  rw [withoutDraws_params]
  split
  · exact raise_blind _ _ s
  · split
    · exact raise_blind _ _ s
    · split
      · exact raise_blind _ _ s
      · split
        · exact raise_blind _ _ s
        · exact rxDispatch_blind _ _ _ _ s

/-! #### FWD, and the sending side -/

theorem fwdTransmit_blind (raw inner : Bytes) (hl : Nat) (dest : Slid) (hdr : Header) :
    DrawBlind (fwdTransmit raw inner hl dest hdr) := by
  intro s
  unfold fwdTransmit
  rw [withoutDraws_params]
  split
  · exact setResult_emit_blind _ _ s
  · split
    · exact raise_blind _ _ s
    · exact setResult_emit_blind _ _ s

theorem fwdRun_blind (raw : Bytes) (dest : Slid) : DrawBlind (fwdRun raw dest) := by
  intro s
  unfold fwdRun
  rw [withoutDraws_params]
  split
  · exact raise_blind _ _ s
  · split
    · exact raise_blind _ _ s
    · split
      · exact setResult_blind _ s
      · split
        · exact raise_blind _ _ s
        · split
          · exact raise_blind _ _ s
          · split
            · exact raise_blind _ _ s
            · split
              · exact raise_blind _ _ s
              · split
                · exact raise_blind _ _ s
                · exact fwdTransmit_blind _ _ _ _ _ s

theorem transmit_blind (d : Descriptor) (op : OpCode) (slid : Slid) (payload : Bytes) (rssi : Byte)
    (now : Clock) (slot : Option Nat) : DrawBlind (transmit d op slid payload rssi now slot) := by
  intro s
  cases slot <;> rfl

theorem sendRun_blind (op : OpCode) (slid : Slid) (payload : Bytes) (rssi : Byte) (now : Clock) :
    DrawBlind (sendRun op slid payload rssi now) := by
  intro s
  unfold sendRun
  rw [withoutDraws_params, withoutDraws_out]
  split
  · exact raise_blind _ _ s
  · split
    · exact setResult_blind _ s
    · split
      · exact raise_blind _ _ s
      · split
        · exact setResult_blind _ s
        · split
          · split
            · exact setResult_blind _ s
            · exact transmit_blind _ _ _ _ _ _ _ s
          · exact transmit_blind _ _ _ _ _ _ _ s

theorem tickRun_blind (now : Clock) : DrawBlind (tickRun now) := fun s =>
  (setResult_blind _).comp (emitAll_blind _) { s with out := s.out.map (tickSlot s.params now) }

theorem cancelRun_blind (h : Nat) : DrawBlind (cancelRun h) := by
  intro s
  unfold cancelRun
  rw [withoutDraws_out]
  split
  · rfl
  · exact setResult_blind _ s
  · exact setResult_blind _ s

theorem cancelAllRun_blind : DrawBlind cancelAllRun := fun _ => rfl

theorem cfgLoadRun_blind (record : Option Bytes) : DrawBlind (cfgLoadRun record) := by
  intro s
  unfold cfgLoadRun
  split
  · unfold cfgRecord
    rw [withoutDraws_params]
    dsimp only
    split
    · rfl
    · split <;> rfl
  · rfl

/-! #### Whole commands -/

/-- The command takes a state and the same state with other draws to next states that differ in what
the draws left, or takes neither to one. -/
def CommandBlind (act : State → Host.Outcome State Fault Refusal) : Prop :=
  ∀ (s t : State) (n : Nat), act s = .next t →
    ∃ t', act { s with draws := n } = .next t' ∧ t'.withoutDraws = t.withoutDraws

theorem next_blind {f : State → State} (hf : DrawBlind f) : CommandBlind fun s => .next (f s) := by
  intro s t n h
  rw [Host.Outcome.next.injEq] at h
  subst h
  exact ⟨_, rfl, hf.redraw s n⟩

theorem withinMaxFrame_blind (b : Bytes) {f : State → State} (hf : DrawBlind f) :
    CommandBlind (withinMaxFrame b f) := by
  intro s t n h
  obtain ⟨hl, rfl⟩ := withinMaxFrame_next b f s t h
  exact ⟨_, withinMaxFrame_of_le b f { s with draws := n } hl, hf.redraw s n⟩

theorem whenRunning_blind {act : State → Host.Outcome State Fault Refusal} (ha : CommandBlind act) :
    CommandBlind (whenRunning act) := by
  intro s t n h
  rcases whenRunning_next act s t h with ⟨hr, hact⟩ | ⟨hr, rfl⟩
  · rw [whenRunning_running act { s with draws := n } hr]
    exact ha { s with result := {} } t n hact
  · exact ⟨_, whenRunning_not_running act { s with draws := n } hr, rfl⟩

theorem receive_blind (b : Bytes) : CommandBlind (receive b) :=
  whenRunning_blind (withinMaxFrame_blind b (rxRun_blind b))

theorem fwdGate_blind (raw : Bytes) (dest : Slid) : CommandBlind (fwdGate raw dest) := by
  intro s t n h
  by_cases hm : s.params.bridgeMode = .unbridged
  · simp only [fwdGate, hm] at h ⊢
    exact next_blind (setResult_blind _) s t n h
  · rw [fwdGate_bridge raw dest s hm] at h
    rw [fwdGate_bridge raw dest { s with draws := n } hm]
    exact withinMaxFrame_blind raw (fwdRun_blind raw dest) s t n h

theorem execCfgLoad_blind (record : Option Bytes) : CommandBlind (execCfgLoad record) := by
  intro s t n h
  unfold execCfgLoad at h ⊢
  cases hr : s.run with
  | unconfigured =>
    simp only [hr] at h ⊢
    exact next_blind (cfgLoadRun_blind record) s t n h
  | running | fatal =>
    simp only [hr] at h ⊢
    cases h
    exact ⟨_, rfl, rfl⟩

/-- Every instruction but RESET, which draws OWN_SLID (log entry 4). -/
theorem exec_blind (i : Instr) (hi : i ≠ .reset) : CommandBlind (exec i) := by
  cases i with
  | reset => exact absurd rfl hi
  | cfgLoad record => exact execCfgLoad_blind record
  | send op slid payload rssi now =>
    exact whenRunning_blind (next_blind (sendRun_blind op slid payload rssi now))
  | tick now => exact whenRunning_blind (next_blind (tickRun_blind now))
  | cancel h => exact whenRunning_blind (next_blind (cancelRun_blind h))
  | fwd raw dest => exact whenRunning_blind (fwdGate_blind raw dest)
  | cancelAll => exact whenRunning_blind (next_blind cancelAllRun_blind)
  | rx b => exact receive_blind b
  | _ => exact receive_blind _

/-! ### The statements -/

/-- Settles O5, from the three equations of a step. -/
theorem stepRunsDecodedInstruction : Obligations.StepRunsDecodedInstruction :=
  ⟨step_decoded, step_idle, step_undecodable⟩

/-- Settles O12: within the window the signed difference is the distance itself, with its sign. -/
theorem halfRangeWindow : Obligations.HalfRangeWindow := by
  unfold Obligations.HalfRangeWindow
  intro t slid last hread
  constructor
  · intro k hpos hk
    rw [seqNew_of_recorded t slid _ last hread, sdiff16_add_ofNat last k hk]
    exact decide_eq_true (by omega)
  · intro k hk
    rw [seqNew_of_recorded t slid _ last hread, sdiff16_sub_ofNat last k hk]
    exact decide_eq_false (by omega)

/-- Settles O20: RX and the wire ops are one arrival, which asks for the operand domain behind the run
gate, as FWD does at a bridge. -/
theorem overlongFramesRefused : Obligations.OverlongFramesRefused := by
  unfold Obligations.OverlongFramesRefused
  refine ⟨fun s b => receive_overlong b s, ?_, fun s raw dest => execFwd_overlong raw dest s⟩
  intro s i hr hwire hwf
  have hlong : s.params.maxFrame < (encode i).length := by
    simpa [length_encode_wireArrival i hwire, Instr.wellFormed] using hwf
  rw [exec_wireArrival i hwire]
  exact receive_overlong (encode i) s hr hlong

/-- Settles O57: every instruction but RESET is a chain of stages that do not look at the draws. -/
theorem ioDrawsOnlySetIoErr : Obligations.IoDrawsOnlySetIoErr := by
  unfold Obligations.IoDrawsOnlySetIoErr
  exact fun i s t n hi => exec_blind i hi s t n

/-- Settles O58: a step changes nothing or is an instruction, every end of which adds events behind. -/
theorem eventsOnlyGrow : Obligations.EventsOnlyGrow := by
  unfold Obligations.EventsOnlyGrow
  intro s t h
  have hgrow : s.events <+: t.events := by
    rcases step_next s t h with rfl | ⟨i, rest, hexec⟩
    · exact List.prefix_rfl
    · exact exec_events i { s with port := rest } t hexec
  obtain ⟨more, hmore⟩ := hgrow
  exact ⟨more, hmore.symm⟩

end Sys2Proof.Machine
end

section
/-! PROOFS. The statements on the state (spec/10_state.md): the codes, the table SEQ, who writes the
registers and SEQ, and the invariant that every step keeps. -/

namespace Sys2Proof.Machine

/-! ### The codes (R33, R37, R39, R110, R311) -/

/-- Codes are injective when an enumeration of the kinds has pairwise different codes. -/
theorem eq_of_code_eq {α β : Type} (code : α → β) (all : List α) (hall : ∀ a, a ∈ all)
    (hnodup : (all.map code).Nodup) (a b : α) (h : code a = code b) : a = b :=
  List.inj_on_of_nodup_map hnodup (hall a) (hall b) h

/-- The statuses in the order of their codes (R37). -/
def allStatuses : List Status :=
  [.none, .rxDelivered, .rxRecognized, .rxRelayed, .rxAckMatched, .rxAckUnmatched, .rxDuplicate,
    .rxSizeErr, .rxVersionErr, .errSize, .errAddr, .errUnknownOp, .bridgeInert, .bridgeRefused, .sent,
    .sentReliable, .outFull, .refusedOp, .tooLong, .ticked, .cancelled, .noEntry, .cfgOk, .cfgFatal,
    .notRunning, .refusedState, .fwdSent]

theorem mem_allStatuses (a : Status) : a ∈ allStatuses := by cases a <;> decide

theorem map_statusCode_allStatuses : allStatuses.map statusCode = List.range 27 := rfl

theorem statusCode_inj (a b : Status) (h : statusCode a = statusCode b) : a = b :=
  eq_of_code_eq statusCode allStatuses mem_allStatuses
    (map_statusCode_allStatuses ▸ List.nodup_range) a b h

/-- The status codes are the numbers 0 to 26. -/
theorem exists_statusCode_iff (n : Nat) : (∃ a, statusCode a = n) ↔ n ≤ 26 := by
  have hmap : n ∈ allStatuses.map statusCode ↔ n < 27 := by
    rw [map_statusCode_allStatuses, List.mem_range]
  simpa [mem_allStatuses, Nat.lt_succ_iff] using hmap

/-- The exception kinds in the order of their codes (R311). -/
def allExcKinds : List ExcKind :=
  [.addressOutOfRange, .codecSizeError, .opUnknown, .ackDuplicate, .ackUnexpected,
    .ackVersionMismatch, .ackSizeMismatch, .retriesExhausted, .configVersionMismatch,
    .configNotInitialized, .ioError, .frameTooLong, .bridgeRefused]

theorem mem_allExcKinds (a : ExcKind) : a ∈ allExcKinds := by cases a <;> decide

theorem excCode_inj (a b : ExcKind) (h : excCode a = excCode b) : a = b :=
  eq_of_code_eq excCode allExcKinds mem_allExcKinds (by decide) a b h

theorem excCode_range (a : ExcKind) : 1 ≤ excCode a ∧ excCode a ≤ 13 := by cases a <;> decide

theorem ackByte_inj (a b : AckCode) (h : ackByte a = ackByte b) : a = b :=
  eq_of_code_eq ackByte [.success, .duplicate, .unexpected, .versionErr, .sizeErr]
    (fun a => by cases a <;> decide) (by decide) a b h

theorem ackByte_le (a : AckCode) : (ackByte a).toNat ≤ 4 := by cases a <;> decide

theorem runCode_inj (a b : RunState) (h : runCode a = runCode b) : a = b :=
  eq_of_code_eq runCode [.unconfigured, .running, .fatal]
    (fun a => by cases a <;> decide) (by decide) a b h

theorem runCode_ne_three (a : RunState) : runCode a ≠ 3 := by cases a <;> decide

theorem bridgeModeOfStrap_code (m : BridgeMode) : bridgeModeOfStrap (bridgeModeCode m) = some m := by
  cases m <;> rfl

/-! ### The table SEQ (R42, R43) -/

/-- A SEQ entry reads as last written, and a write changes no other entry. -/
theorem seqRead_seqWrite (t : SeqTable) (i j : Nat) (v : PkgNum) :
    seqRead (seqWrite t i v) j = if j = i then some v else seqRead t j := by
  induction t with
  | nil => rfl
  | cons c t ih =>
    obtain ⟨k, w⟩ := c
    simp only [seqWrite]
    split
    · rfl
    · split
      · rename_i hik
        subst hik
        by_cases hj : j = i <;> simp [seqRead, hj]
      · rename_i hik
        by_cases hj : j = k
        · have hji : j ≠ i := fun h => hik (h.symm.trans hj)
          simp [seqRead, hj, hj ▸ hji]
        · simp [seqRead, hj, ih]

theorem seqWfFrom_cons (lo j : Nat) (v : PkgNum) (t : SeqTable) :
    seqWfFrom lo ((j, v) :: t) = true ↔ lo ≤ j ∧ j < 4096 ∧ seqWfFrom (j + 1) t = true := by
  simp [seqWfFrom, and_assoc]

/-- A table in canonical form holds nothing below its lowest admissible index. -/
theorem seqRead_below (t : SeqTable) (lo i : Nat) (hw : seqWfFrom lo t = true) (hi : i < lo) :
    seqRead t i = none := by
  induction t generalizing lo with
  | nil => rfl
  | cons c t ih =>
    obtain ⟨j, v⟩ := c
    obtain ⟨hlo, -, ht⟩ := (seqWfFrom_cons lo j v t).mp hw
    rw [seqRead, if_neg (by omega)]
    exact ih (j + 1) ht (by omega)

/-- When a table reads at `j` as one that starts with the index `j` does, its own first index is not
above `j`. -/
theorem seq_head_le (t u : SeqTable) (lo j k : Nat) (v w : PkgNum)
    (hu : seqWfFrom lo ((k, w) :: u) = true)
    (hread : seqRead ((j, v) :: t) j = seqRead ((k, w) :: u) j) : k ≤ j := by
  obtain ⟨-, hk, hu'⟩ := (seqWfFrom_cons lo k w u).mp hu
  by_contra hlt
  have hfrom : seqWfFrom k ((k, w) :: u) = true :=
    (seqWfFrom_cons k k w u).mpr ⟨Nat.le_refl k, hk, hu'⟩
  rw [seqRead_below _ k j hfrom (by omega)] at hread
  simp [seqRead] at hread

/-- Two tables in canonical form that read alike are the same list: the first entries are at the same
index, and what stands behind reads alike again. -/
theorem seq_ext_from (t u : SeqTable) (lo : Nat) (ht : seqWfFrom lo t = true)
    (hu : seqWfFrom lo u = true) (hread : ∀ i, seqRead t i = seqRead u i) : t = u := by
  induction t generalizing u lo with
  | nil =>
    cases u with
    | nil => rfl
    | cons c u => simpa [seqRead] using hread c.1
  | cons c t ih =>
    obtain ⟨j, v⟩ := c
    cases u with
    | nil => simpa [seqRead] using hread j
    | cons c' u =>
      obtain ⟨k, w⟩ := c'
      have hjk : j = k := Nat.le_antisymm (seq_head_le u t lo k j w v ht (hread k).symm)
        (seq_head_le t u lo j k v w hu (hread j))
      subst hjk
      have hvw : v = w := by simpa [seqRead] using hread j
      subst hvw
      obtain ⟨-, -, ht'⟩ := (seqWfFrom_cons lo j v t).mp ht
      obtain ⟨-, -, hu'⟩ := (seqWfFrom_cons lo j v u).mp hu
      have hrest : ∀ i, seqRead t i = seqRead u i := by
        intro i
        by_cases hi : i = j
        · rw [seqRead_below t (j + 1) i ht' (by omega), seqRead_below u (j + 1) i hu' (by omega)]
        · simpa [seqRead, hi] using hread i
      rw [ih u (j + 1) ht' hu' hrest]

/-- The sequence check writes the entry of the frame's SLID or nothing. -/
theorem seqAdvance_cases (t : SeqTable) (slid : Slid) (pkg : PkgNum) :
    seqAdvance t slid pkg = t ∨ seqAdvance t slid pkg = seqWrite t (seqIndex slid) pkg := by
  unfold seqAdvance
  split
  · exact .inr rfl
  · exact .inl rfl

/-! ### The registers and the constant inputs (R33 to R35, R41) -/

/-- What every command but RESET and CFG_LOAD leaves alone: RUN, OWN_SLID, the configuration and the
pending messages. -/
structure SameSetup (s t : State) : Prop where
  run : t.run = s.run
  ownSlid : t.ownSlid = s.ownSlid
  params : t.params = s.params
  port : t.port = s.port

/-- Clearing RESULT at the start of a command is no part of what it leaves alone. -/
theorem SameSetup.of_cleared {s t : State} {r : Result} (h : SameSetup { s with result := r } t) :
    SameSetup s t := ⟨h.run, h.ownSlid, h.params, h.port⟩

theorem rxEnd_setup (b : Bytes) (s t : State) (h : RxEnd b s t) : SameSetup s t := by
  cases h with
  | plain => constructor <;> simp
  | raised | turnedAway | unwrapped | ackDropped | ackMatched | ackRelayed =>
    exact ⟨rfl, rfl, rfl, rfl⟩

theorem fwdEnd_setup (s t : State) (h : FwdEnd s t) : SameSetup s t := by
  cases h <;> exact ⟨rfl, rfl, rfl, rfl⟩

theorem sendEnd_setup (op : OpCode) (slid : Slid) (payload : Bytes) (rssi : Byte) (now : Clock)
    (s t : State) (h : SendEnd op slid payload rssi now s t) : SameSetup s t := by
  cases h <;> exact ⟨rfl, rfl, rfl, rfl⟩

theorem tickRun_setup (now : Clock) (s : State) : SameSetup s (tickRun now s) := by
  constructor <;> simp [tickRun]

/-- How an instruction with a next state leaves RUN, OWN_SLID, the configuration and the port. -/
inductive SetupEnd (i : Instr) (s t : State) : Prop where
  | kept (h : SameSetup s t)
  | reset (hi : i = .reset) (hr : t.run = .unconfigured) (hp : t.params = s.params)
      (hq : t.port = s.port)
  | cfgFatal (r : Option Bytes) (hi : i = .cfgLoad r) (hr : t.run = .fatal)
      (ho : t.ownSlid = s.ownSlid) (hp : t.params = s.params) (hq : t.port = s.port)
  | cfgOk (r : Option Bytes) (hi : i = .cfgLoad r) (hr : t.run = .running)
      (hv : validSlid t.ownSlid = true) (hp : t.params = s.params) (hq : t.port = s.port)

theorem exec_setup (i : Instr) (s t : State) (h : exec i s = .next t) : SetupEnd i s t := by
  cases exec_ends i s t h with
  | arrival b t hi hb hr hl hend => exact .kept (rxEnd_setup b _ t hend).of_cleared
  | send op slid payload rssi now t hi hr hend =>
    exact .kept (sendEnd_setup op slid payload rssi now _ t hend).of_cleared
  | fwd raw dest t hi hr hm hl hend => exact .kept (fwdEnd_setup _ t hend).of_cleared
  | tick now hi hr => exact .kept (tickRun_setup now _).of_cleared
  | reset hi => exact .reset hi rfl rfl rfl
  | cfgFatal r k slid hi hr => exact .cfgFatal r hi rfl rfl rfl rfl
  | cfgOk r slid hi hr hv => exact .cfgOk r hi rfl hv rfl rfl
  | notRunning | cancelled | noEntry | cancelAll | fwdInert | cfgRefused =>
    exact .kept ⟨rfl, rfl, rfl, rfl⟩

/-- The configuration and the pending messages: no instruction writes them (R41). -/
theorem exec_constants (i : Instr) (s t : State) (h : exec i s = .next t) :
    t.params = s.params ∧ t.port = s.port := by
  cases exec_setup i s t h with
  | kept hk => exact ⟨hk.params, hk.port⟩
  | reset _ _ hp hq | cfgFatal _ _ _ _ hp hq | cfgOk _ _ _ _ hp hq => exact ⟨hp, hq⟩

theorem exec_run (i : Instr) (s t : State) (h : exec i s = .next t) :
    t.run = s.run ∨ i = .reset ∨ ∃ r, i = .cfgLoad r := by
  cases exec_setup i s t h with
  | kept hk => exact .inl hk.run
  | reset hi => exact .inr (.inl hi)
  | cfgFatal r hi | cfgOk r hi => exact .inr (.inr ⟨r, hi⟩)

theorem exec_ownSlid (i : Instr) (s t : State) (h : exec i s = .next t) :
    t.ownSlid = s.ownSlid ∨ i = .reset ∨ ∃ r, i = .cfgLoad r ∧ t.run = .running := by
  cases exec_setup i s t h with
  | kept hk => exact .inl hk.ownSlid
  | reset hi => exact .inr (.inl hi)
  | cfgFatal _ _ _ ho => exact .inl ho
  | cfgOk r hi hr => exact .inr (.inr ⟨r, hi, hr⟩)

/-- OWN_SLID is valid whenever SLC runs, if it was so before (R34). -/
theorem exec_own_valid (i : Instr) (s t : State) (h : exec i s = .next t)
    (hs : s.run = .running → validSlid s.ownSlid = true) (ht : t.run = .running) :
    validSlid t.ownSlid = true := by
  cases exec_setup i s t h with
  | kept hk => exact hk.ownSlid ▸ hs (hk.run.symm.trans ht)
  | reset _ hr | cfgFatal _ _ hr => cases hr.symm.trans ht
  | cfgOk _ _ _ hv => exact hv

/-! #### TXSEQ (R35) -/

theorem rxEnd_txSeq (b : Bytes) (s t : State) (h : RxEnd b s t) : t.txSeq = s.txSeq := by
  cases h with
  | plain => simp
  | raised | turnedAway | unwrapped | ackDropped | ackMatched | ackRelayed => rfl

theorem fwdEnd_txSeq (s t : State) (h : FwdEnd s t) : t.txSeq = s.txSeq := by
  cases h <;> rfl

theorem sendEnd_txSeq (op : OpCode) (slid : Slid) (payload : Bytes) (rssi : Byte) (now : Clock)
    (s t : State) (h : SendEnd op slid payload rssi now s t) :
    t.txSeq = s.txSeq ∨ t.txSeq = s.txSeq + 1 := by
  cases h with
  | raised | refused => exact .inl rfl
  | sent | sentReliable => exact .inr rfl

theorem exec_txSeq (i : Instr) (s t : State) (h : exec i s = .next t) :
    t.txSeq = s.txSeq ∨ i = .reset ∨
      ∃ op slid payload rssi now, i = .send op slid payload rssi now ∧ t.txSeq = s.txSeq + 1 := by
  cases exec_ends i s t h with
  | arrival b t hi hb hr hl hend => exact .inl (rxEnd_txSeq b { s with result := {} } t hend)
  | fwd raw dest t hi hr hm hl hend => exact .inl (fwdEnd_txSeq { s with result := {} } t hend)
  | tick now hi hr => exact .inl (by simp [tickRun])
  | send op slid payload rssi now t hi hr hend =>
    rcases sendEnd_txSeq op slid payload rssi now _ t hend with hsame | hnext
    · exact .inl hsame
    · exact .inr (.inr ⟨op, slid, payload, rssi, now, hi, hnext⟩)
  | reset hi => exact .inr (.inl hi)
  | notRunning | cancelled | noEntry | cancelAll | fwdInert | cfgRefused | cfgFatal | cfgOk =>
    exact .inl rfl

/-! ### Who writes SEQ (R43, R220) -/

/-- The frame passes the header checks of RX and is one that SEQ numbers: of class App or Admin. -/
structure Numbered (p : Params) (b : Bytes) (d : Descriptor) (hdr : Header) (payload : Bytes) :
    Prop where
  lookup : opLookup p (b.headD 0) = some d
  decoded : decodeKind d.headerKind b = some (hdr, payload)
  slid_valid : validSlid hdr.slid = true
  plain : d.opClass = .app ∨ d.opClass = .admin

/-- An arrival leaves SEQ, or puts a numbered frame to the sequence check. -/
theorem rxEnd_seq (b : Bytes) (s t : State) (h : RxEnd b s t) :
    t.seq = s.seq ∨ ∃ d hdr payload, Numbered s.params b d hdr payload ∧
      t.seq = seqAdvance s.seq hdr.slid hdr.pkgNum := by
  cases h with
  | plain d hdr payload _ _ _ _ hd hc hk hv =>
    exact .inr ⟨d, hdr, payload, ⟨hd, hk, hv, hc⟩, by simp⟩
  | raised | turnedAway | unwrapped | ackDropped | ackMatched | ackRelayed => exact .inl rfl

theorem fwdEnd_seq (s t : State) (h : FwdEnd s t) : t.seq = s.seq := by
  cases h <;> rfl

theorem sendEnd_seq (op : OpCode) (slid : Slid) (payload : Bytes) (rssi : Byte) (now : Clock)
    (s t : State) (h : SendEnd op slid payload rssi now s t) : t.seq = s.seq := by
  cases h <;> rfl

/-- Every instruction leaves SEQ, clears it (RESET), or is an arrival that advances it. -/
theorem exec_seq (i : Instr) (s t : State) (h : exec i s = .next t) :
    t.seq = s.seq ∨ (i = .reset ∧ t.seq = []) ∨
      ∃ b d hdr payload, (i = .rx b ∨ wireArrival i = true) ∧ Numbered s.params b d hdr payload ∧
        t.seq = seqAdvance s.seq hdr.slid hdr.pkgNum := by
  cases exec_ends i s t h with
  | arrival b t hi hb hr hl hend =>
    rcases rxEnd_seq b _ t hend with hsame | ⟨d, hdr, payload, hn, hseq⟩
    · exact .inl hsame
    · exact .inr (.inr ⟨b, d, hdr, payload, hb, hn, hseq⟩)
  | fwd raw dest t hi hr hm hl hend => exact .inl (fwdEnd_seq { s with result := {} } t hend)
  | send op slid payload rssi now t hi hr hend =>
    exact .inl (sendEnd_seq op slid payload rssi now { s with result := {} } t hend)
  | tick now hi hr => exact .inl (by simp [tickRun])
  | reset hi => exact .inr (.inl ⟨hi, rfl⟩)
  | notRunning | cancelled | noEntry | cancelAll | fwdInert | cfgRefused | cfgFatal | cfgOk =>
    exact .inl rfl

/-- Every instruction keeps the canonical form of SEQ. -/
theorem exec_seqWf (i : Instr) (s t : State) (h : exec i s = .next t) (hs : seqWf s.seq = true) :
    seqWf t.seq = true := by
  rcases exec_seq i s t h with hsame | ⟨-, hnil⟩ | ⟨b, d, hdr, payload, -, hn, hseq⟩
  · rwa [hsame]
  · rw [hnil]
    rfl
  · rw [hseq]
    exact seqAdvance_wf s.seq hdr.slid hdr.pkgNum hs hn.slid_valid

/-! ### The table OUT (R44, R45, R47) -/

/-- OUT as the invariant asks: N_OUT entries, the Sent ones as R47 says. -/
structure OutWf (p : Params) (out : List OutSlot) : Prop where
  length : out.length = p.nOut
  ok : ∀ e, OutSlot.sent e ∈ out → e.Ok p

/-- An entry is freed, or takes a new send. -/
theorem OutWf.set {p : Params} {out : List OutSlot} (h : OutWf p out) (n : Nat) (slot : OutSlot)
    (hslot : ∀ e, slot = .sent e → e.Ok p) : OutWf p (out.set n slot) where
  length := by rw [List.length_set, h.length]
  ok e he := by
    rcases List.mem_or_eq_of_mem_set he with hmem | heq
    · exact h.ok e hmem
    · exact hslot e heq.symm

theorem OutWf.set_free {p : Params} {out : List OutSlot} (h : OutWf p out) (n : Nat) :
    OutWf p (out.set n .free) := h.set n .free (fun _ he => by cases he)

/-- Every entry is treated alike, each so that it stays as R47 says. -/
theorem OutWf.map {p : Params} {out : List OutSlot} (h : OutWf p out) (f : OutSlot → OutSlot)
    (hf : ∀ slot e, (∀ e', slot = .sent e' → e'.Ok p) → f slot = .sent e → e.Ok p) :
    OutWf p (out.map f) where
  length := by rw [List.length_map, h.length]
  ok e he := by
    obtain ⟨slot, hmem, hslot⟩ := List.mem_map.mp he
    exact hf slot e (fun e' he' => h.ok e' (he' ▸ hmem)) hslot

theorem outWf_replicate_free (p : Params) : OutWf p (List.replicate p.nOut .free) where
  length := List.length_replicate
  ok e he := by cases List.eq_of_mem_replicate he

/-- The entry a reliable SEND creates (R240 step 10) is as R47 says: under a legal table the reply op of
a reliable op is in the table. -/
theorem newEntry_ok (p : Params) (d : Descriptor) (op : OpCode) (slid : Slid) (pkg : PkgNum)
    (rssi : Byte) (payload : Bytes) (now : Clock) (hw : p.wf = true) (hd : opLookup p op = some d)
    (hv : validSlid slid = true) (hl : hlen d.headerKind + payload.length ≤ p.maxFrame)
    (hr : d.reliabilityRequired = true) :
    (newEntry p d op slid pkg (encodeKind d.headerKind op slid pkg rssi ++ payload) now).Ok p := by
  rcases reply_of_opLookup p op d hw hd with ⟨-, hunreliable⟩ | ⟨r, dr, hreply, -, hdr, -⟩
  · cases hunreliable.symm.trans hr
  · obtain ⟨hlow, hhigh, -⟩ := opLookup_range p r dr hdr
    have hop (f : Bytes) : (newEntry p d op slid pkg f now).replyOp = r := by simp [newEntry, hreply]
    exact
      { slid_valid := hv
        reply_low := (hop _).symm ▸ hlow
        reply_high := (hop _).symm ▸ hhigh
        retries_le := Nat.zero_le _
        length_le := by
          rw [newEntry, List.length_append, length_encodeKind]
          exact hl
        frame_encodes := ⟨d, rssi, payload, hd, (hop _).symm ▸ hreply, rfl⟩ }

/-- What TICK leaves Sent is as R47 says: a re-sent entry was below RETRY_MAX. -/
theorem tickSlot_ok (p : Params) (now : Clock) (slot : OutSlot) (e : OutEntry)
    (hs : ∀ e', slot = .sent e' → e'.Ok p) (h : tickSlot p now slot = .sent e) : e.Ok p := by
  cases slot with
  | free => cases h
  | sent e' =>
    have hok := hs e' rfl
    by_cases hd : 0 ≤ sdiff32 now e'.deadline
    · by_cases hr : e'.retries < p.retryMax
      · rw [tickSlot_resend p now e' hd hr] at h
        cases h
        exact { hok with retries_le := hr }
      · rw [tickSlot_fail p now e' hd hr] at h
        cases h
    · rw [tickSlot_waiting p now e' hd] at h
      cases h
      exact hok

theorem rxEnd_outWf (b : Bytes) (s t : State) (h : RxEnd b s t) (hs : OutWf s.params s.out) :
    OutWf s.params t.out := by
  cases h with
  | ackMatched hdr code n => exact hs.set_free n
  | plain => simpa using hs
  | raised | turnedAway | unwrapped | ackDropped | ackRelayed => exact hs

theorem fwdEnd_out (s t : State) (h : FwdEnd s t) : t.out = s.out := by
  cases h <;> rfl

theorem sendEnd_outWf (op : OpCode) (slid : Slid) (payload : Bytes) (rssi : Byte) (now : Clock)
    (s t : State) (h : SendEnd op slid payload rssi now s t) (hw : s.params.wf = true)
    (hs : OutWf s.params s.out) : OutWf s.params t.out := by
  cases h with
  | sentReliable d n hd hv hl hr =>
    refine hs.set n _ fun e he => ?_
    cases he
    exact newEntry_ok s.params d op slid _ rssi payload now hw hd hv hl hr
  | raised | refused | sent => exact hs

theorem tickRun_out (now : Clock) (s : State) :
    (tickRun now s).out = s.out.map (tickSlot s.params now) := by
  simp [tickRun]

/-- Every instruction keeps OUT as the invariant asks. -/
theorem exec_outWf (i : Instr) (s t : State) (h : exec i s = .next t) (hw : s.params.wf = true)
    (hs : OutWf s.params s.out) : OutWf s.params t.out := by
  cases exec_ends i s t h with
  | arrival b t hi hb hr hl hend => exact rxEnd_outWf b { s with result := {} } t hend hs
  | send op slid payload rssi now t hi hr hend =>
    exact sendEnd_outWf op slid payload rssi now { s with result := {} } t hend hw hs
  | fwd raw dest t hi hr hm hl hend => exact (fwdEnd_out _ t hend).symm ▸ hs
  | tick now hi hr => exact tickRun_out now _ ▸ hs.map _ (tickSlot_ok s.params now)
  | cancelled n => exact hs.set_free n
  | cancelAll => exact hs.map _ (fun _ _ _ he => by cases he)
  | reset => exact outWf_replicate_free s.params
  | notRunning | noEntry | fwdInert | cfgRefused | cfgFatal | cfgOk => exact hs

/-! ### The invariant -/

/-- Nothing recorded: SEQ and OUT empty, TXSEQ 0. -/
def NothingRecorded (s : State) : Prop :=
  s.seq = [] ∧ (∀ slot ∈ s.out, slot = .free) ∧ s.txSeq = 0

/-- While SLC does not run nothing is recorded, if it was so before: RESET clears everything, CFG_LOAD
records nothing, and the other commands act only in Running (R350, R356). -/
theorem exec_idle_clear (i : Instr) (s t : State) (h : exec i s = .next t)
    (hs : s.run ≠ .running → NothingRecorded s) (ht : t.run ≠ .running) : NothingRecorded t := by
  cases exec_ends i s t h with
  | reset => exact ⟨rfl, fun _ => List.eq_of_mem_replicate, rfl⟩
  | notRunning hr => exact hs hr
  | cfgRefused => exact hs ht
  | cfgFatal r k slid hi hr => exact hs (by simp [hr])
  | cfgOk => exact absurd rfl ht
  | arrival b t hi hb hr hl hend => exact absurd ((rxEnd_setup b _ t hend).run.trans hr) ht
  | send op slid payload rssi now t hi hr hend =>
    exact absurd ((sendEnd_setup op slid payload rssi now _ t hend).run.trans hr) ht
  | fwd raw dest t hi hr hm hl hend => exact absurd ((fwdEnd_setup _ t hend).run.trans hr) ht
  | tick now hi hr => exact absurd ((tickRun_setup now { s with result := {} }).run.trans hr) ht
  | cancelled _ _ _ hr | noEntry _ _ hr | cancelAll _ hr | fwdInert _ _ _ hr => exact absurd hr ht

/-- Every instruction that has a next state keeps the invariant. -/
theorem exec_keeps_inv (i : Instr) (s t : State) (hs : s.Inv) (h : exec i s = .next t) : t.Inv := by
  obtain ⟨hp, -⟩ := exec_constants i s t h
  have hout : OutWf t.params t.out :=
    hp.symm ▸ exec_outWf i s t h hs.params_wf ⟨hs.out_length, hs.out_ok⟩
  exact
    { params_wf := hp.symm ▸ hs.params_wf
      seq_wf := exec_seqWf i s t h hs.seq_wf
      out_length := hout.length
      out_ok := hout.ok
      own_valid := exec_own_valid i s t h hs.own_valid
      idle_clear := exec_idle_clear i s t h hs.idle_clear }

/-- The invariant does not speak of the port. -/
theorem State.Inv.with_port {s : State} (h : s.Inv) (rest : List Bytes) :
    State.Inv { s with port := rest } :=
  { h with }

/-- The configuration after reset is legal, whatever the strapped one is. -/
theorem resetParams_wf : resetParams.wf = true := by
  unfold resetParams
  split
  · assumption
  · decide

/-! ### The statements -/

/-- Settles O53: each part of the invariant is kept by every instruction, so by a step. -/
theorem stepKeepsInvariant : Obligations.StepKeepsInvariant := by
  unfold Obligations.StepKeepsInvariant
  intro s t hs h
  rcases step_next s t h with rfl | ⟨i, rest, hexec⟩
  · exact hs
  · exact exec_keeps_inv i { s with port := rest } t (hs.with_port rest) hexec

/-- Settles O10, by induction on the table. -/
theorem seqReadAfterWrite : Obligations.SeqReadAfterWrite := seqRead_seqWrite

/-- Settles O11, from the lowest admissible index 0. -/
theorem seqTablesExtensional : Obligations.SeqTablesExtensional := fun t u => seq_ext_from t u 0

/-- Settles O55, register by register. -/
theorem writersOfRegisters : Obligations.WritersOfRegisters := by
  unfold Obligations.WritersOfRegisters
  intro i s t h
  exact ⟨(exec_run i s t h).resolve_left, (exec_ownSlid i s t h).resolve_left,
    (exec_txSeq i s t h).resolve_left, exec_constants i s t h⟩

/-- Settles O56: an arrival that changes SEQ passed the sequence check, which writes one entry; what is
neither an arrival nor RESET leaves SEQ. -/
theorem seqEntriesIndependent : Obligations.SeqEntriesIndependent := by
  unfold Obligations.SeqEntriesIndependent
  constructor
  · intro b s t h hne
    rcases receive_next b s t h with ⟨-, -, rfl⟩ | ⟨-, rfl⟩
    · obtain ⟨d, hdr, payload, hn, hseq⟩ := (rxEnd_seq b _ _ (rxRun_ends b _)).resolve_left hne
      have hwrite := (seqAdvance_cases s.seq hdr.slid hdr.pkgNum).resolve_left
        fun hsame => hne (hseq.trans hsame)
      refine ⟨d, hdr, payload, hn.lookup, hn.decoded, hn.slid_valid, hn.plain, ?_, ?_⟩
      · rw [hseq, hwrite, seqRead_seqWrite, if_pos rfl]
      · intro j hj
        rw [hseq, hwrite, seqRead_seqWrite, if_neg hj]
    · exact absurd rfl hne
  · intro i s t h hwire hreset hrx
    rcases exec_seq i s t h with hsame | ⟨hi, -⟩ | ⟨b, -, -, -, hi | hi, -⟩
    · exact hsame
    · exact absurd hi hreset
    · exact absurd hi (hrx b)
    · cases hwire.symm.trans hi

/-- Settles O9: each kind is told apart by an enumeration whose codes differ pairwise. -/
theorem codesTellKindsApart : Obligations.CodesTellKindsApart :=
  ⟨statusCode_inj, fun a => (exists_statusCode_iff _).mp ⟨a, rfl⟩,
    fun n => (exists_statusCode_iff n).mpr, excCode_inj, excCode_range, ackByte_inj, ackByte_le,
    runCode_inj, runCode_ne_three, bridgeModeOfStrap_code, rfl, rfl, rfl, rfl⟩

/-- Settles O54: nothing is recorded after reset, SLC does not run, and the configuration is legal. -/
theorem resetStateMeetsInvariant : Obligations.ResetStateMeetsInvariant where
  params_wf := resetParams_wf
  seq_wf := seqWf_reset
  out_length := (outWf_replicate_free resetParams).length
  out_ok := (outWf_replicate_free resetParams).ok
  own_valid hrun := by cases hrun
  idle_clear _ := ⟨rfl, fun _ => List.eq_of_mem_replicate, rfl⟩

end Sys2Proof.Machine
end

section
/-! PROOFS. The scan of TICK (spec/42_ackengine.md R250 to R252): what it does with one entry in the words
of the claim, its visible events in handle order, its counts and its draws. -/

namespace Sys2Proof.Machine

/-! ### TICK on one Sent entry, as one equation each -/

theorem tickAction_sent (p : Params) (now : Clock) (e : OutEntry) :
    tickAction p now (.sent e) =
      if 0 ≤ (now - e.deadline).toInt then (if e.retries < p.retryMax then .resend else .fail)
      else .keep := rfl

theorem tickSlot_sent (p : Params) (now : Clock) (e : OutEntry) :
    tickSlot p now (.sent e) =
      if 0 ≤ (now - e.deadline).toInt then
        (if e.retries < p.retryMax then
          .sent { e with retries := e.retries + 1, deadline := now + BitVec.ofNat 32 p.ackTimeout }
        else .free)
      else .sent e := by
  split
  · rename_i hd
    split
    · rename_i hr
      exact tickSlot_resend p now e hd hr
    · rename_i hr
      exact tickSlot_fail p now e hd hr
  · rename_i hd
    exact tickSlot_waiting p now e hd

/-- The events of one entry, LOG aside. -/
theorem visible_tickEvents_sent (p : Params) (now : Clock) (h : Nat) (e : OutEntry) :
    visible (tickEvents p now h (.sent e)) =
      if 0 ≤ (now - e.deadline).toInt then
        (if e.retries < p.retryMax then [.tx e.frame] else [.done h .retriesExhausted])
      else [] := by
  split
  · rename_i hd
    split
    · rename_i hr
      rw [tickEvents_resend p now h e hd hr]
      rfl
    · rename_i hr
      rw [tickEvents_fail p now h e hd hr]
      rfl
  · rename_i hd
    rw [tickEvents_waiting p now h e hd]
    rfl

theorem tickAction_sent_eq_resend (p : Params) (now : Clock) (e : OutEntry) :
    tickAction p now (.sent e) = .resend ↔
      0 ≤ (now - e.deadline).toInt ∧ e.retries < p.retryMax := by
  rw [tickAction_sent]
  split
  · split <;> simp [-BitVec.toInt_sub, *]
  · simp [-BitVec.toInt_sub, *]

theorem tickAction_sent_eq_fail (p : Params) (now : Clock) (e : OutEntry) :
    tickAction p now (.sent e) = .fail ↔
      0 ≤ (now - e.deadline).toInt ∧ ¬ e.retries < p.retryMax := by
  rw [tickAction_sent]
  split
  · split <;> simp [-BitVec.toInt_sub, *]
  · simp [-BitVec.toInt_sub, *]

/-! ### The whole scan -/

theorem visible_append (es fs : List Event) : visible (es ++ fs) = visible es ++ visible fs :=
  List.filter_append es fs

/-- The visible events of the scan are those of the entries, each under its own handle, in handle
order. -/
theorem visible_tickScan (p : Params) (now : Clock) (h : Nat) (out : List OutSlot) :
    visible (tickScan p now h out) =
      (out.zipIdx h).flatMap fun x => visible (tickEvents p now x.2 x.1) := by
  induction out generalizing h with
  | nil => rfl
  | cons slot out ih =>
    rw [tickScan, visible_append, ih, List.zipIdx_cons, List.flatMap_cons]

/-- A count is the length of what a check that picks the same entries lets through. -/
theorem tickCount_eq_length_filter (p : Params) (now : Clock) (a : TickAction) (out : List OutSlot)
    (pick : OutSlot → Bool) (h : ∀ slot, pick slot = decide (tickAction p now slot = a)) :
    tickCount p now a out = (out.filter pick).length := by
  rw [tickCount, List.countP_eq_length_filter, funext h]

theorem tickRun_draws (now : Clock) (s : State) :
    (tickRun now s).draws = s.draws + tickCount s.params now .resend s.out := by
  simp [tickRun, emitAll_draws, tickScan_countP_isTx]

/-- RESULT after TICK: one bit is drawn for each re-send, and `io_err` tells of a false one. -/
theorem tickRun_result (now : Clock) (s : State) :
    (tickRun now s).result =
      { status := .ticked, nResent := tickCount s.params now .resend s.out,
        nFailed := tickCount s.params now .fail s.out,
        ioErr := s.result.ioErr ||
          (List.range (tickCount s.params now .resend s.out)).any
            fun k => !Config.ioOk (s.draws + k) } := by
  simp [tickRun, emitAll_result, tickScan_countP_isTx]

/-! ### The statement -/

/-- Settles O43: TICK is the scan, entry by entry; the counts are those of the two actions, and RESULT,
cleared at the start, tells of the bits drawn by this command alone. -/
theorem tickScansAscending : Obligations.TickScansAscending := by
  unfold Obligations.TickScansAscending
  intro s now hr
  refine ⟨_, tickCount s.params now .resend s.out, tickCount s.params now .fail s.out,
    execTick_running now s hr, ?out, ?events, ?resent, ?failed, ?result, ?draws, ?registers⟩
  case out =>
    rw [tickRun_out]
    refine List.map_congr_left fun slot _ => ?_
    cases slot with
    | free => rfl
    | sent e => exact tickSlot_sent s.params now e
  case events =>
    rw [tickRun_events, visible_append, visible_tickScan]
    refine congrArg _ (List.flatMap_congr fun x _ => ?_)
    obtain ⟨slot, h⟩ := x
    cases slot with
    | free => rfl
    | sent e => exact visible_tickEvents_sent s.params now h e
  case resent =>
    refine tickCount_eq_length_filter s.params now .resend s.out _ fun slot => ?_
    cases slot with
    | free => rfl
    | sent e => exact decide_eq_decide.mpr (tickAction_sent_eq_resend s.params now e).symm
  case failed =>
    refine tickCount_eq_length_filter s.params now .fail s.out _ fun slot => ?_
    cases slot with
    | free => rfl
    | sent e => exact decide_eq_decide.mpr (tickAction_sent_eq_fail s.params now e).symm
  case result => exact tickRun_result now { s with result := {} }
  case draws => exact tickRun_draws now { s with result := {} }
  case registers => simp [tickRun]

end Sys2Proof.Machine
end

section
/-! PROOFS. The statements on the memory spaces (spec/20_memory.md): the numbering of the valid SLIDs, which
indexes SEQ, and the events of one arrival on leg L. -/

namespace Sys2Proof.Machine

/-! ### The numbering of the valid SLIDs (R75, R140, R141) -/

theorem seqIndex_inj (s s' : Slid) (hs : validSlid s = true) (hs' : validSlid s' = true)
    (h : seqIndex s = seqIndex s') : s = s' := by
  obtain ⟨hlow, -⟩ := (validSlid_iff s).mp hs
  obtain ⟨hlow', -⟩ := (validSlid_iff s').mp hs'
  apply BitVec.eq_of_toNat_eq
  unfold seqIndex at h
  omega

/-- The SLID that index `n` numbers: the first valid one is 0x100. -/
def slidOfIndex (n : Nat) : Slid := BitVec.ofNat 32 (0x100 + n)

theorem slidOfIndex_toNat (n : Nat) (hn : n < 4096) : (slidOfIndex n).toNat = 0x100 + n := by
  rw [slidOfIndex, BitVec.toNat_ofNat, Nat.mod_eq_of_lt (by omega)]

theorem validSlid_slidOfIndex (n : Nat) (hn : n < 4096) : validSlid (slidOfIndex n) = true := by
  rw [validSlid_iff, slidOfIndex_toNat n hn]
  omega

theorem seqIndex_slidOfIndex (n : Nat) (hn : n < 4096) : seqIndex (slidOfIndex n) = n := by
  have := slidOfIndex_toNat n hn
  unfold seqIndex
  omega

/-! ### The events of one arrival, LOG aside (R82, R210) -/

/-- The two events by which an arrived frame goes on: DELIVER, or BRIDGE_OUT at a relay. -/
def Event.IsHandover (e : Event) : Prop :=
  (∃ p, e = .deliver p) ∨ ∃ raw dest, e = .bridgeOut raw dest

/-- The events of one arrival as R210 has them: a reply and a hand-over, at most one of each and in this
order; or the DONE of the send that an ack closes. -/
def ArrivalShape (es : List Event) : Prop :=
  (∃ reply last, visible es = reply ++ last ∧ reply.length ≤ 1 ∧ last.length ≤ 1 ∧
      (∀ e ∈ reply, ∃ f, e = .tx f) ∧ ∀ e ∈ last, e.IsHandover) ∨
    ∃ h code, visible es = [.done h (.ackReceived code)]

/-- A list of TX events holds no LOG. -/
theorem visible_of_tx (reply : List Event) (h : ∀ e ∈ reply, ∃ f, e = .tx f) :
    visible reply = reply := by
  refine List.filter_eq_self.mpr fun e he => ?_
  obtain ⟨f, rfl⟩ := h e he
  rfl

theorem arrivalShape_append (reply last : List Event) (hr : reply.length ≤ 1)
    (htx : ∀ e ∈ reply, ∃ f, e = .tx f) (hl : (visible last).length ≤ 1)
    (hover : ∀ e ∈ visible last, e.IsHandover) : ArrivalShape (reply ++ last) :=
  .inl ⟨reply, visible last, by rw [visible_append, visible_of_tx reply htx], hr, hl, htx, hover⟩

theorem arrivalShape_nil : ArrivalShape [] :=
  .inl ⟨[], [], rfl, by simp, by simp, by simp, by simp⟩

/-- LOG is left out, so this is the shape of no event at all. -/
theorem arrivalShape_log (level : LogLevel) (k : ExcKind) : ArrivalShape [.log level k] :=
  arrivalShape_nil

theorem arrivalShape_bridgeOut (raw : Bytes) (dest : Slid) : ArrivalShape [.bridgeOut raw dest] :=
  .inl ⟨[], [.bridgeOut raw dest], rfl, by simp, by simp, by simp, by simp [Event.IsHandover]⟩

theorem arrivalShape_done (h : Nat) (code : Byte) : ArrivalShape [.done h (.ackReceived code)] :=
  .inr ⟨h, code, rfl⟩

/-- Behind its reply, an arrival of class App or Admin hands on at most once. -/
theorem plainEnd_handover (s : State) (d : Descriptor) (hdr : Header) (payload b : Bytes)
    (code : AckCode) (last : List Event) (status : Status)
    (h : PlainEnd s d hdr payload b code last status) :
    (visible last).length ≤ 1 ∧ ∀ e ∈ visible last, e.IsHandover := by
  cases h with
  | dropped _ _ hl => simp [hl, visible, Event.isLog]
  | relayed raw dest _ _ hl => simp [hl, visible, Event.isLog, Event.IsHandover]
  | delivered _ _ hl => simp [hl, visible, Event.isLog, Event.IsHandover]
  | recognized _ _ hl => simp [hl, visible]

/-- Every end of RX appends events of this shape: replies are made for class App and Admin alone. -/
theorem rxEnd_shape (b : Bytes) (s t : State) (h : RxEnd b s t) :
    ∃ more, t.events = s.events ++ more ∧ ArrivalShape more := by
  cases h with
  | raised k info => exact ⟨_, rfl, arrivalShape_log _ _⟩
  | turnedAway => exact ⟨[], (List.append_nil _).symm, arrivalShape_nil⟩
  | unwrapped => exact ⟨_, rfl, arrivalShape_bridgeOut _ _⟩
  | ackDropped info k => exact ⟨_, rfl, arrivalShape_log _ _⟩
  | ackMatched hdr code n => exact ⟨_, rfl, arrivalShape_done n code⟩
  | ackRelayed d hdr payload raw dest => exact ⟨_, rfl, arrivalShape_bridgeOut raw dest⟩
  | plain d hdr payload reply last code status hd hc hk hv hf hcode hend hl htx =>
    obtain ⟨hlast, hover⟩ := plainEnd_handover s d hdr payload b code last status hend
    exact ⟨reply ++ last, by simp, arrivalShape_append reply last hl htx hlast hover⟩

/-! ### The statements -/

/-- Settles O6: the index of a valid SLID is its distance from 0x100, and `slidOfIndex` undoes it. -/
theorem validSlidsAreIndexed : Obligations.ValidSlidsAreIndexed := by
  unfold Obligations.ValidSlidsAreIndexed
  refine ⟨validSlid_iff, fun s hs => ⟨rfl, seqIndex_lt s hs⟩, fun n hn => ?_⟩
  refine ⟨slidOfIndex n, validSlid_slidOfIndex n hn, seqIndex_slidOfIndex n hn, fun s' hs' hi => ?_⟩
  exact seqIndex_inj s' (slidOfIndex n) hs' (validSlid_slidOfIndex n hn)
    (hi.trans (seqIndex_slidOfIndex n hn).symm)

/-- Settles O21: outside Running an arrival emits nothing, and each end of RX has the shape. -/
theorem arrivalEventShape : Obligations.ArrivalEventShape := by
  unfold Obligations.ArrivalEventShape
  intro b s t h
  rcases receive_next b s t h with ⟨-, -, rfl⟩ | ⟨-, rfl⟩
  · exact rxEnd_shape b { s with result := {} } _ (rxRun_ends b _)
  · exact ⟨[], (List.append_nil _).symm, arrivalShape_nil⟩

end Sys2Proof.Machine
end

section
/-! PROOFS. The statements on the encodings (spec/30_encoding.md): the header codec in both directions, the
decoder of the port against its encoder, and the wire ops as arrivals of their frames. -/

namespace Sys2Proof.Machine

/-! ### The header codec, from the frame's side (R123, R145, R146) -/

/-- DEC_DATA refuses exactly the frames shorter than a DataHeader. -/
theorem decData_eq_none (b : Bytes) : decData b = none ↔ b.length < 8 := by
  simpa [decodeKind, hlen] using decodeKind_eq_none .data b

/-- DEC_CTRL refuses exactly the frames shorter than a ControlHeader. -/
theorem decCtrl_eq_none (b : Bytes) : decCtrl b = none ↔ b.length < 7 := by
  simpa [decodeKind, hlen] using decodeKind_eq_none .control b

theorem length_encData (h : DataHeader) : (encData h).length = 8 := rfl

theorem length_encCtrl (h : CtrlHeader) : (encCtrl h).length = 7 := rfl

/-- A frame long enough for a DataHeader holds one, and its first 8 bytes are that header's encoding. -/
theorem encData_decData_of_length (b : Bytes) (hb : 8 ≤ b.length) :
    ∃ h p, decData b = some (h, p) ∧ encData h = b.take 8 := by
  have hsome : decData b ≠ none := fun hnone => absurd ((decData_eq_none b).mp hnone) (by omega)
  obtain ⟨⟨h, p⟩, hd⟩ := Option.ne_none_iff_exists'.mp hsome
  refine ⟨h, p, hd, ?_⟩
  rw [eq_of_decData b h p hd, List.take_left' (length_encData h)]

/-- A frame long enough for a ControlHeader holds one, and its first 7 bytes are that header's
encoding. -/
theorem encCtrl_decCtrl_of_length (b : Bytes) (hb : 7 ≤ b.length) :
    ∃ h p, decCtrl b = some (h, p) ∧ encCtrl h = b.take 7 := by
  have hsome : decCtrl b ≠ none := fun hnone => absurd ((decCtrl_eq_none b).mp hnone) (by omega)
  obtain ⟨⟨h, p⟩, hd⟩ := Option.ne_none_iff_exists'.mp hsome
  refine ⟨h, p, hd, ?_⟩
  rw [eq_of_decCtrl b h p hd, List.take_left' (length_encCtrl h)]

/-! ### Messages that are frames (R101, R102, R113) -/

/-- Past the command codes (R120) a message is a frame. -/
theorem decode_frame (op : OpCode) (rest : Bytes) (hop : 8 ≤ op.toNat) :
    decode (op :: rest) = decodeFrame op (op :: rest) := by
  have hne : ∀ c : Byte, c.toNat < 8 → op ≠ c := by
    rintro c hc rfl
    omega
  simp only [decode, hne 0 (by decide), hne 1 (by decide), hne 2 (by decide), hne 3 (by decide),
    hne 4 (by decide), hne 5 (by decide), hne 6 (by decide), hne 7 (by decide), if_false]

/-- A control-kind frame decodes to the wire op that the row of its op makes of it. -/
theorem decode_ctrlFrame (mk : Slid → PkgNum → Bytes → Instr) (op : OpCode) (slid : Slid)
    (pkg : PkgNum) (rest : Bytes) (hop : 8 ≤ op.toNat)
    (hrow : ∀ b, decodeFrame op b = wireCtrl mk op b) :
    decode (ctrlFrame op slid pkg rest) = .ok (mk slid pkg rest) := by
  rw [ctrlFrame_cons, decode_frame op _ hop, ← ctrlFrame_cons, hrow, wireCtrl, decCtrl_ctrlFrame]

/-- A data-kind frame decodes to the wire op that the row of its op makes of it. -/
theorem decode_dataFrame (mk : Slid → PkgNum → Byte → Bytes → Instr) (op : OpCode) (slid : Slid)
    (pkg : PkgNum) (rssi : Byte) (rest : Bytes) (hop : 8 ≤ op.toNat)
    (hrow : ∀ b, decodeFrame op b = wireData mk op b) :
    decode (dataFrame op slid pkg rssi rest) = .ok (mk slid pkg rssi rest) := by
  rw [dataFrame_cons, decode_frame op _ hop, ← dataFrame_cons, hrow, wireData, decData_dataFrame]

/-! ### Messages that are commands, in the model's layout (log entry 6) -/

/-- The bound of `leNatUpTo` is never reached: the digits of `n` are at most `n` in number. -/
theorem fromLeNat_leNatUpTo (k n : Nat) (hn : n ≤ k) : fromLeNat (leNatUpTo k n) = n := by
  induction k generalizing n with
  | zero => simp [leNatUpTo, fromLeNat, Nat.le_zero.mp hn]
  | succ k ih =>
    by_cases h0 : n = 0
    · simp [leNatUpTo, fromLeNat, h0]
    · rw [leNatUpTo, if_neg h0, fromLeNat, ih (n / 256) (by omega), BitVec.toNat_ofNat]
      omega

theorem fromLeNat_leNat (n : Nat) : fromLeNat (leNat n) = n := fromLeNat_leNatUpTo n n le_rfl

/-! Both sides below unfold to one command, but that the decoder read its numbers back from their bytes. -/

theorem decode_cancel (h : Nat) : decode (encode (.cancel h)) = .ok (.cancel h) :=
  congrArg (fun n => Except.ok (Instr.cancel n)) (fromLeNat_leNat h)

theorem decode_tick (now : Clock) : decode (encode (.tick now)) = .ok (.tick now) :=
  congrArg (fun n => Except.ok (Instr.tick n)) (fromLe32_le32 now)

theorem decode_fwd (raw : Bytes) (dest : Slid) :
    decode (encode (.fwd raw dest)) = .ok (.fwd raw dest) :=
  congrArg (fun d => Except.ok (Instr.fwd raw d)) (fromLe32_le32 dest)

theorem decode_send (op : OpCode) (slid : Slid) (payload : Bytes) (rssi : Byte) (now : Clock) :
    decode (encode (.send op slid payload rssi now)) = .ok (.send op slid payload rssi now) :=
  congrArg₂ (fun d n => Except.ok (Instr.send op d payload rssi n))
    (fromLe32_le32 slid) (fromLe32_le32 now)

theorem decode_cfgLoad (record : Option Bytes) :
    decode (encode (.cfgLoad record)) = .ok (.cfgLoad record) := by
  cases record <;> rfl

/-! ### The statements -/

/-- Settles O1: a frame decodes by its header codec, its op naming the row; a command by its code, its
numbers by the byte-order laws. -/
theorem decodeInvertsEncode : Obligations.DecodeInvertsEncode := by
  unfold Obligations.DecodeInvertsEncode
  intro i
  cases i with
  | wireDN | wireBN | wireX34 | wireX36 | wireSC | wireX3A | wireAS | wireAN =>
    exact decode_ctrlFrame _ _ _ _ _ (by decide) fun _ => rfl
  | wireDS | wireBS | wireX35 | wireX37 | wireOF | wireX3B | wireX3D | wireX3F =>
    exact decode_dataFrame _ _ _ _ _ _ (by decide) fun _ => rfl
  | cfgLoad record => exact decode_cfgLoad record
  | send op slid payload rssi now => exact decode_send op slid payload rssi now
  | tick now => exact decode_tick now
  | cancel h => exact decode_cancel h
  | fwd raw dest => exact decode_fwd raw dest
  | reset | rx | cancelAll => rfl

/-- Settles O2: decoding an encoding by the laws of the codec, and back by the length of the frame. -/
theorem headerCodecRoundTrip : Obligations.HeaderCodecRoundTrip :=
  ⟨fun h p => decData_dataFrame h.op h.slid h.pkgNum h.rssi p,
    fun h p => decCtrl_ctrlFrame h.op h.slid h.pkgNum p,
    encData_decData_of_length, encCtrl_decCtrl_of_length⟩

/-- The bytes that encode an instruction decode to it. -/
theorem decode_of_encode_eq {m : Bytes} {i : Instr} (h : encode i = m) : decode m = .ok i :=
  h ▸ decodeInvertsEncode i

/-- Settles O4: each sample is the message that its instruction encodes to. -/
theorem sampleWordsDecode : Obligations.SampleWordsDecode :=
  ⟨decode_of_encode_eq (by decide), decode_of_encode_eq (by decide), decode_of_encode_eq (by decide),
    decode_of_encode_eq (by decide), decode_of_encode_eq (by decide), decode_of_encode_eq (by decide),
    decode_of_encode_eq (by decide), decode_of_encode_eq (by decide)⟩

/-- Settles O17: either command receives the frame of the wire op. -/
theorem wireOpIsRxOfItsFrame : Obligations.WireOpIsRxOfItsFrame := by
  unfold Obligations.WireOpIsRxOfItsFrame
  intro i s hwire
  calc exec i s = receive (encode i) s := by rw [exec_wireArrival i hwire]
    _ = exec (.rx (encode i)) s := rfl

end Sys2Proof.Machine
end

section
/-! PROOFS. The statements on the addresses and header fields (spec/40_addr_codec.md). -/

namespace Sys2Proof.Machine

/-- DEC_DATA of a frame with its header bytes written out (R145). -/
theorem decData_cons (op s0 s1 s2 s3 p0 p1 rssi : Byte) (payload : Bytes) :
    decData (op :: s0 :: s1 :: s2 :: s3 :: p0 :: p1 :: rssi :: payload) =
      some (⟨op, fromLe32 s0 s1 s2 s3, fromLe16 p0 p1, rssi⟩, payload) := rfl

/-- DEC_CTRL of a frame with its header bytes written out (R146). -/
theorem decCtrl_cons (op s0 s1 s2 s3 p0 p1 : Byte) (payload : Bytes) :
    decCtrl (op :: s0 :: s1 :: s2 :: s3 :: p0 :: p1 :: payload) =
      some (⟨op, fromLe32 s0 s1 s2 s3, fromLe16 p0 p1⟩, payload) := rfl

/-- Settles O3: the fields of a frame written out are the little-endian values of their bytes, and each
decoder refuses exactly the frames shorter than its header. -/
theorem headerFieldOffsets : Obligations.HeaderFieldOffsets := by
  unfold Obligations.HeaderFieldOffsets
  refine ⟨?data, ?control, decData_eq_none, decCtrl_eq_none⟩
  case data =>
    intro b0 b1 b2 b3 b4 b5 b6 b7 p
    exact ⟨_, decData_cons b0 b1 b2 b3 b4 b5 b6 b7 p, rfl, toNat_fromLe32 b1 b2 b3 b4,
      toNat_fromLe16 b5 b6, rfl⟩
  case control =>
    intro b0 b1 b2 b3 b4 b5 b6 p
    exact ⟨_, decCtrl_cons b0 b1 b2 b3 b4 b5 b6 p, rfl, toNat_fromLe32 b1 b2 b3 b4,
      toNat_fromLe16 b5 b6⟩

end Sys2Proof.Machine
end

section
/-! PROOFS. The statements on the op-code table and the wire ops (spec/41_optab_wireops.md): the rows of the
default table, then what each arrival leaves, by the class of its op. -/

namespace Sys2Proof.Machine

/-! ### The state an arrival leaves -/

/-- The state that an arrival leaves at `s`: SEQ is `q`, the reply frame, where there is one, was sent and
drew its bit `io_ok`, the events `last` followed it, and RESULT is `r` (R210, R211). -/
def afterArrival (s : State) (q : SeqTable) (reply : Option Bytes) (last : List Event) (r : Result) :
    State :=
  { s with
    seq := q
    draws := s.draws + reply.toList.length
    events := s.events ++ (reply.toList.map .tx ++ last)
    result := { r with ioErr := reply.isSome && !Config.ioOk s.draws } }

/-- An arrival that neither replies nor emits writes SEQ and RESULT alone. -/
theorem afterArrival_silent (s : State) (q : SeqTable) (r : Result) :
    afterArrival s q none [] r = { s with seq := q, result := { r with ioErr := false } } := by
  simp [afterArrival]

theorem emitAll_of_no_tx (es : List Event) (s : State) (h : ∀ e ∈ es, e.isTx = false) :
    emitAll es s = { s with events := s.events ++ es } := by
  induction es generalizing s with
  | nil => simp [emitAll]
  | cons e es ih =>
    obtain ⟨he, hes⟩ := List.forall_mem_cons.mp h
    simp [emitAll, ih _ hes, emit, he]

/-- `afterArrival` in terms of the operations of the pipeline: the reply, then the last events, then
RESULT. -/
theorem setResult_emitAll_reply (s : State) (q : SeqTable) (reply : Option Bytes)
    (last : List Event) (r : Result) (h : ∀ e ∈ last, e.isTx = false) :
    setResult r (emitAll last (emitAll (reply.toList.map .tx) { s with result := {}, seq := q })) =
      afterArrival s q reply last r := by
  rw [emitAll_of_no_tx last _ h]
  cases reply <;> simp [afterArrival, setResult, emitAll, emit, Event.isTx]

/-- A frame that is dropped with a LOG leaves, LOG aside, the reply and RESULT. -/
theorem nextButLog_dropped (o : Host.Outcome State Fault Refusal) (s : State) (q : SeqTable)
    (reply : Option Bytes) (k : ExcKind) (r : Result)
    (h : o = .next (setResult r (logSoft k
      (emitAll (reply.toList.map .tx) { s with result := {}, seq := q })))) :
    NextButLog o (afterArrival s q reply [] r) := by
  refine ⟨[.log (logLevel k) k], by simp [Event.isLog], h.trans (congrArg _ ?_)⟩
  calc setResult r (logSoft k (emitAll (reply.toList.map .tx) { s with result := {}, seq := q }))
      = afterArrival s q reply [.log (logLevel k) k] r :=
        setResult_emitAll_reply s q reply [.log (logLevel k) k] r (by simp [Event.isTx])
    _ = _ := by simp [afterArrival]

/-! ### Frames of class App and Admin -/

/-- The instruction is, at `s`, the arrival of the plain frame `b`, with this descriptor, header and
payload, behind the header checks; its answer to an AckCode is `reply`. -/
structure PlainArrival (i : Instr) (s : State) (d : Descriptor) (hdr : Header) (payload b : Bytes)
    (reply : AckCode → Option Bytes) : Prop where
  exec_eq : exec i s = .next (rxPlain d hdr payload b { s with result := {} })
  replies : RepliesAre s d hdr fun code => (reply code).toList.map .tx

/-- The frame passes the three checks of R220, R222 and R223. -/
structure Accepted (s : State) (d : Descriptor) (hdr : Header) (payload : Bytes) : Prop where
  new : IsNew s hdr.slid hdr.pkgNum
  size : sizeWrong d payload = false
  version : versionWrong s.params d payload = false

theorem accepted_of_unchecked {s : State} {d : Descriptor} {hdr : Header} {payload : Bytes}
    (hn : IsNew s hdr.slid hdr.pkgNum) (he : d.explen = none) (hv : d.vercheck = false) :
    Accepted s d hdr payload :=
  ⟨hn, by simp [sizeWrong, he], by simp [versionWrong, hv]⟩

theorem accepted_of_checks {s : State} {d : Descriptor} {hdr : Header} {payload : Bytes}
    (hn : IsNew s hdr.slid hdr.pkgNum) (hsz : ∀ n, d.explen = some n → payload.length = n)
    (hver : d.vercheck = true → payload.head? = some s.params.nodeConfigVersion) :
    Accepted s d hdr payload where
  new := hn
  size := by
    cases he : d.explen with
    | none => simp [sizeWrong, he]
    | some n => simp [sizeWrong, he, hsz n he]
  version := by
    cases hc : d.vercheck with
    | false => simp [versionWrong, hc]
    | true => simp [versionWrong, hc, hver hc]

theorem rxDispatch_plain (d : Descriptor) (hdr : Header) (payload b : Bytes) (s : State)
    (hc : d.opClass = .app ∨ d.opClass = .admin) :
    rxDispatch d hdr payload b s = rxPlain d hdr payload b s := by
  rcases hc with hc | hc <;> simp only [rxDispatch, hc]

namespace PlainEnd

variable {s : State} {d : Descriptor} {hdr : Header} {payload b : Bytes} {last : List Event}
  {status : Status}

theorem of_app (h : PlainEnd s d hdr payload b .success last status)
    (hr : route s.params d = .localLeg) (hc : d.opClass = .app) :
    last = [.deliver payload] ∧ status = .rxDelivered := by
  cases h with
  | delivered _ hs hl => exact ⟨hl, hs⟩
  | dropped hne => exact absurd rfl hne
  | relayed _ _ _ _ _ hr' => simp [hr] at hr'
  | recognized _ _ _ _ hc' => exact absurd hc hc'

theorem of_admin (h : PlainEnd s d hdr payload b .success last status)
    (hr : route s.params d = .localLeg) (hc : d.opClass = .admin) :
    last = [] ∧ status = .rxRecognized := by
  cases h with
  | recognized _ hs hl => exact ⟨hl, hs⟩
  | dropped hne => exact absurd rfl hne
  | relayed _ _ _ _ _ hr' => simp [hr] at hr'
  | delivered _ _ _ _ hc' => simp [hc] at hc'

theorem of_relay (h : PlainEnd s d hdr payload b .success last status)
    (hr : route s.params d = .relay) :
    ∃ raw dest, relayOutput s.params s.ownSlid d hdr b = some (raw, dest) ∧
      last = [.bridgeOut raw dest] ∧ status = .rxRelayed := by
  cases h with
  | relayed raw dest _ hs hl _ ho => exact ⟨raw, dest, ho, hl, hs⟩
  | dropped hne => exact absurd rfl hne
  | delivered _ _ _ hr' => simp [hr] at hr'
  | recognized _ _ _ hr' => simp [hr] at hr'

end PlainEnd

namespace PlainArrival

variable {i : Instr} {s : State} {d : Descriptor} {hdr : Header} {payload b : Bytes}
  {reply : AckCode → Option Bytes}

/-- R228: a duplicate is answered and dropped, and SEQ stays. -/
theorem duplicate (h : PlainArrival i s d hdr payload b reply) (hf : Feasible s d b)
    (hn : ¬ IsNew s hdr.slid hdr.pkgNum) :
    NextButLog (exec i s) (afterArrival s s.seq (reply .duplicate) []
      { headerInfo hdr with ack := some .duplicate, status := .rxDuplicate }) := by
  apply nextButLog_dropped _ _ _ _ .ackDuplicate
  rw [h.exec_eq, rxPlain_duplicate s d hdr payload b _ h.replies hf hn]

/-- R222 to R224: a new frame that fails a check is answered and dropped, and SEQ advances. -/
theorem rejected (h : PlainArrival i s d hdr payload b reply) (hf : Feasible s d b)
    (hn : IsNew s hdr.slid hdr.pkgNum) (code : AckCode) (hne : code ≠ .success)
    (hc : (if sizeWrong d payload then AckCode.sizeErr
      else if versionWrong s.params d payload then .versionErr else .success) = code) :
    NextButLog (exec i s)
      (afterArrival s (seqWrite s.seq (seqIndex hdr.slid) hdr.pkgNum) (reply code) []
        { headerInfo hdr with ack := some code, status := softStatus code }) := by
  apply nextButLog_dropped _ _ _ _ (softKind code)
  rw [h.exec_eq, rxPlain_rejected s d hdr payload b _ h.replies hf hn code hne hc]
  rfl

/-- R174: an accepted App frame that is handled here is delivered. -/
theorem delivered (h : PlainArrival i s d hdr payload b reply) (ha : Accepted s d hdr payload)
    (hr : route s.params d = .localLeg) (hc : d.opClass = .app) :
    exec i s = .next (afterArrival s (seqWrite s.seq (seqIndex hdr.slid) hdr.pkgNum)
      (reply .success) [.deliver payload]
      { headerInfo hdr with ack := some .success, status := .rxDelivered }) := by
  rw [h.exec_eq, rxPlain_delivered s d hdr payload b _ h.replies ha.new hr ha.size ha.version hc,
    ← setResult_emitAll_reply _ _ _ _ _ (by simp [Event.isTx])]
  rfl

/-- R176: an accepted Admin frame that is handled here is recognized. -/
theorem recognized (h : PlainArrival i s d hdr payload b reply) (ha : Accepted s d hdr payload)
    (hr : route s.params d = .localLeg) (hc : d.opClass ≠ .app) :
    exec i s = .next (afterArrival s (seqWrite s.seq (seqIndex hdr.slid) hdr.pkgNum)
      (reply .success) []
      { headerInfo hdr with ack := some .success, status := .rxRecognized }) := by
  rw [h.exec_eq, rxPlain_recognized s d hdr payload b _ h.replies ha.new hr ha.size ha.version hc,
    ← setResult_emitAll_reply _ _ _ _ _ (by simp)]
  rfl

/-- R273, R274: an accepted frame on the relay route is handed over. -/
theorem relayed (h : PlainArrival i s d hdr payload b reply) (ha : Accepted s d hdr payload)
    (hr : route s.params d = .relay) (hc : relayCheck s.params b.length = none) {raw : Bytes}
    {dest : Slid} (ho : relayOutput s.params s.ownSlid d hdr b = some (raw, dest)) :
    exec i s = .next (afterArrival s (seqWrite s.seq (seqIndex hdr.slid) hdr.pkgNum)
      (reply .success) [.bridgeOut raw dest]
      { headerInfo hdr with ack := some .success, status := .rxRelayed }) := by
  rw [h.exec_eq, rxPlain_relayed s d hdr payload b raw dest _ h.replies ha.new hr ha.size ha.version
    hc ho, ← setResult_emitAll_reply _ _ _ _ _ (by simp [Event.isTx])]
  rfl

/-- Every way an accepted frame that can be taken ends. -/
theorem accepted (h : PlainArrival i s d hdr payload b reply) (ha : Accepted s d hdr payload)
    (hf : route s.params d = .localLeg ∨ relayCheck s.params b.length = none) :
    ∃ last status, PlainEnd s d hdr payload b .success last status ∧
      exec i s = .next (afterArrival s (seqWrite s.seq (seqIndex hdr.slid) hdr.pkgNum)
        (reply .success) last { headerInfo hdr with ack := some .success, status := status }) := by
  cases hr : route s.params d with
  | relay =>
    have ho := relayOutput_relay s.params s.ownSlid d hdr b hr
    exact ⟨_, _, .relayed _ _ rfl rfl rfl hr ho, h.relayed ha hr (hf.resolve_left (by simp [hr])) ho⟩
  | localLeg =>
    by_cases hc : d.opClass = .app
    · exact ⟨_, _, .delivered rfl rfl rfl hr hc, h.delivered ha hr hc⟩
    · exact ⟨_, _, .recognized rfl rfl rfl hr hc, h.recognized ha hr hc⟩

/-- R274 under the default table. -/
theorem relayed_storeside (h : PlainArrival i s d hdr payload b reply)
    (ha : Accepted s d hdr payload) (ht : s.params.optab = defaultOptab)
    (hdir : d.direction = .storeToNode) (hm : s.params.bridgeMode = .storeside)
    (hl : b.length + 11 ≤ s.params.maxFrame) :
    exec i s = .next (afterArrival s (seqWrite s.seq (seqIndex hdr.slid) hdr.pkgNum)
      (reply .success)
      [.bridgeOut ([0x32] ++ le32 s.ownSlid ++ le16 hdr.pkgNum ++ b) hdr.slid]
      { headerInfo hdr with ack := some .success, status := .rxRelayed }) :=
  h.relayed ha ((route_relay_iff _ _).mpr (.inr ⟨hm, hdir⟩)) (relayCheck_storeside _ _ hm hl)
    (relayOutput_storeside _ _ _ _ _ ht hm)

/-- R273 under the default table. -/
theorem relayed_nodeside (h : PlainArrival i s d hdr payload b reply)
    (ha : Accepted s d hdr payload) (ht : s.params.optab = defaultOptab)
    (hdir : d.direction = .nodeToStore) (hm : s.params.bridgeMode = .nodeside)
    (hv : validSlid s.params.storeSlid = true) (hl : b.length + 12 ≤ s.params.maxFrame) :
    exec i s = .next (afterArrival s (seqWrite s.seq (seqIndex hdr.slid) hdr.pkgNum)
      (reply .success)
      [.bridgeOut ([0x33] ++ le32 s.ownSlid ++ le16 hdr.pkgNum ++
        [if d.headerKind = .data then hdr.rssi else 0] ++ b) s.params.storeSlid]
      { headerInfo hdr with ack := some .success, status := .rxRelayed }) :=
  h.relayed ha ((route_relay_iff _ _).mpr (.inl ⟨hm, hdir⟩)) (relayCheck_nodeside _ _ hm hv hl)
    (relayOutput_nodeside _ _ _ _ _ ht hm)

end PlainArrival

/-! #### Which instructions are arrivals of plain frames -/

section
variable {i : Instr} {op : OpCode} {slid : Slid} {pkg : PkgNum} {rssi : Byte} {payload : Bytes}
  {s : State} {d : Descriptor} {reply : AckCode → Option Bytes}

/-- A control-kind frame of a plain row of the default table. -/
theorem plainArrival_ctrl (hi : exec i = receive (ctrlFrame op slid pkg payload))
    (hr : s.run = .running) (ht : s.params.optab = defaultOptab)
    (hl : 7 + payload.length ≤ s.params.maxFrame) (hv : validSlid slid = true)
    (hd : opLookup (vectorParams .unbridged) op = some d) (hk : d.headerKind = .control)
    (hc : d.opClass = .app ∨ d.opClass = .admin)
    (hrep : RepliesAre s d ⟨op, slid, pkg, 0⟩ fun code => (reply code).toList.map .tx) :
    PlainArrival i s d ⟨op, slid, pkg, 0⟩ payload (ctrlFrame op slid pkg payload) reply where
  exec_eq := by
    rw [hi, receive_ctrlFrame s op slid pkg payload d hr hl (opLookup_default _ ht op d hd) hk hv,
      rxDispatch_plain _ _ _ _ _ hc]
  replies := hrep

/-- A data-kind frame of a plain row of the default table. -/
theorem plainArrival_data (hi : exec i = receive (dataFrame op slid pkg rssi payload))
    (hr : s.run = .running) (ht : s.params.optab = defaultOptab)
    (hl : 8 + payload.length ≤ s.params.maxFrame) (hv : validSlid slid = true)
    (hd : opLookup (vectorParams .unbridged) op = some d) (hk : d.headerKind = .data)
    (hc : d.opClass = .app ∨ d.opClass = .admin)
    (hrep : RepliesAre s d ⟨op, slid, pkg, rssi⟩ fun code => (reply code).toList.map .tx) :
    PlainArrival i s d ⟨op, slid, pkg, rssi⟩ payload (dataFrame op slid pkg rssi payload) reply where
  exec_eq := by
    rw [hi, receive_dataFrame s op slid pkg rssi payload d hr hl (opLookup_default _ ht op d hd) hk
      hv, rxDispatch_plain _ _ _ _ _ hc]
  replies := hrep

/-- A reliable op of the default table whose reply op has an ack row is answered by a control frame
with the AckCode behind it (R226). -/
theorem repliesAre_default {hdr : Header} {r : OpCode} {dir : Direction}
    (ht : s.params.optab = defaultOptab) (h : d.reliabilityRequired = true)
    (hr : d.replyOp = some r) (hd : opLookup (vectorParams .unbridged) r = some (ackRow dir)) :
    RepliesAre s d hdr fun code =>
      (some (ctrlFrame r hdr.slid hdr.pkgNum [ackByte code])).toList.map .tx :=
  repliesAre_reliable s d (ackRow dir) hdr r h hr (opLookup_default _ ht r _ hd)

/-- A frame of a row that is not reliable is not answered. -/
theorem repliesAre_none {hdr : Header} (h : d.reliabilityRequired = false) :
    RepliesAre s d hdr fun _ => (none : Option Bytes).toList.map .tx :=
  repliesAre_unreliable s d hdr h

end

/-- Exactly the reliable ops have a reply, whatever the code (R225). -/
theorem exists_reply_of_wf (s : State) (op : OpCode) (d : Descriptor) (hdr : Header)
    (hw : s.params.wf = true) (hd : opLookup s.params op = some d) :
    ∃ reply : AckCode → Option Bytes,
      RepliesAre s d hdr (fun code => (reply code).toList.map .tx) ∧
      ∀ code, (reply code).isSome = d.reliabilityRequired := by
  rcases repliesAre_of_wf s op d hdr hw hd with ⟨hrel, -, hrep⟩ | ⟨r, dr, hrel, -, -, hrep⟩
  · exact ⟨fun _ => none, hrep, fun _ => hrel.symm⟩
  · exact ⟨fun _ => some _, hrep, fun _ => hrel.symm⟩

/-! #### The rows of the default table -/

/-- X34, X36 and X3A: their row, and that each is the arrival of its frame (R184, R186, R190). -/
theorem placeholderCtrl_row :
    ∀ w ∈ ([(Instr.wireX34, 0x34), (Instr.wireX36, 0x36), (Instr.wireX3A, 0x3A)] :
      List ((Slid → PkgNum → Bytes → Instr) × OpCode)),
    opLookup (vectorParams .unbridged) w.2 = some (adminRow .control .storeToNode) ∧
    ∀ slid pkg payload, exec (w.1 slid pkg payload) = receive (ctrlFrame w.2 slid pkg payload) := by
  simp only [List.forall_mem_cons]
  exact ⟨⟨rfl, fun _ _ _ => rfl⟩, ⟨rfl, fun _ _ _ => rfl⟩, ⟨rfl, fun _ _ _ => rfl⟩, by simp⟩

/-- X35, X37, OF, X3B, X3D and X3F, likewise (R185, R187, R189, R191, R193, R195). -/
theorem placeholderData_row :
    ∀ w ∈ ([(Instr.wireX35, 0x35), (Instr.wireX37, 0x37), (Instr.wireOF, 0x39),
      (Instr.wireX3B, 0x3B), (Instr.wireX3D, 0x3D), (Instr.wireX3F, 0x3F)] :
      List ((Slid → PkgNum → Byte → Bytes → Instr) × OpCode)),
    opLookup (vectorParams .unbridged) w.2 = some (adminRow .data .nodeToStore) ∧
    ∀ slid pkg rssi payload,
      exec (w.1 slid pkg rssi payload) = receive (dataFrame w.2 slid pkg rssi payload) := by
  simp only [List.forall_mem_cons]
  exact ⟨⟨rfl, fun _ _ _ _ => rfl⟩, ⟨rfl, fun _ _ _ _ => rfl⟩, ⟨rfl, fun _ _ _ _ => rfl⟩,
    ⟨rfl, fun _ _ _ _ => rfl⟩, ⟨rfl, fun _ _ _ _ => rfl⟩, ⟨rfl, fun _ _ _ _ => rfl⟩, by simp⟩

@[simp] theorem sizeWrong_scRow (payload : Bytes) :
    sizeWrong scRow payload = decide (payload.length ≠ 60) := rfl

@[simp] theorem versionWrong_scRow (p : Params) (payload : Bytes) :
    versionWrong p scRow payload = decide (payload.head? ≠ some p.nodeConfigVersion) := rfl

theorem accepted_scRow {s : State} {hdr : Header} {payload : Bytes}
    (hn : IsNew s hdr.slid hdr.pkgNum) (hsz : payload.length = 60)
    (hver : payload.head? = some s.params.nodeConfigVersion) : Accepted s scRow hdr payload :=
  ⟨hn, by simp [hsz], by simp [hver]⟩

/-! ### Bridge frames (R276) -/

/-- Anything but a node-bound frame at a storeside SLC goes no further than RESULT. -/
theorem brgRx_turnedAway (d : Descriptor) (hdr : Header) (b : Bytes) (s : State)
    (h : s.params.bridgeMode ≠ .storeside ∨ d.direction = .nodeToStore) :
    brgRx d hdr b s = setResult { headerInfo hdr with
      status := if s.params.bridgeMode = .unbridged then .bridgeInert else .bridgeRefused } s := by
  unfold brgRx
  cases hm : s.params.bridgeMode with
  | unbridged | nodeside => rfl
  | storeside =>
    have hdir : d.direction = .nodeToStore := h.resolve_left (absurd hm)
    simp [hdir]

theorem brgRx_consumes (d : Descriptor) (hdr : Header) (b : Bytes) (s : State)
    (hm : s.params.bridgeMode = .storeside) (hdir : d.direction = .storeToNode) :
    brgRx d hdr b s = consumeAndRelay d hdr b s := by
  simp only [brgRx, hm, hdir, if_true]

/-- BN under the default table is BRG_RX of its frame. -/
theorem exec_wireBN (s : State) (slid : Slid) (pkg : PkgNum) (body : Bytes) (hr : s.run = .running)
    (ht : s.params.optab = defaultOptab) (hl : 7 + body.length ≤ s.params.maxFrame)
    (hv : validSlid slid = true) :
    exec (.wireBN slid pkg body) s =
      .next (brgRx (bridgeRow .control .storeToNode) ⟨0x32, slid, pkg, 0⟩
        (ctrlFrame 0x32 slid pkg body) { s with result := {} }) :=
  receive_ctrlFrame s 0x32 slid pkg body _ hr hl (opLookup_default _ ht _ _ rfl) rfl hv

/-! ### Ack frames (R230) -/

/-- The direction of an ack op of the default table: AS answers a node-bound frame, AN a store-bound
one. -/
def ackDirection (op : OpCode) : Direction := if op = 0x3C then .nodeToStore else .storeToNode

/-- AS and AN, likewise (R192, R194). -/
theorem ack_row :
    ∀ w ∈ ([(Instr.wireAS, 0x3C), (Instr.wireAN, 0x3E)] :
      List ((Slid → PkgNum → Bytes → Instr) × OpCode)),
    opLookup (vectorParams .unbridged) w.2 = some (ackRow (ackDirection w.2)) ∧
    ∀ slid pkg payload, exec (w.1 slid pkg payload) = receive (ctrlFrame w.2 slid pkg payload) := by
  simp only [List.forall_mem_cons]
  exact ⟨⟨rfl, fun _ _ _ => rfl⟩, ⟨rfl, fun _ _ _ => rfl⟩, by simp⟩

/-- AS and AN under the default table are ACK_RX of their frame. -/
theorem exec_ack (w : (Slid → PkgNum → Bytes → Instr) × OpCode)
    (hw : w ∈ [(Instr.wireAS, 0x3C), (Instr.wireAN, 0x3E)]) (s : State) (slid : Slid) (pkg : PkgNum)
    (payload : Bytes) (hr : s.run = .running) (ht : s.params.optab = defaultOptab)
    (hl : 7 + payload.length ≤ s.params.maxFrame) (hv : validSlid slid = true) :
    exec (w.1 slid pkg payload) s =
      .next (ackRx (ackRow (ackDirection w.2)) ⟨w.2, slid, pkg, 0⟩ payload
        (ctrlFrame w.2 slid pkg payload) { s with result := {} }) := by
  obtain ⟨hrow, hexec⟩ := ack_row w hw
  rw [hexec slid pkg payload]
  exact receive_ctrlFrame s w.2 slid pkg payload _ hr hl (opLookup_default _ ht _ _ hrow) rfl hv

/-- Away from the relay of its direction an ack is handled here (R232). -/
theorem route_ack_local (p : Params) (op : OpCode)
    (hm : p.bridgeMode ≠ if op = 0x3C then .nodeside else .storeside) :
    route p (ackRow (ackDirection op)) = .localLeg := by
  by_cases hop : op = 0x3C
  · rw [if_pos hop] at hm
    exact route_local_toStore p _ (if_pos hop) hm
  · rw [if_neg hop] at hm
    exact route_local_toNode p _ (if_neg hop) hm

/-- An ack that matches no send, at the relay of its direction, where RELAY_CHECK of its 8 bytes passes
(R232). -/
theorem exec_ack_relayed (w : (Slid → PkgNum → Bytes → Instr) × OpCode)
    (hw : w ∈ [(Instr.wireAS, 0x3C), (Instr.wireAN, 0x3E)]) (s : State) (slid : Slid) (pkg : PkgNum)
    (code : Byte) (raw : Bytes) (dest : Slid) (hr : s.run = .running)
    (ht : s.params.optab = defaultOptab) (hl : 8 ≤ s.params.maxFrame) (hv : validSlid slid = true)
    (hnone : ∀ slot ∈ s.out, ¬ Awaits slot w.2 slid pkg)
    (hroute : route s.params (ackRow (ackDirection w.2)) = .relay)
    (hcheck : relayCheck s.params 8 = none)
    (ho : relayOutput s.params s.ownSlid (ackRow (ackDirection w.2)) ⟨w.2, slid, pkg, 0⟩
      (ctrlFrame w.2 slid pkg [code]) = some (raw, dest)) :
    exec (w.1 slid pkg [code]) s = .next { s with
      events := s.events ++ [.bridgeOut raw dest]
      result := { status := .rxRelayed, op := w.2, slid := slid, pkgNum := pkg } } := by
  rw [exec_ack w hw s slid pkg [code] hr ht hl hv,
    ackRx_relayed _ _ _ _ { s with result := {} } (firstMatch_eq_none _ _ hnone) hroute,
    brgRelay_out _ _ (ctrlFrame w.2 slid pkg [code]) _ { s with result := {} } raw dest hcheck ho]
  rfl

/-! ### The statements -/

/-- Settles O7: the range decides, and inside it every row is there. -/
theorem oplookupExactRange : Obligations.OplookupExactRange := by
  unfold Obligations.OplookupExactRange
  intro p op hw
  refine ⟨⟨fun hnone => ?_, opLookup_out_of_range p op⟩, fun hlo hhi => if_pos ⟨hlo, hhi⟩⟩
  by_contra hin
  obtain ⟨d, hd⟩ := opLookup_isSome p op hw (by omega) (by omega)
  exact absurd (hnone.symm.trans hd) (by simp)

/-- Settles O8: each row is looked up in the table itself. -/
theorem defaultTableRows : Obligations.DefaultTableRows := by
  unfold Obligations.DefaultTableRows
  refine ⟨by decide, fun p ht => ?_⟩
  have row := opLookup_default p ht
  refine ⟨row _ _ rfl, row _ _ rfl, row _ _ rfl, row _ _ rfl, row _ _ rfl, row _ _ rfl, row _ _ rfl,
    fun op hop => row _ _ ?control, fun op hop => row _ _ ?data⟩
  case control => revert op; decide
  case data => revert op; decide

/-- Settles O15: the arrival of a plain frame under a well-formed table; its three ends, by the route and
the class. -/
theorem acceptedFrameByClass : Obligations.AcceptedFrameByClass := by
  unfold Obligations.AcceptedFrameByClass
  intro s op rest d hdr payload hr hw hl hd hc hb hv hfit hn hsz hver
  obtain ⟨reply, hrep, hsome⟩ := exists_reply_of_wf s op d hdr hw hd
  have arrival : PlainArrival (.rx (op :: rest)) s d hdr payload (op :: rest) reply :=
    ⟨(receive_dispatch s op rest d hdr payload hr hl hd hb hv).trans
      (congrArg _ (rxDispatch_plain _ _ _ _ _ hc)), hrep⟩
  obtain ⟨last, status, hend, hexec⟩ := arrival.accepted (accepted_of_checks hn hsz hver) hfit
  refine ⟨_, (reply .success).toList.map .tx, hexec, ?tx, ?atMostOne, ?reliable, fun hroute happ => ?app,
    fun hroute hadmin => ?admin, fun hroute => ?relay, rfl, rfl, rfl, rfl, rfl, rfl, rfl, rfl, rfl, rfl,
    rfl, rfl⟩
  case tx => simp
  case atMostOne => cases reply .success <;> simp
  case reliable =>
    rw [← hsome .success]
    cases reply .success <;> simp
  case app =>
    obtain ⟨rfl, rfl⟩ := hend.of_app hroute happ
    exact ⟨(List.append_assoc _ _ _).symm, rfl⟩
  case admin =>
    obtain ⟨rfl, rfl⟩ := hend.of_admin hroute hadmin
    exact ⟨by simp [afterArrival], rfl⟩
  case relay =>
    obtain ⟨raw, dest, ho, rfl, rfl⟩ := hend.of_relay hroute
    rw [relayOutput_relay _ _ _ _ _ hroute, Option.some.injEq, Prod.mk.injEq] at ho
    obtain ⟨rfl, rfl⟩ := ho
    obtain ⟨bd, hbd, hclass, hdir⟩ := opLookup_bridgeOp s.params d.direction hw
    refine ⟨bridgeOp s.params d.direction, bd, _, _, hbd, hclass, hdir,
      (List.append_assoc _ _ _).symm, rfl, fun hstore => ?_, fun hnode => ?_⟩
    · simp [hstore]
    · simp [hnode]

/-- Settles O22: DN is a plain frame answered by AS, relayed at a storeside SLC. -/
theorem dataToNodeArrival : Obligations.DataToNodeArrival := by
  unfold Obligations.DataToNodeArrival
  intro s slid pkg payload hr ht hl hv hfit
  rw [← length_ctrlFrame 0x30 slid pkg payload] at hfit
  have arrival := plainArrival_ctrl (i := .wireDN slid pkg payload) rfl hr ht hl hv rfl rfl (.inl rfl)
    (repliesAre_default (r := 0x3C) ht rfl rfl rfl)
  refine ⟨fun hn hm => ?_, fun hn hm => ?_, fun hn => ?_⟩
  · exact arrival.delivered (accepted_of_unchecked hn rfl rfl) (route_local_toNode _ _ rfl hm) rfl
  · exact arrival.relayed_storeside (accepted_of_unchecked hn rfl rfl) ht rfl hm (hfit hm)
  · exact arrival.duplicate (feasible_toNode _ _ _ rfl hfit) hn

/-- Settles O23: DS is a plain frame answered by AN, relayed at a nodeside SLC. -/
theorem dataToStoreArrival : Obligations.DataToStoreArrival := by
  unfold Obligations.DataToStoreArrival
  intro s slid pkg rssi payload hr ht hl hv hfit
  rw [← length_dataFrame 0x31 slid pkg rssi payload] at hfit
  have arrival := plainArrival_data (i := .wireDS slid pkg rssi payload) rfl hr ht hl hv rfl rfl
    (.inl rfl) (repliesAre_default (r := 0x3E) ht rfl rfl rfl)
  refine ⟨fun hn hm => ?_, fun hn hm => ?_, fun hn => ?_⟩
  · exact arrival.delivered (accepted_of_unchecked hn rfl rfl) (route_local_toStore _ _ rfl hm) rfl
  · obtain ⟨hstore, hlen⟩ := hfit hm
    exact arrival.relayed_nodeside (accepted_of_unchecked hn rfl rfl) ht rfl hm hstore hlen
  · exact arrival.duplicate (feasible_toStore _ _ _ rfl hfit) hn

/-- Settles O24: each of the three ops is a control-kind frame of a row of class Admin that no reply
answers. -/
theorem placeholderControlArrival : Obligations.PlaceholderControlArrival := by
  unfold Obligations.PlaceholderControlArrival
  intro w hw s slid pkg payload hr ht hl hv hfit
  obtain ⟨hrow, hexec⟩ := placeholderCtrl_row w hw
  rw [← length_ctrlFrame w.2 slid pkg payload] at hfit
  have arrival := plainArrival_ctrl (hexec slid pkg payload) hr ht hl hv hrow rfl (.inr rfl)
    (repliesAre_none rfl)
  refine ⟨fun hn hm => ?_, fun hn hm => ?_, fun hn => ?_⟩
  · rw [arrival.recognized (accepted_of_unchecked hn rfl rfl) (route_local_toNode _ _ rfl hm)
      (by decide), afterArrival_silent]
    rfl
  · exact arrival.relayed_storeside (accepted_of_unchecked hn rfl rfl) ht rfl hm (hfit hm)
  · have hdup := arrival.duplicate (feasible_toNode _ _ _ rfl hfit) hn
    rwa [afterArrival_silent] at hdup

/-- Settles O25: each of the six ops is a data-kind frame of a row of class Admin that no reply
answers. -/
theorem placeholderDataArrival : Obligations.PlaceholderDataArrival := by
  unfold Obligations.PlaceholderDataArrival
  intro w hw s slid pkg rssi payload hr ht hl hv hfit
  obtain ⟨hrow, hexec⟩ := placeholderData_row w hw
  rw [← length_dataFrame w.2 slid pkg rssi payload] at hfit
  have arrival := plainArrival_data (hexec slid pkg rssi payload) hr ht hl hv hrow rfl (.inr rfl)
    (repliesAre_none rfl)
  refine ⟨fun hn hm => ?_, fun hn hm => ?_, fun hn => ?_⟩
  · rw [arrival.recognized (accepted_of_unchecked hn rfl rfl) (route_local_toStore _ _ rfl hm)
      (by decide), afterArrival_silent]
    rfl
  · obtain ⟨hstore, hlen⟩ := hfit hm
    exact arrival.relayed_nodeside (accepted_of_unchecked hn rfl rfl) ht rfl hm hstore hlen
  · have hdup := arrival.duplicate (feasible_toStore _ _ _ rfl hfit) hn
    rwa [afterArrival_silent] at hdup

/-- Settles O26: SC is a plain frame of class Admin answered by AS; which code it earns is the first of
the three checks that fails. -/
theorem configCommandArrival : Obligations.ConfigCommandArrival := by
  unfold Obligations.ConfigCommandArrival
  intro s slid pkg payload hr ht hl hv hfit
  rw [← length_ctrlFrame 0x38 slid pkg payload] at hfit
  have arrival := plainArrival_ctrl (i := .wireSC slid pkg payload) (d := scRow) rfl hr ht hl hv rfl rfl
    (.inr rfl) (repliesAre_default (r := 0x3C) ht rfl rfl rfl)
  have hf := feasible_toNode s scRow _ rfl hfit
  refine ⟨fun hn hsz hver hm => ?recognized, fun hn hsz hver hm => ?relayed, fun hn hsz => ?size,
    fun hn hsz hver => ?version, fun hn => arrival.duplicate hf hn⟩
  case recognized =>
    exact arrival.recognized (accepted_scRow hn hsz hver) (route_local_toNode _ _ rfl hm) (by decide)
  case relayed =>
    exact arrival.relayed_storeside (accepted_scRow hn hsz hver) ht rfl hm (hfit hm)
  case size =>
    exact arrival.rejected hf hn .sizeErr (by decide) (by simp [hsz])
  case version =>
    exact arrival.rejected hf hn .versionErr (by decide) (by simp [hsz, hver])

/-- Settles O27: BS is a bridge frame toward the store, which BRG_RX takes further in no mode. -/
theorem bridgeFrameToStoreArrival : Obligations.BridgeFrameToStoreArrival := by
  unfold Obligations.BridgeFrameToStoreArrival
  intro s slid pkg rssi body hr ht hl hv
  calc exec (.wireBS slid pkg rssi body) s
      = .next (brgRx (bridgeRow .data .nodeToStore) ⟨0x33, slid, pkg, rssi⟩
          (dataFrame 0x33 slid pkg rssi body) { s with result := {} }) :=
        receive_dataFrame s 0x33 slid pkg rssi body _ hr hl (opLookup_default _ ht _ _ rfl) rfl hv
    _ = _ := congrArg _ (brgRx_turnedAway _ _ _ _ (.inr rfl))

/-- Settles O28: BRG_RX takes BN further at a storeside SLC alone. -/
theorem bridgeFrameToNodeTurnedAway : Obligations.BridgeFrameToNodeTurnedAway := by
  unfold Obligations.BridgeFrameToNodeTurnedAway
  intro s slid pkg body hr ht hl hv hm
  rw [exec_wireBN s slid pkg body hr ht hl hv]
  exact congrArg _ (brgRx_turnedAway _ _ _ _ (.inl hm))

/-- Settles O29: the wire form is the header, `to_slid` and the inner frame, which CONSUME takes
apart. -/
theorem bridgeFrameToNodeRelayed : Obligations.BridgeFrameToNodeRelayed := by
  unfold Obligations.BridgeFrameToNodeRelayed
  intro s slid pkg dest inner hr ht hm hl hv hdest hinner
  have hframe : ctrlFrame 0x32 slid pkg (le32 dest ++ inner) =
      encCtrl ⟨0x32, slid, pkg⟩ ++ le32 dest ++ inner := (List.append_assoc _ _ _).symm
  rw [exec_wireBN s slid pkg _ hr ht (by simp [length_le32]; omega) hv,
    brgRx_consumes _ _ _ { s with result := {} } hm rfl, hframe,
    consumeAndRelay_wire _ _ _ _ _ _ (length_encCtrl _) (length_of_innerCheck _ _ hinner)]
  simp only [hdest, hinner, Bool.true_eq_false, if_false]
  rfl

/-- Settles O32: the search of OUT ends at the lowest entry that awaits the ack. -/
theorem ackClosesMatchingSend : Obligations.AckClosesMatchingSend := by
  unfold Obligations.AckClosesMatchingSend
  intro w hw s slid pkg code h slot hr ht hl hv hslot hawaits hlowest
  have hmatch : firstMatch ⟨w.2, slid, pkg, 0⟩ s.out = some h :=
    firstMatch_eq_some _ _ h slot hslot hawaits hlowest
  rw [exec_ack w hw s slid pkg [code] hr ht hl hv,
    ackRx_matched _ _ _ _ { s with result := {} } h hmatch]
  rfl

/-- Settles O33: no entry matches, so the route decides; a payload of another length is dropped before
the search. -/
theorem ackWithoutMatchingSend : Obligations.AckWithoutMatchingSend := by
  unfold Obligations.AckWithoutMatchingSend
  intro w hw s slid pkg hr ht hv
  have arrival := fun payload hl => exec_ack w hw s slid pkg payload hr ht hl hv
  refine ⟨fun payload hsz hl => ?size, fun code hl hnone hm => ?unexpected,
    fun code hl hnone hop hm hstore => ?toStore, fun code hl hnone hop hm => ?toNode⟩
  case size =>
    have hdrop := nextButLog_dropped _ s s.seq none .ackSizeMismatch _
      ((arrival payload hl).trans (congrArg _ (ackRx_wrongSize _ _ _ _ _ hsz)))
    rwa [afterArrival_silent] at hdrop
  case unexpected =>
    have hroute := route_ack_local s.params w.2 hm
    have hdrop := nextButLog_dropped _ s s.seq none .ackUnexpected _
      ((arrival [code] hl).trans
        (congrArg _ (ackRx_unmatched _ _ _ _ _ (firstMatch_eq_none _ _ hnone) hroute)))
    rwa [afterArrival_silent] at hdrop
  case toStore =>
    exact exec_ack_relayed w hw s slid pkg code _ _ hr ht (by omega) hv hnone
      ((route_relay_iff _ _).mpr (.inl ⟨hm, if_pos hop⟩)) (relayCheck_nodeside _ _ hm hstore hl)
      (relayOutput_nodeside _ _ _ _ _ ht hm)
  case toNode =>
    exact exec_ack_relayed w hw s slid pkg code _ _ hr ht (by omega) hv hnone
      ((route_relay_iff _ _).mpr (.inr ⟨hm, if_neg (by simp [hop])⟩)) (relayCheck_storeside _ _ hm hl)
      (relayOutput_storeside _ _ _ _ _ ht hm)

end Sys2Proof.Machine
end

section
/-! PROOFS. The receiving side of the acknowledgement engine (spec/42_ackengine.md R210 to R233):
frames dropped before ACK changes any state, and the sequence check, the answer and the duplicate law
of frames of class App and Admin. -/

namespace Sys2Proof.Machine

/-! ### Frames dropped whole (R212 to R215, R275) -/

/-- An exception at the start of a command writes RESULT and one LOG at WARN, and nothing else (R320,
R321). -/
theorem raise_cleared (k : Raised) (info : Result) (s : State) :
    raise k info { s with result := {} } = { s with
      result := { info with status := raisedStatus k, exc := some (raisedKind k), ioErr := false }
      events := s.events ++ [.log .warn (raisedKind k)] } := by
  cases k <;> rfl

/-- An arrival that raises at once leaves RESULT and one LOG. -/
theorem receive_raised (b : Bytes) (s : State) (k : Raised) (info : Result) (hr : s.run = .running)
    (hl : b.length ≤ s.params.maxFrame)
    (h : rxRun b { s with result := {} } = raise k info { s with result := {} }) :
    receive b s = .next { s with
      result := { info with status := raisedStatus k, exc := some (raisedKind k), ioErr := false }
      events := s.events ++ [.log .warn (raisedKind k)] } := by
  rw [receive_running b s hr hl, h, raise_cleared]

theorem validSlid_eq_false_iff (s : Slid) :
    validSlid s = false ↔ s.toNat < 0x100 ∨ 0x10FF < s.toNat := by
  rw [← Bool.not_eq_true, validSlid_iff]
  omega

theorem rxRun_unknownOp (s : State) (op : OpCode) (rest : Bytes)
    (h : opLookup s.params op = none) :
    rxRun (op :: rest) s = raise .unknownOp { op := op, ack := some .unexpected } s := by
  simp only [rxRun, h]

theorem rxRun_shortHeader (s : State) (op : OpCode) (rest : Bytes) (d : Descriptor)
    (hd : opLookup s.params op = some d) (hl : (op :: rest).length < hlen d.headerKind) :
    rxRun (op :: rest) s = raise .sizeError { op := op } s := by
  have hb : decodeKind d.headerKind (op :: rest) = none := (decodeKind_eq_none _ _).mpr hl
  simp only [rxRun, hd, hb]

theorem rxRun_badSlid (s : State) (op : OpCode) (rest : Bytes) (d : Descriptor) (hdr : Header)
    (payload : Bytes) (hd : opLookup s.params op = some d)
    (hb : decodeKind d.headerKind (op :: rest) = some (hdr, payload))
    (hv : validSlid hdr.slid = false) :
    rxRun (op :: rest) s = raise .outOfRange (headerInfo hdr) s := by
  simp only [rxRun, hd, hb, hv, if_true]

/-- Under a well-formed table the parity of the op gives the length of its header (R103, R172
condition 1). -/
theorem hlen_of_opLookup (p : Params) (op : OpCode) (d : Descriptor) (hw : p.wf = true)
    (hd : opLookup p op = some d) :
    hlen d.headerKind = if op.toNat % 2 = 1 then 8 else 7 := by
  have hk := kind_of_opLookup p op d hw hd
  by_cases hodd : op.toNat % 2 = 1
  · rw [if_pos hodd, hk.mpr hodd, hlen]
  · have hctrl : d.headerKind = .control := by
      cases h : d.headerKind with
      | data => exact absurd (hk.mp h) hodd
      | control => rfl
    rw [if_neg hodd, hctrl, hlen]

/-! #### RELAY_CHECK fails (R275) -/

theorem relayCheck_badStore (p : Params) (n : Nat) (hm : p.bridgeMode = .nodeside)
    (hv : validSlid p.storeSlid = false) : relayCheck p n = some .outOfRange := by
  simp only [relayCheck, hm, hv, if_true]

theorem relayCheck_long_nodeside (p : Params) (n : Nat) (hm : p.bridgeMode = .nodeside)
    (hv : validSlid p.storeSlid = true) (hl : p.maxFrame < n + 12) :
    relayCheck p n = some .frameTooLong := by
  simp [relayCheck, hm, hv, hl]

theorem relayCheck_long_storeside (p : Params) (n : Nat) (hm : p.bridgeMode = .storeside)
    (hl : p.maxFrame < n + 11) : relayCheck p n = some .frameTooLong := by
  simp [relayCheck, hm, hl]

theorem brgRelay_infeasible (d : Descriptor) (hdr : Header) (b : Bytes) (info : Result) (s : State)
    (k : Raised) (h : relayCheck s.params b.length = some k) :
    brgRelay d hdr b info s = raise k (headerInfo hdr) s := by
  simp only [brgRelay, h]

/-- The frame is one that BRG would relay where its route is Relay: of class App or Admin, or an ack of
one byte that closes no send. -/
def RelayCandidate (s : State) (d : Descriptor) (hdr : Header) (payload : Bytes) : Prop :=
  d.opClass = .app ∨ d.opClass = .admin ∨
    (d.opClass = .ack ∧ payload.length = 1 ∧
      ∀ slot ∈ s.out, ¬ Awaits slot hdr.op hdr.slid hdr.pkgNum)

/-- Both ways to a relay make RELAY_CHECK before ACK writes any state. -/
theorem rxDispatch_infeasible (d : Descriptor) (hdr : Header) (payload b : Bytes) (s : State)
    (k : Raised) (hcand : RelayCandidate s d hdr payload) (hr : route s.params d = .relay)
    (hk : relayCheck s.params b.length = some k) :
    rxDispatch d hdr payload b s = raise k (headerInfo hdr) s := by
  rcases hcand with happ | hadmin | ⟨hack, hlen, hnone⟩
  · rw [rxDispatch_plain _ _ _ _ _ (.inl happ), rxPlain_infeasible s d hdr payload b k hr hk]
  · rw [rxDispatch_plain _ _ _ _ _ (.inr hadmin), rxPlain_infeasible s d hdr payload b k hr hk]
  · obtain ⟨code, rfl⟩ := List.length_eq_one_iff.mp hlen
    simp only [rxDispatch, hack]
    rw [ackRx_relayed d hdr code b s (firstMatch_eq_none hdr s.out hnone) hr,
      brgRelay_infeasible d hdr b _ s k hk]

/-! ### Frames of class App and Admin, under every table -/

/-- The frame that answers an AckCode, where there is one (R225, R226). -/
def replyTo (p : Params) (d : Descriptor) (hdr : Header) (code : AckCode) : Option Bytes :=
  if d.reliabilityRequired then replyFrame p d hdr code else none

/-- The reply of RX step 9 is the TX of that frame, or nothing. -/
theorem repliesAre_replyTo (s : State) (d : Descriptor) (hdr : Header) :
    RepliesAre s d hdr fun code => (replyTo s.params d hdr code).toList.map .tx := by
  intro code s' hs
  show emitReply d hdr code s' = emitAll ((replyTo s.params d hdr code).toList.map .tx) s'
  unfold emitReply replyTo
  rw [hs]
  split
  · cases replyFrame s.params d hdr code <;> rfl
  · rfl

theorem replyTo_of_wf (p : Params) (op : OpCode) (d : Descriptor) (hdr : Header) (code : AckCode)
    (r : OpCode) (hw : p.wf = true) (hd : opLookup p op = some d) (hr : d.replyOp = some r) :
    ∃ dr, opLookup p r = some dr ∧ replyTo p d hdr code =
      some (encodeKind dr.headerKind r hdr.slid hdr.pkgNum 0 ++ [ackByte code]) := by
  rcases reply_of_opLookup p op d hw hd with ⟨hnone, -⟩ | ⟨r', dr, hr', hrel, hdr', -⟩
  · cases hnone.symm.trans hr
  · cases hr'.symm.trans hr
    exact ⟨dr, hdr', by simp [replyTo, replyFrame, hrel, hr, hdr']⟩

/-- An op without a reply op is not answered. -/
theorem replyTo_none (p : Params) (d : Descriptor) (hdr : Header) (code : AckCode)
    (hr : d.replyOp = none) : replyTo p d hdr code = none := by
  simp [replyTo, replyFrame, hr]

/-- The frame arrives at a running SLC, passes the header checks and RELAY_CHECK, and is one that SEQ
numbers. -/
structure Taken (s : State) (b : Bytes) (d : Descriptor) (hdr : Header) (payload : Bytes) :
    Prop where
  running : s.run = .running
  length_le : b.length ≤ s.params.maxFrame
  numbered : Numbered s.params b d hdr payload
  feasible : Feasible s d b

theorem feasible_iff (s : State) (d : Descriptor) (b : Bytes) :
    Feasible s d b ↔ route s.params d = .localLeg ∨ relayCheck s.params b.length = none := by
  unfold Feasible
  cases route s.params d <;> simp

/-- The arrival of a frame that SEQ numbers is the plain pipeline. -/
theorem receive_numbered (s : State) (b : Bytes) (d : Descriptor) (hdr : Header) (payload : Bytes)
    (hr : s.run = .running) (hl : b.length ≤ s.params.maxFrame)
    (hn : Numbered s.params b d hdr payload) :
    receive b s = .next (rxPlain d hdr payload b { s with result := {} }) := by
  obtain ⟨hd, hb, hv, hc⟩ := hn
  cases b with
  | nil =>
    have hshort := (decodeKind_eq_none d.headerKind []).mpr (by cases d.headerKind <;> decide)
    cases hshort.symm.trans hb
  | cons op rest =>
    rw [receive_dispatch s op rest d hdr payload hr hl hd hb hv, rxDispatch_plain _ _ _ _ _ hc]

theorem accepted_of_rxCode (s : State) (d : Descriptor) (hdr : Header) (payload : Bytes)
    (h : rxCode s.params s.seq d hdr payload = .success) : Accepted s d hdr payload := by
  by_cases hn : IsNew s hdr.slid hdr.pkgNum
  · rw [rxCode_new s d hdr payload hn] at h
    split at h
    · cases h
    · rename_i hsz
      split at h
      · cases h
      · rename_i hver
        exact ⟨hn, by simpa using hsz, by simpa using hver⟩
  · cases h.symm.trans (rxCode_old s d hdr payload hn)

/-- The code of a frame is DUPLICATE exactly when its number is not new (R221). -/
theorem rxCode_eq_duplicate_iff (s : State) (d : Descriptor) (hdr : Header) (payload : Bytes) :
    rxCode s.params s.seq d hdr payload = .duplicate ↔ ¬ IsNew s hdr.slid hdr.pkgNum := by
  refine ⟨fun h hn => ?_, rxCode_old s d hdr payload⟩
  rw [rxCode_new s d hdr payload hn] at h
  split at h
  · cases h
  · split at h <;> cases h

namespace PlainEnd

variable {s : State} {d : Descriptor} {hdr : Header} {payload b : Bytes} {code : AckCode}
  {last : List Event} {status : Status}

/-- Behind the reply nothing is transmitted. -/
theorem no_tx (h : PlainEnd s d hdr payload b code last status) : ∀ e ∈ last, e.isTx = false := by
  cases h with
  | dropped _ _ hl | relayed _ _ _ _ hl | delivered _ _ hl | recognized _ _ hl =>
    simp [hl, Event.isTx]

theorem of_duplicate (h : PlainEnd s d hdr payload b .duplicate last status) :
    last = [.log .info .ackDuplicate] ∧ status = .rxDuplicate := by
  cases h with
  | dropped _ hs hl => exact ⟨hl, hs⟩
  | relayed _ _ h | delivered h | recognized h => cases h

end PlainEnd

namespace Taken

variable {s : State} {b : Bytes} {d : Descriptor} {hdr : Header} {payload : Bytes}

theorem plainArrival (h : Taken s b d hdr payload) :
    PlainArrival (.rx b) s d hdr payload b (replyTo s.params d hdr) :=
  ⟨receive_numbered s b d hdr payload h.running h.length_le h.numbered,
    repliesAre_replyTo s d hdr⟩

/-- Every way such a frame ends: SEQ advances to its number when that is new, the code it earned is
answered, and RESULT reports that code. -/
theorem ends (h : Taken s b d hdr payload) (code : AckCode)
    (hcode : rxCode s.params s.seq d hdr payload = code) :
    ∃ last status, PlainEnd s d hdr payload b code last status ∧
      exec (.rx b) s = .next (afterArrival s (seqAdvance s.seq hdr.slid hdr.pkgNum)
        (replyTo s.params d hdr code) last
        { headerInfo hdr with ack := some code, status := status }) := by
  by_cases hc : code = .success
  · subst hc
    have ha := accepted_of_rxCode s d hdr payload hcode
    rw [seqAdvance_new s hdr.slid hdr.pkgNum ha.new]
    exact h.plainArrival.accepted ha ((feasible_iff s d b).mp h.feasible)
  · refine ⟨_, _, .dropped hc rfl rfl, ?_⟩
    rw [h.plainArrival.exec_eq, rxPlain_feasible { s with result := {} } d hdr payload b h.feasible,
      hcode, h.plainArrival.replies code { s with result := {}, seq := _ } rfl,
      rxFinish_dropped _ _ _ _ _ _ hc, ← setResult_emitAll_reply _ _ _ _ _ (by simp [Event.isTx])]
    rfl

/-- A frame with the same header is taken at every later state of the same configuration. -/
theorem later (h : Taken s b d hdr payload) {t : State} (hr : t.run = .running)
    (hp : t.params = s.params) : Taken t b d hdr payload where
  running := hr
  length_le := hp ▸ h.length_le
  numbered := hp ▸ h.numbered
  feasible := by
    have hf := h.feasible
    unfold Feasible at hf ⊢
    rwa [hp]

end Taken

/-! ### The duplicate law (R228) -/

/-- The statuses of a frame of class App or Admin whose number was new. -/
def newStatuses : List Status :=
  [.rxDelivered, .rxRecognized, .rxRelayed, .rxSizeErr, .rxVersionErr]

theorem raisedStatus_not_new (k : Raised) : raisedStatus k ∉ newStatuses := by
  cases k <;> decide

/-- Only a new number earns such a status, and SEQ then holds it. -/
theorem isNew_of_newStatus {s : State} {d : Descriptor} {hdr : Header} {payload b : Bytes}
    {last : List Event} {status : Status}
    (h : PlainEnd s d hdr payload b (rxCode s.params s.seq d hdr payload) last status)
    (hst : status ∈ newStatuses) : IsNew s hdr.slid hdr.pkgNum := by
  by_contra hold
  rw [rxCode_old s d hdr payload hold] at h
  rw [h.of_duplicate.2] at hst
  exact absurd hst (by decide)

/-- An arrival of class App or Admin that ends in one of these statuses was taken, and SEQ holds its
number. -/
theorem taken_of_newStatus (b : Bytes) (s t : State) (d : Descriptor)
    (hd : opLookup s.params (b.headD 0) = some d) (hc : d.opClass = .app ∨ d.opClass = .admin)
    (h : exec (.rx b) s = .next t) (hst : t.result.status ∈ newStatuses) :
    ∃ hdr payload, Taken s b d hdr payload ∧ t.result.slid = hdr.slid ∧
      seqRead t.seq (seqIndex hdr.slid) = some hdr.pkgNum := by
  rcases receive_next b s t h with ⟨hr, hl, rfl⟩ | ⟨-, rfl⟩
  case inr => simp [newStatuses] at hst
  rcases rxRun_cases b { s with result := {} } with
    ⟨k, info, hx⟩ | ⟨op, rest, d', hdr, payload, rfl, hd', hb, hv, hx⟩
  · rw [hx, raise_result] at hst
    exact absurd hst (raisedStatus_not_new k)
  · cases hd'.symm.trans hd
    rw [hx, rxDispatch_plain _ _ _ _ _ hc] at hst ⊢
    rcases rxPlain_cases d hdr payload (op :: rest) { s with result := {} } with
      ⟨k, -, -, hk⟩ | ⟨reply, last, status, hf, hend, -, -, hk⟩
    · rw [hk, raise_result] at hst
      exact absurd hst (raisedStatus_not_new k)
    · rw [hk] at hst ⊢
      have hn : IsNew s hdr.slid hdr.pkgNum :=
        isNew_of_newStatus (s := { s with result := {} }) hend hst
      have hseq := seqAdvance_new s hdr.slid hdr.pkgNum hn
      exact ⟨hdr, payload, ⟨hr, hl, ⟨hd, hb, hv, hc⟩, hf⟩, rfl, by simp [hseq, seqRead_seqWrite]⟩

/-- A number that SEQ holds is not new. -/
theorem not_isNew_of_recorded (s : State) (slid : Slid) (pkg : PkgNum)
    (h : seqRead s.seq (seqIndex slid) = some pkg) : ¬ IsNew s slid pkg := by
  intro hn
  have hpos := hn pkg h
  simp at hpos

theorem execCfgLoad_refused (record : Option Bytes) (s : State) (h : s.run ≠ .unconfigured) :
    execCfgLoad record s = .next { s with result := { status := .refusedState } } := by
  unfold execCfgLoad
  split
  · contradiction
  · rfl

/-- SLC runs, in the configuration `p`. -/
def RunsAs (p : Params) (s : State) : Prop := s.run = .running ∧ s.params = p

/-- SLC runs on, in the same configuration, until a RESET. -/
theorem exec_runsAs (p : Params) (i : Instr) (s t : State) (hi : i ≠ .reset) (hs : RunsAs p s)
    (h : exec i s = .next t) : RunsAs p t := by
  obtain ⟨hr, hp⟩ := hs
  refine ⟨?_, (exec_constants i s t h).1.trans hp⟩
  rcases exec_run i s t h with hsame | hreset | ⟨record, rfl⟩
  · exact hsame.trans hr
  · exact absurd hreset hi
  · cases (execCfgLoad_refused record s (by simp [hr])).symm.trans h
    exact hr

/-- What each of the commands keeps, all of them keep. -/
theorem runAll_keeps (P : State → Prop) (is : List Instr) (s t : State)
    (hstep : ∀ i ∈ is, ∀ u v, P u → exec i u = .next v → P v) (hs : P s)
    (h : runAll is s = .next t) : P t := by
  induction is generalizing s with
  | nil =>
    cases h
    exact hs
  | cons i is ih =>
    obtain ⟨hi, his⟩ := List.forall_mem_cons.mp hstep
    rw [runAll] at h
    cases hx : exec i s with
    | next u =>
      rw [hx] at h
      exact ih u his (hi s u hs hx) h
    | fault f => cases f
    | refused r =>
      rw [hx] at h
      cases h

/-! ### The statements -/

/-- Settles O13: such a frame is taken; its number advances SEQ when it is new, and earns DUPLICATE
when it is not. -/
theorem sequenceCheckOnArrival : Obligations.SequenceCheckOnArrival := by
  unfold Obligations.SequenceCheckOnArrival
  intro s op rest d hdr payload hr _ hl hd hc hb hv hfit
  have htaken : Taken s (op :: rest) d hdr payload :=
    ⟨hr, hl, ⟨hd, hb, hv, hc⟩, (feasible_iff _ _ _).mpr hfit⟩
  obtain ⟨last, status, hend, hexec⟩ := htaken.ends _ rfl
  have hdup := rxCode_eq_duplicate_iff s d hdr payload
  refine ⟨_, hexec, fun hn => ⟨seqAdvance_new s _ _ hn, fun hack => ?new⟩,
    fun hold => ⟨seqAdvance_old s _ _ hold, congrArg some (hdup.mpr hold), ?old⟩,
    rfl, rfl, rfl, rfl, rfl, rfl⟩
  case new => exact hdup.mp (Option.some.inj hack) hn
  case old =>
    rw [hdup.mpr hold] at hend
    exact hend.of_duplicate.2

/-- Settles O14: the reply stands first among the events of the arrival, and what follows it transmits
nothing. -/
theorem reliableOpsAreAnswered : Obligations.ReliableOpsAreAnswered := by
  unfold Obligations.ReliableOpsAreAnswered
  intro s op rest d hdr payload hr hw hl hd hc hb hv hfit
  have htaken : Taken s (op :: rest) d hdr payload :=
    ⟨hr, hl, ⟨hd, hb, hv, hc⟩, (feasible_iff _ _ _).mpr hfit⟩
  obtain ⟨last, status, hend, hexec⟩ := htaken.ends _ rfl
  refine ⟨_, _, hexec, rfl, fun r hreply => ?reliable, fun hnone => ?unreliable⟩
  case reliable =>
    obtain ⟨dr, hdr', hto⟩ := replyTo_of_wf s.params op d hdr
      (rxCode s.params s.seq d hdr payload) r hw hd hreply
    exact ⟨dr, last, hdr', by simp [afterArrival, hto], hend.no_tx⟩
  case unreliable =>
    exact ⟨last, by simp [afterArrival, replyTo_none _ _ _ _ hnone], hend.no_tx⟩

/-- Settles O16: the first arrival recorded its number, SLC runs on as configured, so the second finds
the number recorded. -/
theorem secondArrivalIsDuplicate : Obligations.SecondArrivalIsDuplicate := by
  unfold Obligations.SecondArrivalIsDuplicate
  intro b s t t' d between hd hc hexec hst hrun hreset hsame
  obtain ⟨hdr, payload, htaken, hslid, hrec⟩ := taken_of_newStatus b s t d hd hc hexec hst
  have hfirst := exec_runsAs s.params _ s t (by simp) ⟨htaken.running, rfl⟩ hexec
  obtain ⟨hr, hp⟩ := runAll_keeps (RunsAs s.params) between t t'
    (fun i hi u v => exec_runsAs s.params i u v fun h => hreset (h ▸ hi)) hfirst hrun
  rw [hslid, hrec] at hsame
  have hold := not_isNew_of_recorded t' hdr.slid hdr.pkgNum hsame
  obtain ⟨last, status, hend, hexec'⟩ :=
    (htaken.later hr hp).ends .duplicate (rxCode_old t' d hdr payload hold)
  obtain ⟨rfl, rfl⟩ := hend.of_duplicate
  refine ⟨_, _, hexec', rfl, rfl, seqAdvance_old t' _ _ hold, rfl, fun e he => ?_⟩
  rcases List.mem_append.mp he with hreply | hlog
  · obtain ⟨f, -, rfl⟩ := List.mem_map.mp hreply
    exact .inl rfl
  · rw [List.mem_singleton.mp hlog]
    exact .inr rfl

/-- Settles O18: each of the three checks raises before anything is written. -/
theorem rxDropsMalformedFrames : Obligations.RxDropsMalformedFrames := by
  unfold Obligations.RxDropsMalformedFrames
  refine ⟨fun s hr => ?empty, fun s op rest hr hl hop => ?unknownOp,
    fun s op rest d hdr payload hr hl hd hb hv => ?badSlid⟩
  case empty => exact receive_raised [] s .sizeError {} hr (Nat.zero_le _) rfl
  case unknownOp =>
    exact receive_raised _ s .unknownOp _ hr hl
      (rxRun_unknownOp { s with result := {} } op rest (opLookup_out_of_range s.params op hop))
  case badSlid =>
    exact receive_raised _ s .outOfRange _ hr hl (rxRun_badSlid { s with result := {} } op rest d hdr
      payload hd hb ((validSlid_eq_false_iff hdr.slid).mpr hv))

/-- Settles O19: the parity of the op gives the length of its header. -/
theorem rxDropsShortHeaders : Obligations.RxDropsShortHeaders := by
  unfold Obligations.RxDropsShortHeaders
  intro s op rest hr hw hl hlow hhigh hshort
  obtain ⟨d, hd⟩ := opLookup_isSome s.params op hw hlow hhigh
  rw [← hlen_of_opLookup s.params op d hw hd] at hshort
  exact receive_raised _ s .sizeError _ hr hl
    (rxRun_shortHeader { s with result := {} } op rest d hd hshort)

/-- Settles O34: RELAY_CHECK raises before ACK writes any state; which exception, by the mode. -/
theorem infeasibleRelayDropsWhole : Obligations.InfeasibleRelayDropsWhole := by
  unfold Obligations.InfeasibleRelayDropsWhole
  intro s op rest d hdr payload hr hl hd hcand hb hv
  have dropped (k : Raised) (hroute : route s.params d = .relay)
      (hk : relayCheck s.params (op :: rest).length = some k) :=
    receive_raised (op :: rest) s k (headerInfo hdr) hr hl
      ((rxRun_dispatch { s with result := {} } op rest d hdr payload hd hb hv).trans
        (rxDispatch_infeasible d hdr payload (op :: rest) { s with result := {} } k hcand hroute hk))
  refine ⟨fun hm hdir hstore => ?badStore, fun hm hdir hstore hlong => ?toStore,
    fun hm hdir hlong => ?toNode⟩
  case badStore =>
    exact dropped .outOfRange ((route_relay_iff _ _).mpr (.inl ⟨hm, hdir⟩))
      (relayCheck_badStore _ _ hm hstore)
  case toStore =>
    exact dropped .frameTooLong ((route_relay_iff _ _).mpr (.inl ⟨hm, hdir⟩))
      (relayCheck_long_nodeside _ _ hm hstore hlong)
  case toNode =>
    exact dropped .frameTooLong ((route_relay_iff _ _).mpr (.inr ⟨hm, hdir⟩))
      (relayCheck_long_storeside _ _ hm hlong)

end Sys2Proof.Machine
end

section
/-! PROOFS. The sending side of the acknowledgement engine (spec/42_ackengine.md R240 to R243, R260,
R261): SEND, CANCEL and CANCEL_ALL. -/

namespace Sys2Proof.Machine

/-! ### SEND -/

/-- A refusal writes RESULT, of which `io_err` is false, and nothing else (R36). -/
theorem setResult_cleared (r : Result) (s : State) :
    setResult r { s with result := {} } = { s with result := { r with ioErr := false } } := rfl

/-- The state that a SEND leaves which transmits `f`: TXSEQ counts it, OUT is `out`, and RESULT is `r`
with the bit `io_ok` that the TX drew (R240 steps 7 to 10). -/
def afterSend (s : State) (f : Bytes) (out : List OutSlot) (r : Result) : State :=
  { s with
    txSeq := s.txSeq + 1
    out := out
    events := s.events ++ [.tx f]
    draws := s.draws + 1
    result := { r with ioErr := !Config.ioOk s.draws } }

/-- The frame a SEND transmits: the header under the next number, then the payload. -/
def sendFrame (s : State) (d : Descriptor) (op : OpCode) (slid : Slid) (payload : Bytes)
    (rssi : Byte) : Bytes :=
  encodeKind d.headerKind op slid (s.txSeq + 1) rssi ++ payload

/-- The entry a send is kept in awaits the reply op of its row. -/
theorem newEntry_of_reply (p : Params) (d : Descriptor) (op : OpCode) (slid : Slid) (pkg : PkgNum)
    (f : Bytes) (now : Clock) (r : OpCode) (h : d.replyOp = some r) :
    newEntry p d op slid pkg f now =
      { op := op, slid := slid, pkgNum := pkg, replyOp := r, frame := f, retries := 0,
        deadline := now + BitVec.ofNat 32 p.ackTimeout } := by
  simp [newEntry, h]

section
variable (d : Descriptor) (op : OpCode) (slid : Slid) (payload : Bytes) (rssi : Byte) (now : Clock)
  (s : State)

theorem transmit_entry (h : Nat) :
    transmit d op slid payload rssi now (some h) { s with result := {} } =
      afterSend s (sendFrame s d op slid payload rssi)
        (s.out.set h (.sent (newEntry s.params d op slid (s.txSeq + 1)
          (sendFrame s d op slid payload rssi) now)))
        { status := .sentReliable, h := h, op := op, slid := slid, pkgNum := s.txSeq + 1 } := rfl

theorem transmit_noEntry :
    transmit d op slid payload rssi now none { s with result := {} } =
      afterSend s (sendFrame s d op slid payload rssi) s.out
        { status := .sent, op := op, slid := slid, pkgNum := s.txSeq + 1 } := rfl

/-- SEND accepts its operands: an op of class App or Admin, a valid slid, a frame that fits (R240 steps
2 to 5). -/
structure Sendable : Prop where
  lookup : opLookup s.params op = some d
  plain : d.opClass = .app ∨ d.opClass = .admin
  slid_valid : validSlid slid = true
  fits : hlen d.headerKind + payload.length ≤ s.params.maxFrame

variable {d op slid payload s}

/-- SEND steps 6 to 10. -/
theorem Sendable.exec_eq (h : Sendable d op slid payload s) (hr : s.run = .running) :
    exec (.send op slid payload rssi now) s = .next (
      if d.reliabilityRequired then
        (firstFree s.out).elim { s with result := { status := .outFull } } fun n =>
          transmit d op slid payload rssi now (some n) { s with result := {} }
      else transmit d op slid payload rssi now none { s with result := {} }) := by
  refine (execSend_running op slid payload rssi now s hr).trans (congrArg _ ?_)
  rw [sendRun_plain _ _ _ _ _ { s with result := {} } d h.lookup h.plain,
    if_neg (by simp [h.slid_valid]), if_neg (Nat.not_lt.mpr h.fits)]
  cases firstFree s.out <;> rfl

/-- Step 6 finds a Free entry: the frame is transmitted and kept there. -/
theorem Sendable.exec_entry (h : Sendable d op slid payload s) (hr : s.run = .running)
    (hrel : d.reliabilityRequired = true) (n : Nat) (hf : firstFree s.out = some n) :
    exec (.send op slid payload rssi now) s =
      .next (afterSend s (sendFrame s d op slid payload rssi)
        (s.out.set n (.sent (newEntry s.params d op slid (s.txSeq + 1)
          (sendFrame s d op slid payload rssi) now)))
        { status := .sentReliable, h := n, op := op, slid := slid, pkgNum := s.txSeq + 1 }) := by
  rw [h.exec_eq rssi now hr, if_pos hrel, hf, Option.elim_some, transmit_entry]

end

/-! ### CANCEL -/

theorem execCancel_notRunning (h : Nat) (s : State) (hr : s.run ≠ .running) :
    execCancel h s = .next { s with result := { status := .notRunning } } := by
  rw [execCancel, whenRunning_not_running _ s hr]

/-- CANCEL leaves its entry Free, whatever it was, and no other entry changed. -/
theorem cancelRun_out (h : Nat) (s : State) : (cancelRun h s).out = s.out.set h .free := by
  unfold cancelRun
  split
  · rfl
  · rename_i hfree
    obtain ⟨hlt, hget⟩ := List.getElem?_eq_some_iff.mp hfree
    rw [setResult_out, ← hget, List.set_getElem_self]
  · rename_i hout
    rw [setResult_out, List.set_eq_of_length_le (List.getElem?_eq_none_iff.mp hout)]

theorem cancelRun_events (h : Nat) (s : State) : (cancelRun h s).events = s.events := by
  unfold cancelRun
  split <;> rfl

theorem cancelRun_run (h : Nat) (s : State) : (cancelRun h s).run = s.run := by
  unfold cancelRun
  split <;> rfl

/-- The entries with these handles freed. -/
def freeEntries (hs : List Nat) (out : List OutSlot) : List OutSlot :=
  out.mapIdx fun j slot => if j ∈ hs then .free else slot

theorem freeEntries_nil (out : List OutSlot) : freeEntries [] out = out := by
  simp [freeEntries, List.mapIdx_eq_iff]

theorem freeEntries_cons (h : Nat) (hs : List Nat) (out : List OutSlot) :
    freeEntries (h :: hs) out = freeEntries hs (out.set h .free) := by
  refine List.ext_getElem (by simp [freeEntries]) fun j h1 h2 => ?_
  by_cases hj : j = h
  · simp [freeEntries, hj]
  · simp [freeEntries, hj, Ne.symm hj]

theorem freeEntries_range (out : List OutSlot) :
    freeEntries (List.range out.length) out = List.replicate out.length .free := by
  refine List.ext_getElem (by simp [freeEntries]) fun j h1 h2 => ?_
  have hj : j < out.length := by simpa using h2
  simp [freeEntries, hj]

/-- CANCEL of one handle after the other frees these entries and emits nothing (R122). -/
theorem runAll_cancel (hs : List Nat) (s : State) (hr : s.run = .running) :
    ∃ t, runAll (hs.map Instr.cancel) s = .next t ∧ t.out = freeEntries hs s.out ∧
      t.events = s.events := by
  induction hs generalizing s with
  | nil => exact ⟨s, rfl, (freeEntries_nil s.out).symm, rfl⟩
  | cons h hs ih =>
    have hexec : exec (.cancel h) s = .next (cancelRun h { s with result := {} }) :=
      execCancel_running h s hr
    obtain ⟨t, hrun, hout, hev⟩ := ih (cancelRun h { s with result := {} })
      ((cancelRun_run h _).trans hr)
    refine ⟨t, by simp only [List.map_cons, runAll, hexec, hrun], ?_, ?_⟩
    · rw [hout, cancelRun_out, freeEntries_cons]
    · rw [hev, cancelRun_events]

/-! ### CANCEL_ALL -/

theorem execCancelAll_notRunning (s : State) (hr : s.run ≠ .running) :
    execCancelAll s = .next { s with result := { status := .notRunning } } := by
  rw [execCancelAll, whenRunning_not_running _ s hr]

theorem cancelAllRun_cleared (s : State) :
    cancelAllRun { s with result := {} } = { s with
      out := List.replicate s.out.length .free
      result := { status := .cancelled, nFailed := s.out.countP fun slot => !slot.isFree } } := by
  simp [cancelAllRun, setResult]

/-! ### The statements -/

/-- Settles O40: the lowest Free entry takes the send; without one it is refused. -/
theorem sendReliable : Obligations.SendReliable := by
  unfold Obligations.SendReliable
  intro s op slid payload rssi now d r hr hd hc hrel hreply hv hl
  have hsend : Sendable d op slid payload s := ⟨hd, hc, hv, hl⟩
  refine ⟨fun h hfree hlow => ?entry, fun hfull => ?full⟩
  case entry =>
    rw [hsend.exec_entry rssi now hr hrel h (firstFree_eq_some s.out h hfree hlow),
      newEntry_of_reply s.params d op slid _ _ now r hreply]
    rfl
  case full =>
    rw [hsend.exec_eq rssi now hr, if_pos hrel, firstFree_eq_none s.out hfull, Option.elim_none]

/-- Settles O41: no entry is asked for, so the frame is transmitted and OUT stays. -/
theorem sendUnreliable : Obligations.SendUnreliable := by
  unfold Obligations.SendUnreliable
  intro s op slid payload rssi now d hr hd hc hrel hv hl
  have hsend : Sendable d op slid payload s := ⟨hd, hc, hv, hl⟩
  rw [hsend.exec_eq rssi now hr, if_neg (by simp [hrel]), transmit_noEntry]
  rfl

/-- Settles O42: each of steps 2 to 5 of SEND ends it before TXSEQ advances. -/
theorem sendRefusals : Obligations.SendRefusals := by
  unfold Obligations.SendRefusals
  refine ⟨fun s op slid payload rssi now hr hop => ?unknownOp,
    fun s op slid payload rssi now d hr hd => ⟨fun hc => ?refusedOp, fun hc hv => ?badSlid,
      fun hc hv hl => ?tooLong⟩⟩ <;>
    refine (execSend_running op slid payload rssi now s hr).trans (congrArg _ ?_)
  case unknownOp =>
    rw [sendRun_unknownOp _ _ _ _ _ { s with result := {} } (opLookup_out_of_range s.params op hop),
      raise_cleared]
    rfl
  case refusedOp =>
    rw [sendRun_refusedOp _ _ _ _ _ { s with result := {} } d hd hc, setResult_cleared]
  case badSlid =>
    rw [sendRun_plain _ _ _ _ _ { s with result := {} } d hd hc, if_pos hv, raise_cleared]
    rfl
  case tooLong =>
    rw [sendRun_plain _ _ _ _ _ { s with result := {} } d hd hc, if_neg (by simp [hv]), if_pos hl,
      setResult_cleared]

/-- Settles O46: the entry with the handle decides, behind the run gate. -/
theorem cancelReleasesEntry : Obligations.CancelReleasesEntry := by
  unfold Obligations.CancelReleasesEntry
  refine ⟨fun s h e hr hs => ?sent, fun s h hr hs => ?noEntry,
    fun s h => execCancel_notRunning h s⟩
  case sent =>
    exact (execCancel_running h s hr).trans
      (congrArg _ (cancelRun_sent h { s with result := {} } e hs))
  case noEntry =>
    exact (execCancel_running h s hr).trans
      (congrArg _ (cancelRun_noEntry h { s with result := {} } hs))

/-- Settles O47: CANCEL_ALL and CANCEL of every handle free every entry, and neither emits an event. -/
theorem cancelAllReleasesEntries : Obligations.CancelAllReleasesEntries := by
  unfold Obligations.CancelAllReleasesEntries
  refine ⟨execCancelAll_notRunning, fun s hr => ⟨?all, ?each⟩⟩
  case all =>
    refine (execCancelAll_running s hr).trans (congrArg _ ?_)
    rw [cancelAllRun_cleared, List.countP_eq_length_filter]
    congr 4
    funext slot
    cases slot <;> rfl
  case each =>
    obtain ⟨t, hrun, hout, hev⟩ := runAll_cancel (List.range s.out.length) s hr
    exact ⟨t, hrun, hout.trans (freeEntries_range s.out), hev⟩

end Sys2Proof.Machine
end

section
/-! PROOFS. TICK over time (spec/42_ackengine.md R250 to R254): what any list of TICKs does with one
OUT entry, which of the events are its own, and the retry bound. -/

namespace Sys2Proof.Machine

/-! ### Before the deadlines (R254) -/

section
variable (p : Params) (now : Clock) (out : List OutSlot)

/-- When TICK keeps every entry, the scan leaves OUT as it is. -/
theorem map_tickSlot_kept (h : ∀ slot ∈ out, tickAction p now slot = .keep) :
    out.map (tickSlot p now) = out :=
  calc out.map (tickSlot p now)
      = out.map id := List.map_congr_left fun slot hs => (tick_keeps p now 0 slot (h slot hs)).1
    _ = out := List.map_id out

theorem tickScan_kept (n : Nat) (h : ∀ slot ∈ out, tickAction p now slot = .keep) :
    tickScan p now n out = [] := by
  induction out generalizing n with
  | nil => rfl
  | cons slot out ih =>
    obtain ⟨hslot, hout⟩ := List.forall_mem_cons.mp h
    rw [tickScan, (tick_keeps p now n slot hslot).2, ih (n + 1) hout, List.append_nil]

theorem tickCount_kept (a : TickAction) (ha : a ≠ .keep)
    (h : ∀ slot ∈ out, tickAction p now slot = .keep) : tickCount p now a out = 0 := by
  refine List.countP_eq_zero.mpr fun slot hs => ?_
  simp [h slot hs, ha.symm]

end

/-! ### One entry under a list of TICKs -/

/-- The entry after TICKs at these times, one after the other. -/
def slotAfter (p : Params) : List Clock → OutSlot → OutSlot
  | [], slot => slot
  | now :: rest, slot => slotAfter p rest (tickSlot p now slot)

/-- The events that these TICKs emit for the entry, under its handle `h`. -/
def slotEvents (p : Params) (h : Nat) : List Clock → OutSlot → List Event
  | [], _ => []
  | now :: rest, slot => tickEvents p now h slot ++ slotEvents p h rest (tickSlot p now slot)

theorem slotAfter_free (p : Params) (times : List Clock) : slotAfter p times .free = .free := by
  induction times with
  | nil => rfl
  | cons now rest ih => exact ih

theorem slotEvents_free (p : Params) (h : Nat) (times : List Clock) :
    slotEvents p h times .free = [] := by
  induction times with
  | nil => rfl
  | cons now rest ih => exact ih

/-- The entry after a re-send at `now` (R251). -/
def OutEntry.resent (p : Params) (now : Clock) (e : OutEntry) : OutEntry :=
  { e with retries := e.retries + 1, deadline := now + BitVec.ofNat 32 p.ackTimeout }

@[simp] theorem resent_retries (p : Params) (now : Clock) (e : OutEntry) :
    (e.resent p now).retries = e.retries + 1 := rfl

@[simp] theorem resent_frame (p : Params) (now : Clock) (e : OutEntry) :
    (e.resent p now).frame = e.frame := rfl

theorem timesReached_waiting (timeout : Nat) (deadline now : Clock) (rest : List Clock)
    (h : ¬ 0 ≤ sdiff32 now deadline) :
    timesReached timeout deadline (now :: rest) = timesReached timeout deadline rest := by
  rw [timesReached, if_neg h]

theorem timesReached_reached (timeout : Nat) (deadline now : Clock) (rest : List Clock)
    (h : 0 ≤ sdiff32 now deadline) :
    timesReached timeout deadline (now :: rest) =
      timesReached timeout (now + BitVec.ofNat 32 timeout) rest + 1 := by
  rw [timesReached, if_pos h]

/-- How many of the times find this entry's current deadline reached. -/
def OutEntry.reached (p : Params) (times : List Clock) (e : OutEntry) : Nat :=
  timesReached p.ackTimeout e.deadline times

/-- What the first of several TICKs does with a Sent entry that was re-sent at most RETRY_MAX times,
and what it leaves for the others. -/
inductive FirstTick (p : Params) (h : Nat) (now : Clock) (rest : List Clock) (e : OutEntry) :
    Prop where
  | waits (hslot : tickSlot p now (.sent e) = .sent e) (hev : tickEvents p now h (.sent e) = [])
      (hn : e.reached p (now :: rest) = e.reached p rest)
  | resends (hlt : e.retries < p.retryMax)
      (hslot : tickSlot p now (.sent e) = .sent (e.resent p now))
      (hev : tickEvents p now h (.sent e) = [.tx e.frame])
      (hn : e.reached p (now :: rest) = (e.resent p now).reached p rest + 1)
  | fails (hmax : e.retries = p.retryMax) (hslot : tickSlot p now (.sent e) = .free)
      (hev : tickEvents p now h (.sent e) =
        [.done h .retriesExhausted, .log .info .retriesExhausted])
      (hn : 0 < e.reached p (now :: rest))

theorem firstTick (p : Params) (h : Nat) (now : Clock) (rest : List Clock) (e : OutEntry)
    (hle : e.retries ≤ p.retryMax) : FirstTick p h now rest e := by
  by_cases hd : 0 ≤ sdiff32 now e.deadline
  · have hn := timesReached_reached p.ackTimeout e.deadline now rest hd
    by_cases hr : e.retries < p.retryMax
    · exact .resends hr (tickSlot_resend p now e hd hr) (tickEvents_resend p now h e hd hr) hn
    · exact .fails (by omega) (tickSlot_fail p now e hd hr) (tickEvents_fail p now h e hd hr)
        (by rw [OutEntry.reached, hn]; omega)
  · exact .waits (tickSlot_waiting p now e hd) (tickEvents_waiting p now h e hd)
      (timesReached_waiting p.ackTimeout e.deadline now rest hd)

/-- Up to RETRY_MAX the entry stays Sent, its frame as it was, with one retry for each deadline
reached. -/
theorem slotAfter_within (p : Params) (times : List Clock) (e : OutEntry)
    (h : e.retries + e.reached p times ≤ p.retryMax) :
    ∃ deadline, slotAfter p times (.sent e) =
      .sent { e with retries := e.retries + e.reached p times, deadline := deadline } := by
  induction times generalizing e with
  | nil => exact ⟨e.deadline, rfl⟩
  | cons now rest ih =>
    rw [slotAfter]
    cases firstTick p 0 now rest e (by omega) with
    | waits hslot _ hn =>
      rw [hn] at h ⊢
      rw [hslot]
      exact ih e h
    | resends _ hslot _ hn =>
      have hsum : e.retries + e.reached p (now :: rest) =
          (e.resent p now).retries + (e.resent p now).reached p rest := by
        rw [hn, resent_retries]
        omega
      rw [hsum] at h ⊢
      rw [hslot]
      exact ih (e.resent p now) h
    | fails hmax _ _ hn => omega

/-- From the next deadline on the entry is Free. -/
theorem slotAfter_beyond (p : Params) (times : List Clock) (e : OutEntry)
    (hle : e.retries ≤ p.retryMax) (h : p.retryMax < e.retries + e.reached p times) :
    slotAfter p times (.sent e) = .free := by
  induction times generalizing e with
  | nil => exact absurd h (Nat.not_lt.mpr hle)
  | cons now rest ih =>
    rw [slotAfter]
    cases firstTick p 0 now rest e hle with
    | waits hslot _ hn =>
      rw [hslot]
      exact ih e hle (hn ▸ h)
    | resends hlt hslot _ hn =>
      rw [hslot]
      refine ih (e.resent p now) hlt ?_
      rw [hn] at h
      rw [resent_retries]
      omega
    | fails _ hslot =>
      rw [hslot]
      exact slotAfter_free p rest

/-- The events of a send with `left` re-sends left and `n` deadlines reached: the re-sends, then, with
none left, the failure. -/
def retryEvents (h : Nat) (frame : Bytes) (left n : Nat) : List Event :=
  List.replicate (min n left) (.tx frame) ++
    if left < n then [.done h .retriesExhausted, .log .info .retriesExhausted] else []

theorem retryEvents_succ (h : Nat) (frame : Bytes) (left n : Nat) :
    retryEvents h frame (left + 1) (n + 1) = .tx frame :: retryEvents h frame left n := by
  by_cases hlt : left < n <;> simp [retryEvents, hlt, Nat.succ_min_succ, List.replicate_succ]

theorem retryEvents_zero (h : Nat) (frame : Bytes) (n : Nat) (hn : 0 < n) :
    retryEvents h frame 0 n = [.done h .retriesExhausted, .log .info .retriesExhausted] := by
  simp [retryEvents, hn]

theorem slotEvents_sent (p : Params) (h : Nat) (times : List Clock) (e : OutEntry)
    (hle : e.retries ≤ p.retryMax) :
    slotEvents p h times (.sent e) =
      retryEvents h e.frame (p.retryMax - e.retries) (e.reached p times) := by
  induction times generalizing e with
  | nil => simp [slotEvents, retryEvents, OutEntry.reached, timesReached]
  | cons now rest ih =>
    rw [slotEvents]
    cases firstTick p h now rest e hle with
    | waits hslot hev hn => rw [hslot, hev, hn, List.nil_append, ih e hle]
    | resends hlt hslot hev hn =>
      have hleft : p.retryMax - e.retries = p.retryMax - (e.resent p now).retries + 1 := by
        rw [resent_retries]
        omega
      rw [hslot, hev, hn, ih (e.resent p now) hlt, hleft, retryEvents_succ, resent_frame]
      rfl
    | fails hmax hslot hev hn =>
      rw [hslot, hev, slotEvents_free, hmax, Nat.sub_self, retryEvents_zero h e.frame _ hn]
      rfl

theorem count_tx_retryEvents (h : Nat) (frame : Bytes) (left n : Nat) :
    (retryEvents h frame left n).count (.tx frame) = min n left := by
  unfold retryEvents
  split <;> simp

theorem count_done_retryEvents (h : Nat) (frame : Bytes) (left n : Nat) :
    (retryEvents h frame left n).count (.done h .retriesExhausted) = if left < n then 1 else 0 := by
  unfold retryEvents
  split <;> simp [List.count_replicate]

/-! ### Whose an event is -/

/-- What TICK emits for an entry: DONE under its handle, LOG, or its frame. -/
theorem mem_tickEvents (p : Params) (now : Clock) (h : Nat) (slot : OutSlot) (ev : Event)
    (hev : ev ∈ tickEvents p now h slot) :
    ev = .done h .retriesExhausted ∨ ev.isLog = true ∨ ∃ e, slot = .sent e ∧ ev = .tx e.frame := by
  cases slot with
  | free => cases hev
  | sent e =>
    by_cases hd : 0 ≤ sdiff32 now e.deadline
    · by_cases hr : e.retries < p.retryMax
      · rw [tickEvents_resend p now h e hd hr, List.mem_singleton] at hev
        exact .inr (.inr ⟨e, rfl, hev⟩)
      · rw [tickEvents_fail p now h e hd hr, List.mem_pair] at hev
        rcases hev with rfl | rfl
        · exact .inl rfl
        · exact .inr (.inl rfl)
    · rw [tickEvents_waiting p now h e hd] at hev
      cases hev

/-- TICK never changes the frame of an entry. -/
theorem frame_of_tickSlot (p : Params) (now : Clock) (slot : OutSlot) (e : OutEntry)
    (h : tickSlot p now slot = .sent e) : ∃ e', slot = .sent e' ∧ e'.frame = e.frame := by
  cases slot with
  | free => cases h
  | sent e' =>
    refine ⟨e', rfl, ?_⟩
    rw [tickSlot_sent] at h
    split at h
    · split at h
      · cases h
        rfl
      · cases h
    · cases h
      rfl

/-- Only the entry with handle `h` reports the failure of the send `h`. -/
theorem done_mem_slotEvents (p : Params) (h j : Nat) (times : List Clock) (slot : OutSlot)
    (hev : .done h .retriesExhausted ∈ slotEvents p j times slot) : h = j := by
  induction times generalizing slot with
  | nil => cases hev
  | cons now rest ih =>
    rcases List.mem_append.mp hev with hnow | hlater
    · rcases mem_tickEvents p now j slot _ hnow with heq | hlog | ⟨e, -, heq⟩
      · exact (Event.done.inj heq).1
      · cases hlog
      · cases heq
    · exact ih (tickSlot p now slot) hlater

/-- Only an entry that holds the frame `f` transmits it. -/
theorem tx_mem_slotEvents (p : Params) (j : Nat) (times : List Clock) (slot : OutSlot) (f : Bytes)
    (hev : .tx f ∈ slotEvents p j times slot) : ∃ e, slot = .sent e ∧ e.frame = f := by
  induction times generalizing slot with
  | nil => cases hev
  | cons now rest ih =>
    rcases List.mem_append.mp hev with hnow | hlater
    · rcases mem_tickEvents p now j slot _ hnow with heq | hlog | ⟨e, hslot, heq⟩
      · cases heq
      · cases hlog
      · exact ⟨e, hslot, (Event.tx.inj heq).symm⟩
    · obtain ⟨e, hslot, hframe⟩ := ih (tickSlot p now slot) hlater
      obtain ⟨e', hslot', hframe'⟩ := frame_of_tickSlot p now slot e hslot
      exact ⟨e', hslot', hframe'.trans hframe⟩

/-- An event that no entry causes is not in the scan. -/
theorem not_mem_tickScan (p : Params) (now : Clock) (ev : Event) (n : Nat) (out : List OutSlot)
    (h : ∀ j slot, out[j]? = some slot → ev ∉ tickEvents p now (n + j) slot) :
    ev ∉ tickScan p now n out := by
  induction out generalizing n with
  | nil => exact List.not_mem_nil
  | cons slot out ih =>
    rw [tickScan, List.mem_append, not_or]
    refine ⟨h 0 slot rfl, ih (n + 1) fun j slot' hj => ?_⟩
    rw [Nat.add_assoc, Nat.add_comm 1 j]
    exact h (j + 1) slot' hj

/-- An event that one entry alone can cause is in the scan as often as that entry causes it. -/
theorem count_tickScan (p : Params) (now : Clock) (ev : Event) (n : Nat) (out : List OutSlot)
    (i : Nat) (slot : OutSlot) (hslot : out[i]? = some slot)
    (hother : ∀ j slot', j ≠ i → out[j]? = some slot' → ev ∉ tickEvents p now (n + j) slot') :
    (tickScan p now n out).count ev = (tickEvents p now (n + i) slot).count ev := by
  induction out generalizing n i with
  | nil => cases hslot
  | cons first out ih =>
    rw [tickScan, List.count_append]
    have shift (j : Nat) : n + 1 + j = n + (j + 1) := by omega
    cases i with
    | zero =>
      cases hslot
      have hrest : ev ∉ tickScan p now (n + 1) out := not_mem_tickScan p now ev (n + 1) out
        fun j slot' hj => shift j ▸ hother (j + 1) slot' (Nat.succ_ne_zero j) hj
      rw [List.count_eq_zero_of_not_mem hrest, Nat.add_zero, Nat.add_zero]
    | succ i =>
      have hfirst : ev ∉ tickEvents p now n first := hother 0 first (Nat.zero_ne_add_one i) rfl
      rw [List.count_eq_zero_of_not_mem hfirst, Nat.zero_add, ← shift i]
      exact ih (n + 1) i hslot fun j slot' hj hget =>
        shift j ▸ hother (j + 1) slot' (fun heq => hj (Nat.succ.inj heq)) hget

/-! ### The whole table under a list of TICKs -/

/-- The events of TICKs at these times, one after the other. -/
def scanEvents (p : Params) : List Clock → List OutSlot → List Event
  | [], _ => []
  | now :: rest, out => tickScan p now 0 out ++ scanEvents p rest (out.map (tickSlot p now))

/-- An event that one entry alone can cause is among them as often as that entry causes it. -/
theorem count_scanEvents (p : Params) (times : List Clock) (ev : Event) (out : List OutSlot)
    (h : Nat) (slot : OutSlot) (hslot : out[h]? = some slot)
    (hother : ∀ j slot', j ≠ h → out[j]? = some slot' → ev ∉ slotEvents p j times slot') :
    (scanEvents p times out).count ev = (slotEvents p h times slot).count ev := by
  induction times generalizing out slot with
  | nil => rfl
  | cons now rest ih =>
    have hnow := count_tickScan p now ev 0 out h slot hslot fun j slot' hj hget hmem =>
      hother j slot' hj hget (List.mem_append_left _ (Nat.zero_add j ▸ hmem))
    have hlater := ih (out.map (tickSlot p now)) (tickSlot p now slot)
      (by rw [List.getElem?_map, hslot, Option.map_some]) fun j slot' hj hget hmem => by
        rw [List.getElem?_map, Option.map_eq_some_iff] at hget
        obtain ⟨before, hbefore, rfl⟩ := hget
        exact hother j before hj hbefore (List.mem_append_right _ hmem)
    rw [scanEvents, slotEvents, List.count_append, List.count_append, hnow, hlater, Nat.zero_add]

section
variable (p : Params) (times : List Clock) (out : List OutSlot) (h : Nat) (e : OutEntry)

/-- The send in entry `h` fails once, when more deadlines are reached than it has re-sends left. -/
theorem count_done_scanEvents (hslot : out[h]? = some (.sent e)) (hle : e.retries ≤ p.retryMax) :
    (scanEvents p times out).count (.done h .retriesExhausted) =
      if p.retryMax - e.retries < e.reached p times then 1 else 0 := by
  have hown := count_scanEvents p times (.done h .retriesExhausted) out h _ hslot
    fun j slot hj _ hmem => hj (done_mem_slotEvents p h j times slot hmem).symm
  rw [hown, slotEvents_sent p h times e hle, count_done_retryEvents]

/-- A frame that no other entry holds is re-sent once for each deadline reached, up to the re-sends
left. -/
theorem count_tx_scanEvents (hslot : out[h]? = some (.sent e)) (hle : e.retries ≤ p.retryMax)
    (hunique : ∀ j e', j ≠ h → out[j]? = some (.sent e') → e'.frame ≠ e.frame) :
    (scanEvents p times out).count (.tx e.frame) =
      min (e.reached p times) (p.retryMax - e.retries) := by
  have hown := count_scanEvents p times (.tx e.frame) out h _ hslot fun j slot hj hget hmem => by
    obtain ⟨e', rfl, hframe⟩ := tx_mem_slotEvents p j times slot e.frame hmem
    exact hunique j e' hj hget hframe
  rw [hown, slotEvents_sent p h times e hle, count_tx_retryEvents]

end

/-- Several TICKs treat every entry of OUT for itself, and emit their scans one after the other. -/
theorem runAll_tick (times : List Clock) (s : State) (hr : s.run = .running) :
    ∃ u, runAll (times.map Instr.tick) s = .next u ∧
      u.out = s.out.map (slotAfter s.params times) ∧
      u.events = s.events ++ scanEvents s.params times s.out := by
  induction times generalizing s with
  | nil => exact ⟨s, rfl, (List.map_id s.out).symm, (List.append_nil s.events).symm⟩
  | cons now rest ih =>
    have hexec : exec (.tick now) s = .next (tickRun now { s with result := {} }) :=
      execTick_running now s hr
    have hsetup := (tickRun_setup now { s with result := {} }).of_cleared
    obtain ⟨u, hrun, hout, hev⟩ := ih (tickRun now { s with result := {} }) (hsetup.run.trans hr)
    rw [hsetup.params, tickRun_out] at hout hev
    refine ⟨u, by simp only [List.map_cons, runAll, hexec, hrun], ?_, ?_⟩
    · rw [hout, List.map_map]
      rfl
    · rw [hev, tickRun_events, scanEvents, List.append_assoc]

/-! ### The statements -/

/-- Settles O44: TICK keeps every entry, so the scan is empty and counts nothing. -/
theorem tickBeforeDeadlines : Obligations.TickBeforeDeadlines := by
  unfold Obligations.TickBeforeDeadlines
  intro s now hr hwait
  have hkeep : ∀ slot ∈ s.out, tickAction s.params now slot = .keep := by
    intro slot hs
    cases slot with
    | free => rfl
    | sent e => exact tickAction_waiting s.params now e (Int.not_le.mpr (hwait e hs))
  refine (execTick_running now s hr).trans (congrArg _ ?_)
  simp only [tickRun, map_tickSlot_kept s.params now s.out hkeep,
    tickScan_kept s.params now s.out 0 hkeep,
    tickCount_kept s.params now s.out .resend (by decide) hkeep,
    tickCount_kept s.params now s.out .fail (by decide) hkeep]
  rfl

/-- Settles O45: SEND transmits the frame once and keeps it in its entry; under the TICKs that follow
the entry goes its own way, and its DONE, and the TX of a frame that no other entry holds, are its own. -/
theorem retryBound : Obligations.RetryBound := by
  unfold Obligations.RetryBound
  intro s op slid payload rssi now d r h frame times reached hr hd hc hrel hreply hv hl hfree hlow
    hframe hreached
  have hsend : Sendable d op slid payload s := ⟨hd, hc, hv, hl⟩
  have hexec := hsend.exec_entry rssi now hr hrel h (firstFree_eq_some s.out h hfree hlow)
  obtain rfl : frame = sendFrame s d op slid payload rssi := hframe
  generalize sendFrame s d op slid payload rssi = frame at hexec ⊢
  set e := newEntry s.params d op slid (s.txSeq + 1) frame now
  have hle : e.retries ≤ s.params.retryMax := Nat.zero_le _
  have hsum : e.retries + e.reached s.params times = reached :=
    (Nat.zero_add _).trans hreached.symm
  have hentry : (s.out.set h (.sent e))[h]? = some (.sent e) :=
    List.getElem?_set_self (List.getElem?_eq_some_iff.mp hfree).1
  obtain ⟨u, hrun, hout, hev⟩ := runAll_tick times (afterSend s frame (s.out.set h (.sent e))
    { status := .sentReliable, h := h, op := op, slid := slid, pkgNum := s.txSeq + 1 }) hr
  have hslot : u.out[h]? = some (slotAfter s.params times (.sent e)) := by
    rw [hout, List.getElem?_map]
    exact congrArg _ hentry
  refine ⟨u, .tx frame :: scanEvents s.params times (s.out.set h (.sent e)), ?run, ?events,
    fun hwithin => ?within, fun hbeyond => ?beyond, ?failures, fun hunique => ?transmissions⟩
  case run => simp only [runAll, hexec, hrun]
  case events => exact hev.trans (List.append_assoc _ _ _)
  case within =>
    obtain ⟨deadline, hafter⟩ := slotAfter_within s.params times e (hsum ▸ hwithin)
    exact ⟨_, hslot.trans (congrArg some hafter), rfl, rfl, rfl, rfl, hsum⟩
  case beyond => rw [hslot, slotAfter_beyond s.params times e hle (hsum ▸ hbeyond)]
  case failures =>
    rw [List.count_cons_of_ne (by simp), count_done_scanEvents s.params times _ h e hentry hle,
      hreached]
    rfl
  case transmissions =>
    have hothers (j : Nat) (e' : OutEntry) (hj : j ≠ h)
        (hget : (s.out.set h (.sent e))[j]? = some (.sent e')) : e'.frame ≠ e.frame := by
      rw [List.getElem?_set_ne hj.symm] at hget
      exact hunique _ (List.mem_of_getElem? hget) e' rfl
    have hresent := count_tx_scanEvents s.params times _ h e hentry hle hothers
    rw [List.count_cons_self, Nat.add_comm, hreached]
    exact congrArg (1 + ·) hresent

end Sys2Proof.Machine
end

section
/-! PROOFS. The statements on the bridge (spec/43_bridge.md): INNER_CHECK, ATTACH and CONSUME, bridge frames
dropped at a storeside SLC, the command FWD, and what one side of a bridge hands over to the other. -/

namespace Sys2Proof.Machine

/-! ### INNER_CHECK (R279), one equation per step -/

theorem innerCheck_nil (p : Params) : innerCheck p [] = some .sizeError := rfl

theorem innerCheck_unknownOp (p : Params) (op : OpCode) (rest : Bytes) (h : opLookup p op = none) :
    innerCheck p (op :: rest) = some .unknownOp := by
  simp only [innerCheck, h]

theorem innerCheck_shortHeader (p : Params) (op : OpCode) (rest : Bytes) (d : Descriptor)
    (hd : opLookup p op = some d) (hl : (op :: rest).length < hlen d.headerKind) :
    innerCheck p (op :: rest) = some .sizeError := by
  have hb : decodeKind d.headerKind (op :: rest) = none := (decodeKind_eq_none _ _).mpr hl
  simp only [innerCheck, hd, hb]

theorem innerCheck_header (p : Params) (op : OpCode) (rest : Bytes) (d : Descriptor) (hdr : Header)
    (payload : Bytes) (hd : opLookup p op = some d)
    (hb : decodeKind d.headerKind (op :: rest) = some (hdr, payload)) :
    innerCheck p (op :: rest) =
      if validSlid hdr.slid = false then some .outOfRange
      else if d.opClass = .bridge then some .bridgeRefused
      else none := by
  simp only [innerCheck, hd, hb]

/-- OPLOOKUP reads OPTAB and nothing else. -/
theorem opLookup_congr {p q : Params} (h : p.optab = q.optab) (op : OpCode) :
    opLookup p op = opLookup q op := by
  simp only [opLookup, h]

/-- INNER_CHECK reads OPTAB and nothing else, so two SLCs with one table agree on it. -/
theorem innerCheck_congr {p q : Params} (h : p.optab = q.optab) (x : Bytes) :
    innerCheck p x = innerCheck q x := by
  cases x with
  | nil => rfl
  | cons op rest => simp only [innerCheck, opLookup_congr h op]

/-! ### ATTACH and CONSUME (R277) -/

theorem attach_append (head inner : Bytes) (dest : Slid) :
    attach (head ++ inner) head.length dest = head ++ le32 dest ++ inner := by
  simp only [attach, List.take_left, List.drop_left]

theorem length_attach (raw : Bytes) (hl : Nat) (dest : Slid) :
    (attach raw hl dest).length = raw.length + 4 := by
  simp only [attach, List.length_append, List.length_take, List.length_drop, length_le32]
  omega

theorem consume_attach (raw : Bytes) (hl : Nat) (dest : Slid) (h : hl ≤ raw.length) :
    consume (attach raw hl dest) hl = some (raw, dest) := by
  have hhead : (raw.take hl).length = hl := List.length_take_of_le h
  calc consume (attach raw hl dest) hl
      = consume (raw.take hl ++ le32 dest ++ raw.drop hl) (raw.take hl).length := by
        rw [hhead, attach]
    _ = some (raw.take hl ++ raw.drop hl, dest) := consume_wire _ _ dest
    _ = some (raw, dest) := by rw [List.take_append_drop]

/-! ### BN dropped at a storeside SLC (R278) -/

section
variable (d : Descriptor) (hdr : Header) (head inner : Bytes) (dest : Slid) (s : State)

theorem consumeAndRelay_badDest (hh : head.length = hlen d.headerKind) (hi : 7 ≤ inner.length)
    (hv : validSlid dest = false) :
    consumeAndRelay d hdr (head ++ le32 dest ++ inner) s = raise .outOfRange (headerInfo hdr) s := by
  rw [consumeAndRelay_wire d hdr head inner dest s hh hi, if_pos hv]

/-- The exception that INNER_CHECK finds ends the command; an unknown inner op alone sets the ack (log
entry 14). -/
theorem consumeAndRelay_badInner (hh : head.length = hlen d.headerKind) (hi : 7 ≤ inner.length)
    (hv : validSlid dest = true) (k : Raised) (hk : innerCheck s.params inner = some k) :
    consumeAndRelay d hdr (head ++ le32 dest ++ inner) s =
      raise k { headerInfo hdr with ack := if k = .unknownOp then some .unexpected else none } s := by
  rw [consumeAndRelay_wire d hdr head inner dest s hh hi, if_neg (by simp [hv])]
  simp only [hk]
  cases k <;> rfl

end

/-- Where CONSUME_AND_RELAY raises, RESULT with the outer header and one LOG are all that BN leaves. -/
theorem exec_wireBN_raised (s : State) (slid : Slid) (pkg : PkgNum) (body : Bytes)
    (hr : s.run = .running) (ht : s.params.optab = defaultOptab)
    (hm : s.params.bridgeMode = .storeside) (hl : 7 + body.length ≤ s.params.maxFrame)
    (hv : validSlid slid = true) (k : Raised) (info : Result)
    (h : consumeAndRelay (bridgeRow .control .storeToNode) ⟨0x32, slid, pkg, 0⟩
        (encCtrl ⟨0x32, slid, pkg⟩ ++ body) { s with result := {} } =
      raise k info { s with result := {} }) :
    exec (.wireBN slid pkg body) s = .next { s with
      events := s.events ++ [.log .warn (raisedKind k)]
      result := { info with
        status := raisedStatus k, exc := some (raisedKind k), ioErr := false } } := by
  rw [exec_wireBN s slid pkg body hr ht hl hv, brgRx_consumes _ _ _ { s with result := {} } hm rfl,
    ctrlFrame, h, raise_cleared]

/-! ### FWD: what it turns away (R285 steps 3 to 6) -/

theorem fwdDirection_eq_some (m : BridgeMode) (dir : Direction) :
    fwdDirection m = some dir ↔
      (m = .nodeside ∧ dir = .storeToNode) ∨ (m = .storeside ∧ dir = .nodeToStore) := by
  cases m <;> cases dir <;> simp [fwdDirection]

theorem fwdRun_nil (dest : Slid) (s : State) : fwdRun [] dest s = raise .sizeError {} s := rfl

theorem fwdRun_unknownOp (op : OpCode) (rest : Bytes) (dest : Slid) (s : State)
    (h : opLookup s.params op = none) :
    fwdRun (op :: rest) dest s = raise .unknownOp { op := op } s := by
  simp only [fwdRun, h]

theorem fwdRun_refusedOp (op : OpCode) (rest : Bytes) (dest : Slid) (s : State) (d : Descriptor)
    (hd : opLookup s.params op = some d)
    (h : d.opClass ≠ .bridge ∨ fwdDirection s.params.bridgeMode ≠ some d.direction) :
    fwdRun (op :: rest) dest s = setResult { status := .bridgeRefused, op := op } s := by
  simp only [fwdRun, hd, if_pos h]

theorem fwdRun_short (op : OpCode) (rest : Bytes) (dest : Slid) (s : State) (d : Descriptor)
    (hd : opLookup s.params op = some d) (hb : d.opClass = .bridge)
    (hdir : fwdDirection s.params.bridgeMode = some d.direction)
    (hl : (op :: rest).length < hlen d.headerKind + 7) :
    fwdRun (op :: rest) dest s = raise .sizeError { op := op } s := by
  have hop : ¬ (d.opClass ≠ .bridge ∨ fwdDirection s.params.bridgeMode ≠ some d.direction) := by
    simp [hb, hdir]
  simp only [fwdRun, hd, if_neg hop, if_pos hl]

/-- Where FWD raises, RESULT and one LOG are all that it leaves. -/
theorem exec_fwd_raised (raw : Bytes) (dest : Slid) (s : State) (k : Raised) (info : Result)
    (hr : s.run = .running) (hm : s.params.bridgeMode ≠ .unbridged)
    (hl : raw.length ≤ s.params.maxFrame)
    (h : fwdRun raw dest { s with result := {} } = raise k info { s with result := {} }) :
    exec (.fwd raw dest) s = .next { s with
      events := s.events ++ [.log .warn (raisedKind k)]
      result := { info with
        status := raisedStatus k, exc := some (raisedKind k), ioErr := false } } := by
  have hexec : exec (.fwd raw dest) s = .next (fwdRun raw dest { s with result := {} }) :=
    execFwd_bridge raw dest s hr hm hl
  rw [hexec, h, raise_cleared]

/-! ### FWD: what it forwards (R285 steps 7 to 9) -/

/-- The frame is a bridge frame of the row `d` that FWD, in the mode of that row, forwards: its slid, the
destination and the inner frame are good. -/
structure Forwardable (p : Params) (raw : Bytes) (dest : Slid) (d : Descriptor) (hdr : Header)
    (inner : Bytes) : Prop where
  lookup : opLookup p (raw.headD 0) = some d
  bridge : d.opClass = .bridge
  decode : decodeKind d.headerKind raw = some (hdr, inner)
  slid_valid : validSlid hdr.slid = true
  dest_valid : validSlid dest = true
  inner_passes : innerCheck p inner = none

/-- The state FWD leaves when it transmits `w`: RESULT holds the bit `io_ok` that the TX drew. -/
def afterFwd (s : State) (hdr : Header) (w : Bytes) : State :=
  { s with
    events := s.events ++ [.tx w]
    draws := s.draws + 1
    result := { headerInfo hdr with status := .fwdSent, ioErr := !Config.ioOk s.draws } }

theorem setResult_emit_tx (s : State) (hdr : Header) (w : Bytes) :
    setResult { headerInfo hdr with status := .fwdSent } (emit (.tx w) { s with result := {} }) =
      afterFwd s hdr w := rfl

namespace Forwardable

variable {p q : Params} {raw : Bytes} {dest : Slid} {d : Descriptor} {hdr : Header} {inner : Bytes}
  {s : State}

/-- The far SLC of a bridge, with the same OPTAB, forwards the same frames. -/
theorem of_optab (h : Forwardable p raw dest d hdr inner) (ht : q.optab = p.optab) :
    Forwardable q raw dest d hdr inner :=
  { h with
    lookup := (opLookup_congr ht _).trans h.lookup
    inner_passes := (innerCheck_congr ht _).trans h.inner_passes }

theorem raw_eq (h : Forwardable p raw dest d hdr inner) :
    raw = encodeKind d.headerKind hdr.op hdr.slid hdr.pkgNum hdr.rssi ++ inner :=
  eq_of_decodeKind _ _ _ _ h.decode

theorem length_raw (h : Forwardable p raw dest d hdr inner) :
    raw.length = hlen d.headerKind + inner.length := by
  rw [h.raw_eq, List.length_append, length_encodeKind]

/-- Such a frame reaches step 9. -/
theorem fwdRun_eq (h : Forwardable s.params raw dest d hdr inner)
    (hdir : fwdDirection s.params.bridgeMode = some d.direction) :
    fwdRun raw dest s = fwdTransmit raw inner (hlen d.headerKind) dest hdr s := by
  have hlen7 : hlen d.headerKind + 7 ≤ raw.length :=
    h.length_raw ▸ Nat.add_le_add_left (length_of_innerCheck _ _ h.inner_passes) _
  obtain ⟨hd, hb, hk, hv, ht, hi⟩ := h
  cases raw with
  | nil => exact absurd hlen7 (by simp)
  | cons op rest =>
    rw [fwdRun_bridgeOp op rest dest s d hdr inner hd hb hdir hlen7 hk, if_neg (by simp [hv]),
      if_neg (by simp [ht])]
    simp only [hi]

/-- R286: a nodeside SLC transmits the inner frame. -/
theorem exec_toNode (h : Forwardable s.params raw dest d hdr inner) (hdir : d.direction = .storeToNode)
    (hr : s.run = .running) (hm : s.params.bridgeMode = .nodeside)
    (hl : raw.length ≤ s.params.maxFrame) :
    exec (.fwd raw dest) s = .next (afterFwd s hdr inner) := by
  have hexec : exec (.fwd raw dest) s = .next (fwdRun raw dest { s with result := {} }) :=
    execFwd_bridge raw dest s hr (by simp [hm]) hl
  rw [hexec, fwdRun_eq (s := { s with result := {} }) h
    ((fwdDirection_eq_some _ _).mpr (.inl ⟨hm, hdir⟩)), ← setResult_emit_tx]
  simp only [fwdTransmit, hm]

/-- R287: a storeside SLC attaches the destination, where there is room for it. -/
theorem exec_toStore (h : Forwardable s.params raw dest d hdr inner)
    (hdir : d.direction = .nodeToStore) (hr : s.run = .running)
    (hm : s.params.bridgeMode = .storeside) (hl : raw.length + 4 ≤ s.params.maxFrame) :
    exec (.fwd raw dest) s = .next (afterFwd s hdr (attach raw (hlen d.headerKind) dest)) := by
  have hexec : exec (.fwd raw dest) s = .next (fwdRun raw dest { s with result := {} }) :=
    execFwd_bridge raw dest s hr (by simp [hm]) (by omega)
  rw [hexec, fwdRun_eq (s := { s with result := {} }) h
    ((fwdDirection_eq_some _ _).mpr (.inr ⟨hm, hdir⟩)), ← setResult_emit_tx]
  simp only [fwdTransmit, hm, if_neg (Nat.not_lt.mpr hl)]

theorem exec_tooLong (h : Forwardable s.params raw dest d hdr inner)
    (hdir : d.direction = .nodeToStore) (hr : s.run = .running)
    (hm : s.params.bridgeMode = .storeside) (hl : raw.length ≤ s.params.maxFrame)
    (hlong : s.params.maxFrame < raw.length + 4) :
    exec (.fwd raw dest) s = .next { s with
      events := s.events ++ [.log .warn .frameTooLong]
      result := { headerInfo hdr with status := .tooLong, exc := some .frameTooLong, ioErr := false } } := by
  refine exec_fwd_raised raw dest s .frameTooLong (headerInfo hdr) hr (by simp [hm]) hl ?_
  rw [fwdRun_eq (s := { s with result := {} }) h
    ((fwdDirection_eq_some _ _).mpr (.inr ⟨hm, hdir⟩))]
  simp only [fwdTransmit, hm, if_pos hlong]

/-- The wire form at a storeside SLC: header, destination, inner frame. -/
theorem attach_eq (h : Forwardable p raw dest d hdr inner) :
    attach raw (hlen d.headerKind) dest =
      encodeKind d.headerKind hdr.op hdr.slid hdr.pkgNum hdr.rssi ++ le32 dest ++ inner := by
  rw [h.raw_eq, ← length_encodeKind d.headerKind hdr.op hdr.slid hdr.pkgNum hdr.rssi, attach_append]

/-- A port form with a control header, written out from its parts. -/
theorem ofCtrlFrame {op : OpCode} {slid : Slid} {pkg : PkgNum} (hd : opLookup p op = some d)
    (hb : d.opClass = .bridge) (hk : d.headerKind = .control) (hv : validSlid slid = true)
    (ht : validSlid dest = true) (hi : innerCheck p inner = none) :
    Forwardable p (ctrlFrame op slid pkg inner) dest d ⟨op, slid, pkg, 0⟩ inner :=
  ⟨hd, hb, hk ▸ decodeKind_ctrlFrame op slid pkg inner, hv, ht, hi⟩

/-- A port form with a data header, written out from its parts. -/
theorem ofDataFrame {op : OpCode} {slid : Slid} {pkg : PkgNum} {rssi : Byte}
    (hd : opLookup p op = some d) (hb : d.opClass = .bridge) (hk : d.headerKind = .data)
    (hv : validSlid slid = true) (ht : validSlid dest = true) (hi : innerCheck p inner = none) :
    Forwardable p (dataFrame op slid pkg rssi inner) dest d ⟨op, slid, pkg, rssi⟩ inner :=
  ⟨hd, hb, hk ▸ decodeKind_dataFrame op slid pkg rssi inner, hv, ht, hi⟩

end Forwardable

/-! ### What an SLC hands over on BRIDGE_OUT -/

/-- How an SLC with these parameters and this OWN_SLID comes to hand over `raw` and `dest` for an arriving
frame `b`: it relays a plain frame (R273, R274), or it takes `to_slid` out of a wire form (R278). -/
inductive HandsOver (p : Params) (own : Slid) (b raw : Bytes) (dest : Slid) : Prop where
  | plain (d : Descriptor) (hdr : Header) (payload : Bytes) (hd : opLookup p (b.headD 0) = some d)
      (hc : d.opClass ≠ .bridge) (hk : decodeKind d.headerKind b = some (hdr, payload))
      (hv : validSlid hdr.slid = true) (hch : relayCheck p b.length = none)
      (ho : relayOutput p own d hdr b = some (raw, dest))
  | wire (d : Descriptor) (hdr : Header) (head inner : Bytes) (hd : opLookup p (b.headD 0) = some d)
      (hb : d.opClass = .bridge) (hdir : d.direction = .storeToNode) (hm : p.bridgeMode = .storeside)
      (hk : decodeKind d.headerKind b = some (hdr, le32 dest ++ inner))
      (hv : validSlid hdr.slid = true) (hw : b = head ++ le32 dest ++ inner)
      (hl : head.length = hlen d.headerKind) (ht : validSlid dest = true)
      (hi : innerCheck p inner = none) (hraw : raw = head ++ inner)

theorem raisedStatus_ne_relayed (k : Raised) : raisedStatus k ≠ .rxRelayed := by
  cases k <;> decide

theorem softStatus_ne_relayed (code : AckCode) : softStatus code ≠ .rxRelayed := by
  cases code <;> decide

/-- The last event of an arrival that ends RX_RELAYED is what it hands over. -/
theorem handsOver_of_rxEnd {s t : State} {b raw : Bytes} {dest : Slid} {before : List Event}
    (h : RxEnd b s t) (hst : t.result.status = .rxRelayed)
    (hev : t.events = before ++ [.bridgeOut raw dest]) :
    HandsOver s.params s.ownSlid b raw dest := by
  cases h with
  | raised k info => exact absurd (by simpa using hst) (raisedStatus_ne_relayed k)
  | turnedAway info h =>
    have hst' : info.status = .rxRelayed := hst
    simp [hst'] at h
  | ackDropped info k h =>
    have hst' : info.status = .rxRelayed := hst
    simp [hst'] at h
  | ackMatched => cases hst
  | unwrapped d hdr head inner dest' hd hb hdir hm hk hv hw hl ht hi =>
    cases (List.append_inj' hev rfl).2
    exact .wire d hdr head inner hd hb hdir hm hk hv hw hl ht hi rfl
  | ackRelayed d hdr payload raw' dest' hd hc hk hv hr hch ho =>
    cases (List.append_inj' hev rfl).2
    exact .plain d hdr payload hd (by simp [hc]) hk hv hch ho
  | plain d hdr payload reply last code status hd hc hk hv hf hcode he =>
    have hst' : status = .rxRelayed := hst
    cases he with
    | dropped _ hs => exact absurd (hs.symm.trans hst') (softStatus_ne_relayed code)
    | delivered _ hs | recognized _ hs => cases hs.symm.trans hst'
    | relayed raw' dest' _ _ hl hr ho =>
      rw [setResult_events, emitAll_events, hl, ← List.append_assoc] at hev
      cases (List.append_inj' hev rfl).2
      have hch : relayCheck s.params b.length = none :=
        ((feasible_iff s d b).mp hf).resolve_left (by simp [hr])
      exact .plain d hdr payload hd (by rcases hc with hc | hc <;> simp [hc]) hk hv hch ho

/-- An arrival that ends RX_RELAYED was taken while Running, and hands over its last event. -/
theorem handsOver_of_relayed {s t : State} {b raw : Bytes} {dest : Slid} {before : List Event}
    (h : exec (.rx b) s = .next t) (hst : t.result.status = .rxRelayed)
    (hev : t.events = before ++ [.bridgeOut raw dest]) :
    s.run = .running ∧ HandsOver s.params s.ownSlid b raw dest := by
  rcases receive_next b s t h with ⟨hr, -, rfl⟩ | ⟨-, rfl⟩
  · exact ⟨hr, handsOver_of_rxEnd (s := { s with result := {} }) (rxRun_ends b _) hst hev⟩
  · cases hst

/-- A frame that passes INNER_CHECK behind its relay: a plain one with a valid slid. -/
theorem innerCheck_of_plain {p : Params} {b : Bytes} {d : Descriptor} {hdr : Header} {payload : Bytes}
    (hd : opLookup p (b.headD 0) = some d) (hc : d.opClass ≠ .bridge)
    (hk : decodeKind d.headerKind b = some (hdr, payload)) (hv : validSlid hdr.slid = true) :
    innerCheck p b = none := by
  cases b with
  | nil =>
    have hshort := (decodeKind_eq_none d.headerKind []).mpr (by cases d.headerKind <;> decide)
    cases hshort.symm.trans hk
  | cons op rest => exact innerCheck_plain p op rest d hdr payload hd hk hv hc

/-- At a nodeside SLC a passed RELAY_CHECK has validated STORE_SLID. -/
theorem validSlid_of_relayCheck (p : Params) (n : Nat) (hm : p.bridgeMode = .nodeside)
    (h : relayCheck p n = none) : validSlid p.storeSlid = true := by
  by_contra hv
  cases h.symm.trans (relayCheck_badStore p n hm (by simpa using hv))

/-- Under a well-formed table BN is of control kind (R172 condition 4). -/
theorem control_of_bridge_toNode {p : Params} {op : OpCode} {d : Descriptor} (hw : p.wf = true)
    (hd : opLookup p op = some d) (hb : d.opClass = .bridge) (hdir : d.direction = .storeToNode) :
    d.headerKind = .control := by
  have hk := bridge_of_opLookup p op d hw hd hb
  cases h : d.headerKind with
  | control => rfl
  | data => simp [hk.mp h] at hdir

namespace HandsOver

variable {p : Params} {own : Slid} {b raw : Bytes} {dest : Slid}

/-- What a nodeside SLC hands over is a BS frame around the arriving frame, fit for FWD (R273). -/
theorem forwardable_toStore (h : HandsOver p own b raw dest) (hw : p.wf = true)
    (hown : validSlid own = true) (hm : p.bridgeMode = .nodeside) :
    ∃ d hdr, Forwardable p raw dest d hdr b ∧ d.direction = .nodeToStore ∧ d.headerKind = .data := by
  cases h with
  | wire _ _ _ _ _ _ _ hm' => cases hm.symm.trans hm'
  | plain d hdr payload hd hc hk hv hch ho =>
    obtain ⟨dB, hdB, hbB, hdirB⟩ := opLookup_bridgeOp p .nodeToStore hw
    have hkB : dB.headerKind = .data := (bridge_of_opLookup p _ dB hw hdB hbB).mpr hdirB
    simp only [relayOutput, hm, Option.some.injEq, Prod.mk.injEq] at ho
    obtain ⟨rfl, rfl⟩ := ho
    exact ⟨dB, _, .ofDataFrame hdB hbB hkB hown (validSlid_of_relayCheck p _ hm hch)
      (innerCheck_of_plain hd hc hk hv), hdirB, hkB⟩

/-- What a storeside SLC hands over is a BN frame, fit for FWD, around the arriving frame (R274) or around
the inner frame of the arriving wire form (R278). -/
theorem forwardable_toNode (h : HandsOver p own b raw dest) (hw : p.wf = true)
    (hown : validSlid own = true) (hm : p.bridgeMode = .storeside) :
    ∃ d hdr inner, Forwardable p raw dest d hdr inner ∧ d.direction = .storeToNode ∧
      d.headerKind = .control ∧ ∃ d', opLookup p (b.headD 0) = some d' ∧
        (d'.opClass ≠ .bridge ∧ inner = b ∨ d'.opClass = .bridge ∧ inner = b.drop 11) := by
  cases h with
  | plain d hdr payload hd hc hk hv hch ho =>
    obtain ⟨dB, hdB, hbB, hdirB⟩ := opLookup_bridgeOp p .storeToNode hw
    have hkB := control_of_bridge_toNode hw hdB hbB hdirB
    simp only [relayOutput, hm, Option.some.injEq, Prod.mk.injEq] at ho
    obtain ⟨rfl, rfl⟩ := ho
    exact ⟨dB, _, b, .ofCtrlFrame hdB hbB hkB hown hv (innerCheck_of_plain hd hc hk hv), hdirB, hkB,
      d, hd, .inl ⟨hc, rfl⟩⟩
  | wire d hdr head inner hd hb hdir _ hk hv hwire hl ht hi hraw =>
    have hkB := control_of_bridge_toNode hw hd hb hdir
    rw [hkB] at hk hl
    have hframe : b = encCtrl ⟨hdr.op, hdr.slid, hdr.pkgNum⟩ ++ (le32 dest ++ inner) :=
      eq_of_decodeKind _ _ _ _ hk
    obtain ⟨rfl, -⟩ : head = encCtrl ⟨hdr.op, hdr.slid, hdr.pkgNum⟩ ∧ _ :=
      List.append_inj ((List.append_assoc _ _ _).symm.trans (hwire.symm.trans hframe)) hl
    have hop : b.headD 0 = hdr.op := by rw [hframe]; rfl
    have hdrop : b.drop 11 = inner := by rw [hwire]; rfl
    rw [hraw]
    exact ⟨d, _, inner, .ofCtrlFrame (hop ▸ hd) hb hkB hv ht hi, hdir, hkB,
      d, hd, .inr ⟨hb, hdrop.symm⟩⟩

end HandsOver

/-! ### The statements -/

/-- Settles O30: each of the three tests of CONSUME_AND_RELAY raises before BRIDGE_OUT. -/
theorem bridgeFrameToNodeDropped : Obligations.BridgeFrameToNodeDropped := by
  unfold Obligations.BridgeFrameToNodeDropped
  intro s slid pkg hr ht hm hv
  have dropped := exec_wireBN_raised s slid pkg
  have room (dest : Slid) (inner : Bytes) (hl : 11 + inner.length ≤ s.params.maxFrame) :
      7 + (le32 dest ++ inner).length ≤ s.params.maxFrame := by
    rw [List.length_append, length_le32]
    omega
  refine ⟨fun body hshort hl => ?short, fun dest inner hi hl hdest => ?badDest,
    fun dest inner k hi hl hdest hk => ?badInner⟩
  case short =>
    refine dropped body hr ht hm hl hv _ _ (consumeAndRelay_short _ _ _ _ ?_)
    rw [List.length_append, length_encCtrl]
    exact hshort
  case badDest =>
    have hraise := consumeAndRelay_badDest (bridgeRow .control .storeToNode) ⟨0x32, slid, pkg, 0⟩
      (encCtrl ⟨0x32, slid, pkg⟩) inner dest { s with result := {} } (length_encCtrl _) hi hdest
    rw [List.append_assoc] at hraise
    exact dropped _ hr ht hm (room dest inner hl) hv .outOfRange _ hraise
  case badInner =>
    have hraise := consumeAndRelay_badInner (bridgeRow .control .storeToNode) ⟨0x32, slid, pkg, 0⟩
      (encCtrl ⟨0x32, slid, pkg⟩) inner dest { s with result := {} } (length_encCtrl _) hi hdest k hk
    rw [List.append_assoc] at hraise
    exact dropped _ hr ht hm (room dest inner hl) hv k _ hraise

/-- Settles O31: one equation per step of INNER_CHECK; no condition on the table is needed. -/
theorem innerCheckOrder : Obligations.InnerCheckOrder := by
  unfold Obligations.InnerCheckOrder
  intro p _
  exact ⟨innerCheck_nil p, innerCheck_unknownOp p, innerCheck_shortHeader p, innerCheck_header p⟩

/-- Settles O35: CONSUME splits where ATTACH has joined. -/
theorem consumeUndoesAttach : Obligations.ConsumeUndoesAttach := by
  unfold Obligations.ConsumeUndoesAttach
  intro raw hl dest h
  exact ⟨rfl, length_attach raw hl dest, consume_attach raw hl dest h⟩

/-- Settles O36: BN is forwardable, and a nodeside SLC transmits what it holds. -/
theorem fwdUnwrapsTowardNode : Obligations.FwdUnwrapsTowardNode := by
  unfold Obligations.FwdUnwrapsTowardNode
  intro s slid pkg inner dest hr ht hm hl hv hdest hi
  have hfwd : Forwardable s.params (ctrlFrame 0x32 slid pkg inner) dest
      (bridgeRow .control .storeToNode) ⟨0x32, slid, pkg, 0⟩ inner :=
    .ofCtrlFrame (opLookup_default _ ht _ _ rfl) rfl rfl hv hdest hi
  exact hfwd.exec_toNode rfl hr hm (by rwa [length_ctrlFrame])

/-- Settles O37: BS is forwardable, and a storeside SLC attaches the destination where there is room. -/
theorem fwdWrapsTowardStore : Obligations.FwdWrapsTowardStore := by
  unfold Obligations.FwdWrapsTowardStore
  intro s slid pkg rssi inner dest hr ht hm hl hv hdest hi
  have hfwd : Forwardable s.params (dataFrame 0x33 slid pkg rssi inner) dest
      (bridgeRow .data .nodeToStore) ⟨0x33, slid, pkg, rssi⟩ inner :=
    .ofDataFrame (opLookup_default _ ht _ _ rfl) rfl rfl hv hdest hi
  have hlength := length_dataFrame 0x33 slid pkg rssi inner
  refine ⟨fun hroom => ?fits, fun hlong => ?tooLong⟩
  case fits =>
    have hexec := hfwd.exec_toStore rfl hr hm (by omega)
    rwa [hfwd.attach_eq] at hexec
  case tooLong => exact hfwd.exec_tooLong rfl hr hm (by omega) (by omega)

/-- Settles O38: the steps of FWD in turn, each with the exception or the refusal that ends it. -/
theorem fwdTurnsAway : Obligations.FwdTurnsAway := by
  unfold Obligations.FwdTurnsAway
  refine ⟨fun s raw dest => execFwd_unbridged raw dest s, fun s dest hr hm => ?empty,
    fun s op rest dest hr hm hl hrange => ?unknown, fun s op rest dest d hr hm hl hd hother => ?refused,
    fun s op rest dest d hr hl hd hb hmode => ?bridgeOp⟩
  case empty => exact exec_fwd_raised [] dest s .sizeError {} hr hm (Nat.zero_le _) (fwdRun_nil dest _)
  case unknown =>
    exact exec_fwd_raised _ dest s .unknownOp _ hr hm hl
      (fwdRun_unknownOp op rest dest _ (opLookup_out_of_range s.params op hrange))
  case refused =>
    have hnot : d.opClass ≠ .bridge ∨ fwdDirection s.params.bridgeMode ≠ some d.direction := by
      refine hother.imp_right fun h hdir => ?_
      rcases (fwdDirection_eq_some _ _).mp hdir with ⟨hm', hd'⟩ | ⟨hm', hd'⟩ <;> simp [hm', hd'] at h
    exact (execFwd_bridge _ dest s hr hm hl).trans
      (congrArg _ (fwdRun_refusedOp op rest dest { s with result := {} } d hd hnot))
  case bridgeOp =>
    have hm : s.params.bridgeMode ≠ .unbridged := by
      rcases hmode with ⟨hm, -⟩ | ⟨hm, -⟩ <;> simp [hm]
    have hdir := (fwdDirection_eq_some _ _).mpr hmode
    refine ⟨fun hshort => ?short, fun hdr inner hlong hk => ?decoded⟩
    case short =>
      exact exec_fwd_raised _ dest s .sizeError _ hr hm hl
        (fwdRun_short op rest dest { s with result := {} } d hd hb hdir hshort)
    case decoded =>
      have hrun := fwdRun_bridgeOp op rest dest { s with result := {} } d hdr inner hd hb hdir hlong hk
      have raised := fun k => exec_fwd_raised (op :: rest) dest s k (headerInfo hdr) hr hm hl
      refine ⟨fun hbad => raised .outOfRange (hrun.trans ?badSlid),
        fun k hv ht hi => raised k (hrun.trans ?badInner)⟩
      case badSlid =>
        split
        · rfl
        · rename_i hv
          rw [if_pos (hbad.resolve_left hv)]
      case badInner =>
        rw [if_neg (by simp [hv]), if_neg (by simp [ht])]
        simp only [hi]

/-- Settles O39: what one side hands over is forwardable at the other, and FWD transmits the frame it
holds. -/
theorem bridgeFidelity : Obligations.BridgeFidelity := by
  unfold Obligations.BridgeFidelity
  intro b raw dest s t u before hinv hru htab hexec hst hev
  obtain ⟨hrs, hout⟩ := handsOver_of_relayed hexec hst hev
  have hw := hinv.params_wf
  have hown := hinv.own_valid hrs
  refine ⟨fun hms hmu hroom => ?toStore, fun hms hmu hroom => ?toNode⟩
  case toStore =>
    obtain ⟨d, hdr, hfwd, hdir, hkind⟩ := hout.forwardable_toStore hw hown hms
    have hlength := hfwd.length_raw
    simp only [hkind, hlen] at hlength
    refine ⟨_, _, (hfwd.of_optab htab).exec_toStore hdir hru hmu (by omega), rfl, rfl, ?_, ?_,
      rfl, rfl, rfl⟩
    · rw [length_attach]
      omega
    · rw [hfwd.attach_eq, hkind]
      rfl
  case toNode =>
    obtain ⟨d, hdr, inner, hfwd, hdir, hkind, d', hd', hinner⟩ :=
      hout.forwardable_toNode hw hown hms
    have hlength := hfwd.length_raw
    simp only [hkind, hlen] at hlength
    have hle : inner.length ≤ b.length := by
      rcases hinner with ⟨-, rfl⟩ | ⟨-, rfl⟩
      · exact le_rfl
      · rw [List.length_drop]
        omega
    refine ⟨_, _, (hfwd.of_optab htab).exec_toNode hdir hru hmu (by omega), rfl, rfl, rfl, rfl, rfl,
      fun hplain => ?_, fun hbridge => ?_⟩
    · exact (hinner.resolve_right fun h => hplain d' hd' h.1).2
    · exact (hinner.resolve_left fun h => h.1 (hbridge d' hd')).2

end Sys2Proof.Machine
end

section
/-! PROOFS. The statement on exceptions (spec/60_exceptions.md R332): a command that ends in an exception
or a refusal leaves no trace but RESULT, and RUN under CFG_LOAD. -/

namespace Sys2Proof.Machine

/-! ### Commands turned away, and commands without a trace (R332) -/

/-- RESULT tells of an exception or of one of the refusals of R332. -/
def Result.TurnsAway (r : Result) : Prop := r.exc ≠ none ∨ noEffectStatus r.status = true

theorem not_turnsAway {r : Result} (hx : r.exc = none) (hs : noEffectStatus r.status = false) :
    ¬ r.TurnsAway := by
  simp [Result.TurnsAway, hx, hs]

/-- What a command that is turned away leaves alone, RUN aside: CFG_LOAD may make it Fatal. -/
structure Traceless (s t : State) : Prop where
  seq : t.seq = s.seq
  out : t.out = s.out
  txSeq : t.txSeq = s.txSeq
  ownSlid : t.ownSlid = s.ownSlid
  events : visible t.events = visible s.events

/-- Clearing RESULT at the start of a command is no trace. -/
theorem Traceless.of_cleared {s t : State} {r : Result}
    (h : Traceless { s with result := r } t) : Traceless s t :=
  ⟨h.seq, h.out, h.txSeq, h.ownSlid, h.events⟩

theorem visible_append_log (es : List Event) (level : LogLevel) (k : ExcKind) :
    visible (es ++ [.log level k]) = visible es := by
  simp [visible, Event.isLog]

/-- A refusal writes RESULT alone. -/
theorem traceless_setResult (r : Result) (s : State) : Traceless s (setResult r s) :=
  ⟨rfl, rfl, rfl, rfl, rfl⟩

/-- An exception writes RESULT and a LOG (R320). -/
theorem traceless_raise (k : Raised) (info : Result) (s : State) : Traceless s (raise k info s) :=
  ⟨rfl, rfl, rfl, rfl, visible_append_log _ _ _⟩

theorem traceless_cfgFatal (k : ExcKind) (slid : Slid) (s : State) :
    Traceless s (cfgFatal k slid s) :=
  ⟨rfl, rfl, rfl, rfl, visible_append_log _ _ _⟩

/-! ### The ends of RX, SEND and FWD -/

/-- A frame of class App or Admin that got as far as its reply is not turned away: the AckCodes other
than SUCCESS have statuses of their own, without an exception. -/
theorem plainEnd_hasEffect {s : State} {d : Descriptor} {hdr : Header} {payload b : Bytes}
    {code : AckCode} {last : List Event} {status : Status}
    (h : PlainEnd s d hdr payload b code last status) : noEffectStatus status = false := by
  cases h with
  | dropped _ hs => subst hs; cases code <;> rfl
  | relayed _ _ _ hs | delivered _ hs | recognized _ hs => subst hs; rfl

theorem rxEnd_traceless {b : Bytes} {s t : State} (h : RxEnd b s t) (ht : t.result.TurnsAway) :
    Traceless s t := by
  cases h with
  | raised k info => exact traceless_raise k info s
  | turnedAway info => exact traceless_setResult info s
  | unwrapped | ackMatched | ackRelayed => exact absurd ht (not_turnsAway rfl rfl)
  | ackDropped info k h hx =>
    have hs : noEffectStatus info.status = false := by rcases h with h | h <;> rw [h] <;> rfl
    exact absurd ht (not_turnsAway hx hs)
  | plain _ _ _ _ _ _ _ _ _ _ _ _ _ he =>
    exact absurd ht (not_turnsAway rfl (plainEnd_hasEffect he))

theorem sendEnd_traceless {op : OpCode} {slid : Slid} {payload : Bytes} {rssi : Byte} {now : Clock}
    {s t : State} (h : SendEnd op slid payload rssi now s t) (ht : t.result.TurnsAway) :
    Traceless s t := by
  cases h with
  | raised k info => exact traceless_raise k info s
  | refused info => exact traceless_setResult info s
  | sent | sentReliable => exact absurd ht (not_turnsAway rfl rfl)

theorem fwdEnd_traceless {s t : State} (h : FwdEnd s t) (ht : t.result.TurnsAway) :
    Traceless s t := by
  cases h with
  | raised k info => exact traceless_raise k info s
  | turnedAway info => exact traceless_setResult info s
  | forwarded => exact absurd ht (not_turnsAway rfl rfl)

/-! ### Every instruction -/

/-- Every command either is not turned away or leaves no trace. -/
theorem exec_traceless {i : Instr} {s t : State} (h : exec i s = .next t)
    (ht : t.result.TurnsAway) : Traceless s t := by
  cases exec_ends i s t h with
  | arrival b t _ _ _ _ hend => exact (rxEnd_traceless hend ht).of_cleared
  | send op slid payload rssi now t _ _ hend => exact (sendEnd_traceless hend ht).of_cleared
  | fwd raw dest t _ _ _ _ hend => exact (fwdEnd_traceless hend ht).of_cleared
  | notRunning | noEntry | fwdInert | cfgRefused => exact ⟨rfl, rfl, rfl, rfl, rfl⟩
  | cfgFatal record k slid => exact traceless_cfgFatal k slid s
  | tick | cancelled | cancelAll | reset | cfgOk => exact absurd ht (not_turnsAway rfl rfl)

/-- RESET is never turned away. -/
theorem execReset_not_turnsAway {s t : State} (h : exec .reset s = .next t) :
    ¬ t.result.TurnsAway := by
  cases h
  exact not_turnsAway rfl rfl

/-- A command that is turned away leaves RUN, unless it is CFG_LOAD. -/
theorem exec_run_of_turnsAway {i : Instr} {s t : State} (h : exec i s = .next t)
    (ht : t.result.TurnsAway) : t.run = s.run ∨ ∃ r, i = .cfgLoad r := by
  rcases exec_run i s t h with hrun | rfl | hcfg
  · exact .inl hrun
  · exact absurd ht (execReset_not_turnsAway h)
  · exact .inr hcfg

/-! ### The statement -/

/-- Settles O52, by the ends of each command: one that is turned away wrote RESULT and at most a LOG. -/
theorem precisionLaw : Obligations.PrecisionLaw := by
  unfold Obligations.PrecisionLaw
  intro i s t h ht
  obtain ⟨hseq, hout, htx, hown, hev⟩ := exec_traceless h ht
  exact ⟨hseq, hout, htx, hown, exec_run_of_turnsAway h ht, hev⟩

end Sys2Proof.Machine
end

section
/-! PROOFS. The statements on RESET, CFG_LOAD and the run-state gate (spec/70_reset_and_hazards.md R350
to R356). -/

namespace Sys2Proof.Machine

/-! ### RESET (R350) -/

theorem exec_reset (s : State) : exec .reset s = .next { s with
    run := .unconfigured
    ownSlid := Config.unspecifiedSlid s.draws
    draws := s.draws + 1
    txSeq := 0
    seq := []
    out := List.replicate s.params.nOut .free
    result := {} } := rfl

/-! ### CFG_LOAD in Unconfigured (R352) -/

theorem exec_cfgLoad_unconfigured (record : Option Bytes) (s : State) (h : s.run = .unconfigured) :
    exec (.cfgLoad record) s = .next (cfgLoadRun record s) := by
  simp only [exec, execCfgLoad, h]

/-- A record that is absent, or too short to hold version and slid (R324). -/
theorem cfgLoadRun_notInitialized (record : Option Bytes) (s : State)
    (h : ∀ b, record = some b → b.length < 5) :
    cfgLoadRun record s = cfgFatal .configNotInitialized 0 s := by
  unfold cfgLoadRun
  split
  next version s0 s1 s2 s3 more =>
    have hshort := h _ rfl
    simp only [List.length_cons] at hshort
    omega
  next => rfl

/-- A record that holds its first five bytes: a version byte and a slid (R353). -/
theorem cfgLoadRun_record (version : Byte) (slid : Slid) (more : Bytes) (s : State) :
    cfgLoadRun (some ([version] ++ le32 slid ++ more)) s =
      if version ≠ s.params.nodeConfigVersion then cfgFatal .configVersionMismatch 0 s
      else if validSlid slid = false then cfgFatal .addressOutOfRange slid s
      else { s with ownSlid := slid, run := .running, result := { status := .cfgOk, slid := slid } } := by
  simp only [le32, List.cons_append, List.nil_append, cfgLoadRun, cfgRecord, fromLe32_le32]

theorem exec_cfgLoad_wrongVersion (s : State) (version : Byte) (slid : Slid) (more : Bytes)
    (hr : s.run = .unconfigured) (hv : version ≠ s.params.nodeConfigVersion) :
    exec (.cfgLoad (some ([version] ++ le32 slid ++ more))) s =
      .next (cfgFatal .configVersionMismatch 0 s) := by
  rw [exec_cfgLoad_unconfigured _ s hr, cfgLoadRun_record, if_pos hv]

theorem exec_cfgLoad_badSlid (s : State) (slid : Slid) (more : Bytes)
    (hr : s.run = .unconfigured) (hs : validSlid slid = false) :
    exec (.cfgLoad (some ([s.params.nodeConfigVersion] ++ le32 slid ++ more))) s =
      .next (cfgFatal .addressOutOfRange slid s) := by
  rw [exec_cfgLoad_unconfigured _ s hr, cfgLoadRun_record, if_neg (not_not.mpr rfl), if_pos hs]

theorem exec_cfgLoad_good (s : State) (slid : Slid) (more : Bytes)
    (hr : s.run = .unconfigured) (hs : validSlid slid = true) :
    exec (.cfgLoad (some ([s.params.nodeConfigVersion] ++ le32 slid ++ more))) s = .next { s with
      ownSlid := slid, run := .running, result := { status := .cfgOk, slid := slid } } := by
  rw [exec_cfgLoad_unconfigured _ s hr, cfgLoadRun_record, if_neg (not_not.mpr rfl),
    if_neg (by simp [hs])]

/-! ### Outside Running (R356) -/

/-- Every arriving frame and every command but RESET and CFG_LOAD passes the gate `whenRunning`. -/
theorem exec_notRunning (i : Instr) (s : State) (hr : s.run ≠ .running) (hreset : i ≠ .reset)
    (hcfg : ∀ r, i ≠ .cfgLoad r) :
    exec i s = .next { s with result := { status := .notRunning } } := by
  cases i with
  | reset => exact absurd rfl hreset
  | cfgLoad record => exact absurd rfl (hcfg record)
  | send op slid payload rssi now =>
    exact whenRunning_not_running (fun r => .next (sendRun op slid payload rssi now r)) s hr
  | tick now => exact whenRunning_not_running (fun r => .next (tickRun now r)) s hr
  | cancel h => exact execCancel_notRunning h s hr
  | cancelAll => exact execCancelAll_notRunning s hr
  | _ => exact whenRunning_not_running _ s hr

/-- The two statuses with which a Fatal SLC answers (R355). -/
def Result.Blocked (r : Result) : Prop := r.status = .notRunning ∨ r.status = .refusedState

/-- In Fatal a command other than RESET writes RESULT alone. -/
theorem exec_fatal (i : Instr) (s : State) (hr : s.run = .fatal) (hreset : i ≠ .reset) :
    ∃ r, exec i s = .next { s with result := r } ∧ r.Blocked := by
  by_cases hcfg : ∃ record, i = .cfgLoad record
  · obtain ⟨record, rfl⟩ := hcfg
    exact ⟨_, execCfgLoad_refused record s (by simp [hr]), .inr rfl⟩
  · exact ⟨_, exec_notRunning i s (by simp [hr]) hreset (not_exists.mp hcfg), .inl rfl⟩

/-- In Fatal so does every list of commands without RESET: each finds SLC Fatal again. The premise
`h` carries the answer of the commands before through the induction. -/
theorem runAll_fatal (commands : List Instr) (s : State) (hr : s.run = .fatal)
    (hreset : Instr.reset ∉ commands) :
    ∃ r, runAll commands s = .next { s with result := r } ∧
      (commands ≠ [] ∨ s.result.Blocked → r.Blocked) := by
  induction commands generalizing s with
  | nil => exact ⟨s.result, rfl, fun h => h.resolve_left fun hne => hne rfl⟩
  | cons i is ih =>
    rw [List.mem_cons, not_or] at hreset
    obtain ⟨hi, his⟩ := hreset
    obtain ⟨r, hexec, hblocked⟩ := exec_fatal i s hr (Ne.symm hi)
    obtain ⟨r', hrun, hblocked'⟩ := ih { s with result := r } hr his
    exact ⟨r', by simp only [runAll, hexec, hrun], fun _ => hblocked' (.inr hblocked)⟩

/-! ### The statements -/

/-- Settles O48: the value of OWN_SLID is the free value that RESET draws. -/
theorem resetClearsEverything : Obligations.ResetClearsEverything := by
  unfold Obligations.ResetClearsEverything
  intro s
  exact ⟨_, exec_reset s⟩

/-- Settles O49: the refusal outside Unconfigured, then the branches of CFG_LOAD in the order of R353. -/
theorem cfgLoadOutcomes : Obligations.CfgLoadOutcomes := by
  unfold Obligations.CfgLoadOutcomes
  refine ⟨fun s record hr => execCfgLoad_refused record s hr, ?notInitialized, ?wrongVersion,
    ?badSlid, ?good⟩
  case notInitialized =>
    intro s record hr hshort
    rw [exec_cfgLoad_unconfigured record s hr, cfgLoadRun_notInitialized record s hshort]
    rfl
  case wrongVersion =>
    intro s version slid more hr hv
    exact exec_cfgLoad_wrongVersion s version slid more hr hv
  case badSlid =>
    intro s slid more hr hs
    exact exec_cfgLoad_badSlid s slid more hr ((validSlid_eq_false_iff slid).mpr hs)
  case good =>
    intro s slid more hr hlow hhigh
    exact exec_cfgLoad_good s slid more hr ((validSlid_iff slid).mpr ⟨hlow, hhigh⟩)

/-- Settles O50: the gate of the commands that act in Running, the gate of CFG_LOAD, and RESET. -/
theorem runStateGate : Obligations.RunStateGate := by
  unfold Obligations.RunStateGate
  exact ⟨exec_notRunning, fun s record hr => execCfgLoad_refused record s hr,
    fun s => ⟨_, exec_reset s, rfl⟩⟩

/-- Settles O51: a wrong version leaves SLC Fatal, and from there every list of commands without RESET
writes RESULT alone, by induction on the list. -/
theorem configGateHolds : Obligations.ConfigGateHolds := by
  unfold Obligations.ConfigGateHolds
  intro s version slid more commands hr hv hreset
  obtain ⟨r, hrun, hblocked⟩ :=
    runAll_fatal commands (cfgFatal .configVersionMismatch 0 s) rfl hreset
  exact ⟨_, _, exec_cfgLoad_wrongVersion s version slid more hr hv, rfl, rfl, hrun, rfl,
    fun hne => hblocked (.inl hne)⟩

end Sys2Proof.Machine
end
